-- ==== Sys2Proof/Word.lean ====
section
/-! DEFINITION. The words of the block: the 64-bit registers (R10), the 32-bit VRAM words (R9), their bytes,
and the 128-bit command word (R180). -/

namespace Sys2Proof

/-- A register of the raw bank (R10). -/
abbrev Word := BitVec 64

/-- A word of VRAM (R9). -/
abbrev VWord := BitVec 32

/-- A byte of VRAM. -/
abbrev Byte := BitVec 8

/-- A command word (R180). -/
abbrev CmdWord := BitVec 128

end Sys2Proof
end

