-- ==== Sys2Proof/Config.lean ====
section
/-! DEFINITION. The parameters the spec leaves to the model (R15) and the free values, one for each place where
a rule says `any` (R20). -/

namespace Sys2Proof

/-- The parameters of R15 other than `vramInit` (which is the VRAM contents of a power-on state, R560). They are
fixed for a machine: no command changes them. -/
structure Config where
  /-- CSR.REV, read only (R68). -/
  csrRev : BitVec 8
  /-- CSR.ID, read only (R68). -/
  csrId : BitVec 8
  /-- Whether COLCLAMP = 0 keeps the low 8 bits of a blend result (R452). -/
  honourColclamp : Bool
  /-- Whether a texel read of a word written since the last TEXFLUSH is unconstrained (R575). -/
  strictTexflush : Bool
deriving DecidableEq, Repr

/-- The parameters of the machine that `State.reset` starts: the defaults of R15 for the two Booleans and, for
REV and ID, the values every example of the spec uses. DESIGN CHOICE, log entry 2. -/
def Config.standard : Config :=
  { csrRev := 0x1B#8, csrId := 0x55#8, honourColclamp := false, strictTexflush := false }

/-- The 64 bits a read returns where the spec says `any` (R190, R191, R500). The argument is the state's counter
of free values. Free value, log entry 4. -/
opaque Config.freeWord : Nat → BitVec 64

/-- The bits a texel or CLUT read of a dirty word returns when `strictTexflush` is true (R575): the counter of
free values at the fragment, then the number of the read in the fragment. Free value, log entry 4. -/
opaque Config.freeTexel : Nat → Nat → BitVec 32

/-- The texel coordinate U of a fragment with q = 0 (R382). Free value, log entry 4. -/
opaque Config.freeU : Nat → Int

/-- The texel coordinate V of a fragment with q = 0 (R382). Free value, log entry 4. -/
opaque Config.freeV : Nat → Int

end Sys2Proof
end

