-- ==== Sys2Proof/Syntax.lean ====
section
/-! DEFINITION. Every command of the block, one constructor per row of spec/opcode_table.json (R180 to R185).
A write carries all 64 bits of DATA, because the raw register bank stores all of them (R31, R221); the
fields the rules name are read from the register where they are used. A read carries the 32 bits of ADDR; the
DATA bits of a read and of TR and the DATA and ADDR bits of an event are ignored by the rules (R180, R185) and are no
operand; the ADDR bits of TR are none either, which is DEDUCED, log entry 19. -/

namespace Sys2Proof

/-- One command the host can issue (R181). -/
inductive Instr where
  -- general register writes (KIND 0)
  /-- `W_PRIM`, R220. -/
  | wPrim (data : Word)
  /-- `W_RGBAQ`, R223. -/
  | wRgbaq (data : Word)
  /-- `W_ST`, R224. -/
  | wSt (data : Word)
  /-- `W_UV`, R225. -/
  | wUv (data : Word)
  /-- `W_XYZF2`, R226. -/
  | wXyzf2 (data : Word)
  /-- `W_XYZ2`, R227. -/
  | wXyz2 (data : Word)
  /-- `W_TEX0_1`, R231. -/
  | wTex0_1 (data : Word)
  /-- `W_TEX0_2`, R231. -/
  | wTex0_2 (data : Word)
  /-- `W_CLAMP_1`, R234. -/
  | wClamp_1 (data : Word)
  /-- `W_CLAMP_2`, R234. -/
  | wClamp_2 (data : Word)
  /-- `W_FOG`, R230. -/
  | wFog (data : Word)
  /-- `W_XYZF3`, R228. -/
  | wXyzf3 (data : Word)
  /-- `W_XYZ3`, R229. -/
  | wXyz3 (data : Word)
  /-- `W_TEX1_1`, R235. -/
  | wTex1_1 (data : Word)
  /-- `W_TEX1_2`, R235. -/
  | wTex1_2 (data : Word)
  /-- `W_TEX2_1`, R232. -/
  | wTex2_1 (data : Word)
  /-- `W_TEX2_2`, R233. -/
  | wTex2_2 (data : Word)
  /-- `W_XYOFFSET_1`, R236. -/
  | wXyoffset_1 (data : Word)
  /-- `W_XYOFFSET_2`, R236. -/
  | wXyoffset_2 (data : Word)
  /-- `W_PRMODECONT`, R244. -/
  | wPrmodecont (data : Word)
  /-- `W_PRMODE`, R245. -/
  | wPrmode (data : Word)
  /-- `W_TEXCLUT`, R246. -/
  | wTexclut (data : Word)
  /-- `W_SCANMSK`, R247. -/
  | wScanmsk (data : Word)
  /-- `W_MIPTBP1_1`, R243. -/
  | wMiptbp1_1 (data : Word)
  /-- `W_MIPTBP1_2`, R243. -/
  | wMiptbp1_2 (data : Word)
  /-- `W_MIPTBP2_1`, R243. -/
  | wMiptbp2_1 (data : Word)
  /-- `W_MIPTBP2_2`, R243. -/
  | wMiptbp2_2 (data : Word)
  /-- `W_TEXA`, R248. -/
  | wTexa (data : Word)
  /-- `W_FOGCOL`, R249. -/
  | wFogcol (data : Word)
  /-- `W_TEXFLUSH`, R255. -/
  | wTexflush (data : Word)
  /-- `W_SCISSOR_1`, R237. -/
  | wScissor_1 (data : Word)
  /-- `W_SCISSOR_2`, R237. -/
  | wScissor_2 (data : Word)
  /-- `W_ALPHA_1`, R238. -/
  | wAlpha_1 (data : Word)
  /-- `W_ALPHA_2`, R238. -/
  | wAlpha_2 (data : Word)
  /-- `W_DIMX`, R250. -/
  | wDimx (data : Word)
  /-- `W_DTHE`, R251. -/
  | wDthe (data : Word)
  /-- `W_COLCLAMP`, R252. -/
  | wColclamp (data : Word)
  /-- `W_TEST_1`, R239. -/
  | wTest_1 (data : Word)
  /-- `W_TEST_2`, R239. -/
  | wTest_2 (data : Word)
  /-- `W_PABE`, R253. -/
  | wPabe (data : Word)
  /-- `W_FBA_1`, R240. -/
  | wFba_1 (data : Word)
  /-- `W_FBA_2`, R240. -/
  | wFba_2 (data : Word)
  /-- `W_FRAME_1`, R241. -/
  | wFrame_1 (data : Word)
  /-- `W_FRAME_2`, R241. -/
  | wFrame_2 (data : Word)
  /-- `W_ZBUF_1`, R242. -/
  | wZbuf_1 (data : Word)
  /-- `W_ZBUF_2`, R242. -/
  | wZbuf_2 (data : Word)
  /-- `W_BITBLTBUF`, R256. -/
  | wBitbltbuf (data : Word)
  /-- `W_TRXPOS`, R257. -/
  | wTrxpos (data : Word)
  /-- `W_TRXREG`, R258. -/
  | wTrxreg (data : Word)
  /-- `W_TRXDIR`, R259. -/
  | wTrxdir (data : Word)
  /-- `W_HWREG`, R265. -/
  | wHwreg (data : Word)
  /-- `W_SIGNAL`, R280. -/
  | wSignal (data : Word)
  /-- `W_FINISH`, R281. -/
  | wFinish (data : Word)
  /-- `W_LABEL`, R282. -/
  | wLabel (data : Word)
  -- the general register read (KIND 1)
  /-- `R_GENERAL`, R290. -/
  | rGeneral (addr : BitVec 32)
  -- privileged register writes (KIND 2)
  /-- `PW_PMODE`, R260. -/
  | pwPmode (data : Word)
  /-- `PW_SMODE1`, R261. -/
  | pwSmode1 (data : Word)
  /-- `PW_SMODE2`, R262. -/
  | pwSmode2 (data : Word)
  /-- `PW_SRFSH`, R263. -/
  | pwSrfsh (data : Word)
  /-- `PW_SYNCH1`, R264. -/
  | pwSynch1 (data : Word)
  /-- `PW_SYNCH2`, R266. -/
  | pwSynch2 (data : Word)
  /-- `PW_SYNCV`, R267. -/
  | pwSyncv (data : Word)
  /-- `PW_DISPFB1`, R268. -/
  | pwDispfb1 (data : Word)
  /-- `PW_DISPLAY1`, R269. -/
  | pwDisplay1 (data : Word)
  /-- `PW_DISPFB2`, R268. -/
  | pwDispfb2 (data : Word)
  /-- `PW_DISPLAY2`, R269. -/
  | pwDisplay2 (data : Word)
  /-- `PW_EXTBUF`, R270. -/
  | pwExtbuf (data : Word)
  /-- `PW_EXTDATA`, R271. -/
  | pwExtdata (data : Word)
  /-- `PW_EXTWRITE`, R272. -/
  | pwExtwrite (data : Word)
  /-- `PW_BGCOLOR`, R273. -/
  | pwBgcolor (data : Word)
  /-- `PW_CSR`, R300. -/
  | pwCsr (data : Word)
  /-- `PW_IMR`, R301. -/
  | pwImr (data : Word)
  /-- `PW_BUSDIR`, R302. -/
  | pwBusdir (data : Word)
  /-- `PW_SIGLBLID`, R303. -/
  | pwSiglblid (data : Word)
  -- the privileged register read (KIND 3)
  /-- `R_PRIV`, R306. -/
  | rPriv (addr : BitVec 32)
  -- the transfer read (KIND 4)
  /-- `TR`, R500. -/
  | tr
  -- the timing events (KIND 5, 6, 7)
  /-- `EV_VBLANK_IN`, R540. -/
  | evVblankIn
  /-- `EV_VBLANK_OUT`, R542. -/
  | evVblankOut
  /-- `EV_HBLANK`, R541. -/
  | evHblank
deriving DecidableEq, Repr

end Sys2Proof
end

