-- ==== Sys2Proof/WellFormed.lean ====
section
/-! DEFINITION. Well-formed commands. The operands of a command are bit fields whose types already bound them;
the one operand the rules bound further is the address of a general register read. -/

namespace Sys2Proof

/-- A general register address is `0x00..0xFF` zero-extended to the 32 bits of ADDR (R180, R290). -/
def generalAddrOk (addr : BitVec 32) : Bool := addr.toNat < 0x100

/-- The check of a command's operands. A GR whose ADDR is 0x100 or above still decodes and runs, as a read of an
address that names no register (R190; log entry 7); it is not one a host assembles from the operands of R290. -/
def Instr.wellFormed : Instr → Bool
  | .rGeneral addr => generalAddrOk addr
  | _ => true

end Sys2Proof
end

