-- ==== Sys2Proof/Decode.lean ====
section
/-! DEFINITION. The 128-bit command word: decoding, total on every word and rejecting by name (R180 to R185,
R190 to R192), and the encoder written from the opcode table's ADDR and KIND of each row. -/

namespace Sys2Proof

/-- Why a command word decodes to no row of the opcode table. -/
inductive DecodeReject where
  /-- A reserved KIND (8..15) or non-zero bits [127:100]: the command is refused (R180, R181, R192). -/
  | badCommand
  /-- A GW whose ADDR names no general register, or a PW whose ADDR names no privileged register: the command
  is ignored (R182, R183, R190, R191). -/
  | noSuchRegister
deriving DecidableEq, Repr

/-- DATA, bits [63:0] of the command word (R180). -/
def cmdData (w : CmdWord) : Word := w.extractLsb' 0 64

/-- ADDR, bits [95:64] of the command word (R180). -/
def cmdAddr (w : CmdWord) : BitVec 32 := w.extractLsb' 64 32

/-- KIND, bits [99:96] of the command word (R180). -/
def cmdKind (w : CmdWord) : BitVec 4 := w.extractLsb' 96 4

/-- Bits [127:100] of the command word, which must be 0 (R180). -/
def cmdReserved (w : CmdWord) : BitVec 28 := w.extractLsb' 100 28

/-- The general register write that ADDR names, if it names one (R182, the addresses of R32). -/
def generalWrite? (addr : BitVec 32) (d : Word) : Option Instr :=
  if addr = 0x00#32 then some (.wPrim d)
  else if addr = 0x01#32 then some (.wRgbaq d)
  else if addr = 0x02#32 then some (.wSt d)
  else if addr = 0x03#32 then some (.wUv d)
  else if addr = 0x04#32 then some (.wXyzf2 d)
  else if addr = 0x05#32 then some (.wXyz2 d)
  else if addr = 0x06#32 then some (.wTex0_1 d)
  else if addr = 0x07#32 then some (.wTex0_2 d)
  else if addr = 0x08#32 then some (.wClamp_1 d)
  else if addr = 0x09#32 then some (.wClamp_2 d)
  else if addr = 0x0A#32 then some (.wFog d)
  else if addr = 0x0C#32 then some (.wXyzf3 d)
  else if addr = 0x0D#32 then some (.wXyz3 d)
  else if addr = 0x14#32 then some (.wTex1_1 d)
  else if addr = 0x15#32 then some (.wTex1_2 d)
  else if addr = 0x16#32 then some (.wTex2_1 d)
  else if addr = 0x17#32 then some (.wTex2_2 d)
  else if addr = 0x18#32 then some (.wXyoffset_1 d)
  else if addr = 0x19#32 then some (.wXyoffset_2 d)
  else if addr = 0x1A#32 then some (.wPrmodecont d)
  else if addr = 0x1B#32 then some (.wPrmode d)
  else if addr = 0x1C#32 then some (.wTexclut d)
  else if addr = 0x22#32 then some (.wScanmsk d)
  else if addr = 0x34#32 then some (.wMiptbp1_1 d)
  else if addr = 0x35#32 then some (.wMiptbp1_2 d)
  else if addr = 0x36#32 then some (.wMiptbp2_1 d)
  else if addr = 0x37#32 then some (.wMiptbp2_2 d)
  else if addr = 0x3B#32 then some (.wTexa d)
  else if addr = 0x3D#32 then some (.wFogcol d)
  else if addr = 0x3F#32 then some (.wTexflush d)
  else if addr = 0x40#32 then some (.wScissor_1 d)
  else if addr = 0x41#32 then some (.wScissor_2 d)
  else if addr = 0x42#32 then some (.wAlpha_1 d)
  else if addr = 0x43#32 then some (.wAlpha_2 d)
  else if addr = 0x44#32 then some (.wDimx d)
  else if addr = 0x45#32 then some (.wDthe d)
  else if addr = 0x46#32 then some (.wColclamp d)
  else if addr = 0x47#32 then some (.wTest_1 d)
  else if addr = 0x48#32 then some (.wTest_2 d)
  else if addr = 0x49#32 then some (.wPabe d)
  else if addr = 0x4A#32 then some (.wFba_1 d)
  else if addr = 0x4B#32 then some (.wFba_2 d)
  else if addr = 0x4C#32 then some (.wFrame_1 d)
  else if addr = 0x4D#32 then some (.wFrame_2 d)
  else if addr = 0x4E#32 then some (.wZbuf_1 d)
  else if addr = 0x4F#32 then some (.wZbuf_2 d)
  else if addr = 0x50#32 then some (.wBitbltbuf d)
  else if addr = 0x51#32 then some (.wTrxpos d)
  else if addr = 0x52#32 then some (.wTrxreg d)
  else if addr = 0x53#32 then some (.wTrxdir d)
  else if addr = 0x54#32 then some (.wHwreg d)
  else if addr = 0x60#32 then some (.wSignal d)
  else if addr = 0x61#32 then some (.wFinish d)
  else if addr = 0x62#32 then some (.wLabel d)
  else none

/-- The privileged register write that ADDR names, if it names one (R183, the addresses of R67). -/
def privWrite? (addr : BitVec 32) (d : Word) : Option Instr :=
  if addr = 0x12000000#32 then some (.pwPmode d)
  else if addr = 0x12000010#32 then some (.pwSmode1 d)
  else if addr = 0x12000020#32 then some (.pwSmode2 d)
  else if addr = 0x12000030#32 then some (.pwSrfsh d)
  else if addr = 0x12000040#32 then some (.pwSynch1 d)
  else if addr = 0x12000050#32 then some (.pwSynch2 d)
  else if addr = 0x12000060#32 then some (.pwSyncv d)
  else if addr = 0x12000070#32 then some (.pwDispfb1 d)
  else if addr = 0x12000080#32 then some (.pwDisplay1 d)
  else if addr = 0x12000090#32 then some (.pwDispfb2 d)
  else if addr = 0x120000A0#32 then some (.pwDisplay2 d)
  else if addr = 0x120000B0#32 then some (.pwExtbuf d)
  else if addr = 0x120000C0#32 then some (.pwExtdata d)
  else if addr = 0x120000D0#32 then some (.pwExtwrite d)
  else if addr = 0x120000E0#32 then some (.pwBgcolor d)
  else if addr = 0x12001000#32 then some (.pwCsr d)
  else if addr = 0x12001010#32 then some (.pwImr d)
  else if addr = 0x12001040#32 then some (.pwBusdir d)
  else if addr = 0x12001080#32 then some (.pwSiglblid d)
  else none

/-- A write that names a register, or the rejection of one that names none. -/
def orNoSuchRegister : Option Instr → Except DecodeReject Instr
  | some i => .ok i
  | none => .error .noSuchRegister

/-- Decode one command word (R180 to R185). GR and PR take every ADDR: one that names no register is still a
read, of an unconstrained value (R190, R191; for a GR above 0xFF log entry 7). The events ignore ADDR (R185). That a TR
takes every ADDR is DEDUCED from its row of the opcode table, log entry 19: no rule says it. -/
def decode (w : CmdWord) : Except DecodeReject Instr :=
  if cmdReserved w ≠ 0#28 then .error .badCommand
  else if cmdKind w = 0#4 then orNoSuchRegister (generalWrite? (cmdAddr w) (cmdData w))
  else if cmdKind w = 1#4 then .ok (.rGeneral (cmdAddr w))
  else if cmdKind w = 2#4 then orNoSuchRegister (privWrite? (cmdAddr w) (cmdData w))
  else if cmdKind w = 3#4 then .ok (.rPriv (cmdAddr w))
  else if cmdKind w = 4#4 then .ok .tr
  else if cmdKind w = 5#4 then .ok .evVblankIn
  else if cmdKind w = 6#4 then .ok .evVblankOut
  else if cmdKind w = 7#4 then .ok .evHblank
  else .error .badCommand

/-- The command word with the given KIND, ADDR and DATA and zero bits [127:100] (R180). -/
def cmdWord (kind : BitVec 4) (addr : BitVec 32) (d : Word) : CmdWord := 0#28 ++ kind ++ addr ++ d

/-- The command word of an instruction, row by row of the opcode table; ignored bits are 0. -/
def encode : Instr → CmdWord
  | .wPrim d => cmdWord 0#4 0x00#32 d
  | .wRgbaq d => cmdWord 0#4 0x01#32 d
  | .wSt d => cmdWord 0#4 0x02#32 d
  | .wUv d => cmdWord 0#4 0x03#32 d
  | .wXyzf2 d => cmdWord 0#4 0x04#32 d
  | .wXyz2 d => cmdWord 0#4 0x05#32 d
  | .wTex0_1 d => cmdWord 0#4 0x06#32 d
  | .wTex0_2 d => cmdWord 0#4 0x07#32 d
  | .wClamp_1 d => cmdWord 0#4 0x08#32 d
  | .wClamp_2 d => cmdWord 0#4 0x09#32 d
  | .wFog d => cmdWord 0#4 0x0A#32 d
  | .wXyzf3 d => cmdWord 0#4 0x0C#32 d
  | .wXyz3 d => cmdWord 0#4 0x0D#32 d
  | .wTex1_1 d => cmdWord 0#4 0x14#32 d
  | .wTex1_2 d => cmdWord 0#4 0x15#32 d
  | .wTex2_1 d => cmdWord 0#4 0x16#32 d
  | .wTex2_2 d => cmdWord 0#4 0x17#32 d
  | .wXyoffset_1 d => cmdWord 0#4 0x18#32 d
  | .wXyoffset_2 d => cmdWord 0#4 0x19#32 d
  | .wPrmodecont d => cmdWord 0#4 0x1A#32 d
  | .wPrmode d => cmdWord 0#4 0x1B#32 d
  | .wTexclut d => cmdWord 0#4 0x1C#32 d
  | .wScanmsk d => cmdWord 0#4 0x22#32 d
  | .wMiptbp1_1 d => cmdWord 0#4 0x34#32 d
  | .wMiptbp1_2 d => cmdWord 0#4 0x35#32 d
  | .wMiptbp2_1 d => cmdWord 0#4 0x36#32 d
  | .wMiptbp2_2 d => cmdWord 0#4 0x37#32 d
  | .wTexa d => cmdWord 0#4 0x3B#32 d
  | .wFogcol d => cmdWord 0#4 0x3D#32 d
  | .wTexflush d => cmdWord 0#4 0x3F#32 d
  | .wScissor_1 d => cmdWord 0#4 0x40#32 d
  | .wScissor_2 d => cmdWord 0#4 0x41#32 d
  | .wAlpha_1 d => cmdWord 0#4 0x42#32 d
  | .wAlpha_2 d => cmdWord 0#4 0x43#32 d
  | .wDimx d => cmdWord 0#4 0x44#32 d
  | .wDthe d => cmdWord 0#4 0x45#32 d
  | .wColclamp d => cmdWord 0#4 0x46#32 d
  | .wTest_1 d => cmdWord 0#4 0x47#32 d
  | .wTest_2 d => cmdWord 0#4 0x48#32 d
  | .wPabe d => cmdWord 0#4 0x49#32 d
  | .wFba_1 d => cmdWord 0#4 0x4A#32 d
  | .wFba_2 d => cmdWord 0#4 0x4B#32 d
  | .wFrame_1 d => cmdWord 0#4 0x4C#32 d
  | .wFrame_2 d => cmdWord 0#4 0x4D#32 d
  | .wZbuf_1 d => cmdWord 0#4 0x4E#32 d
  | .wZbuf_2 d => cmdWord 0#4 0x4F#32 d
  | .wBitbltbuf d => cmdWord 0#4 0x50#32 d
  | .wTrxpos d => cmdWord 0#4 0x51#32 d
  | .wTrxreg d => cmdWord 0#4 0x52#32 d
  | .wTrxdir d => cmdWord 0#4 0x53#32 d
  | .wHwreg d => cmdWord 0#4 0x54#32 d
  | .wSignal d => cmdWord 0#4 0x60#32 d
  | .wFinish d => cmdWord 0#4 0x61#32 d
  | .wLabel d => cmdWord 0#4 0x62#32 d
  | .rGeneral addr => cmdWord 1#4 addr 0#64
  | .pwPmode d => cmdWord 2#4 0x12000000#32 d
  | .pwSmode1 d => cmdWord 2#4 0x12000010#32 d
  | .pwSmode2 d => cmdWord 2#4 0x12000020#32 d
  | .pwSrfsh d => cmdWord 2#4 0x12000030#32 d
  | .pwSynch1 d => cmdWord 2#4 0x12000040#32 d
  | .pwSynch2 d => cmdWord 2#4 0x12000050#32 d
  | .pwSyncv d => cmdWord 2#4 0x12000060#32 d
  | .pwDispfb1 d => cmdWord 2#4 0x12000070#32 d
  | .pwDisplay1 d => cmdWord 2#4 0x12000080#32 d
  | .pwDispfb2 d => cmdWord 2#4 0x12000090#32 d
  | .pwDisplay2 d => cmdWord 2#4 0x120000A0#32 d
  | .pwExtbuf d => cmdWord 2#4 0x120000B0#32 d
  | .pwExtdata d => cmdWord 2#4 0x120000C0#32 d
  | .pwExtwrite d => cmdWord 2#4 0x120000D0#32 d
  | .pwBgcolor d => cmdWord 2#4 0x120000E0#32 d
  | .pwCsr d => cmdWord 2#4 0x12001000#32 d
  | .pwImr d => cmdWord 2#4 0x12001010#32 d
  | .pwBusdir d => cmdWord 2#4 0x12001040#32 d
  | .pwSiglblid d => cmdWord 2#4 0x12001080#32 d
  | .rPriv addr => cmdWord 3#4 addr 0#64
  | .tr => cmdWord 4#4 0#32 0#64
  | .evVblankIn => cmdWord 5#4 0#32 0#64
  | .evVblankOut => cmdWord 6#4 0#32 0#64
  | .evHblank => cmdWord 7#4 0#32 0#64

/-- The command word whose low `nbits` bits are those of `w` and whose other bits are 0. A command is one
128-bit word of one length (R180, R194), so the table's numbering of the bits is the word's own. -/
def tableWord (nbits w : Nat) : CmdWord := BitVec.ofNat 128 (w % 2 ^ nbits)

/-- The instruction the decoder reads from a row's word, its bits numbered as the opcode table numbers them. -/
def decodeTableWord (nbits w : Nat) : Option Instr :=
  match decode (tableWord nbits w) with
  | .ok i => some i
  | .error _ => none

end Sys2Proof
end

