-- ==== Sys2Proof/Machine/State.lean ====
section
/-! DEFINITION. The state of the block (R30), as plain data, and its value after a power-on reset (R560). -/

namespace Sys2Proof.Machine

/-- A register of the raw bank: the 54 general registers of R32 in address order, then the 17 privileged
registers of R67 that are stored raw (CSR and SIGLBLID are held in `State.csr` and `State.sig`). -/
inductive RegName where
  | prim | rgbaq | st | uv | xyzf2 | xyz2 | tex0_1 | tex0_2 | clamp_1 | clamp_2 | fog | xyzf3 | xyz3 | tex1_1
  | tex1_2 | tex2_1 | tex2_2 | xyoffset_1 | xyoffset_2 | prmodecont | prmode | texclut | scanmsk | miptbp1_1
  | miptbp1_2 | miptbp2_1 | miptbp2_2 | texa | fogcol | texflush | scissor_1 | scissor_2 | alpha_1 | alpha_2
  | dimx | dthe | colclamp | test_1 | test_2 | pabe | fba_1 | fba_2 | frame_1 | frame_2 | zbuf_1 | zbuf_2
  | bitbltbuf | trxpos | trxreg | trxdir | hwreg | signal | finish | label | pmode | smode1 | smode2 | srfsh
  | synch1 | synch2 | syncv | dispfb1 | display1 | dispfb2 | display2 | extbuf | extdata | extwrite | bgcolor
  | imr | busdir
deriving DecidableEq, Repr

/-- The raw register bank (R31): one 64-bit value for each register name. -/
abbrev Regs := Vector Word 71

/-- The place of a register in the bank. -/
def RegName.index (r : RegName) : Fin 71 := ⟨r.ctorIdx, by cases r <;> decide⟩

/-- The bank after a reset (R560): 0 everywhere but PRMODECONT = 1 (R34) and IMR = 0x7F00 (R69). -/
def Regs.reset : Regs :=
  ((Vector.replicate 71 0#64).set RegName.prmodecont.index 1#64).set RegName.imr.index 0x7F00#64

/-- A vertex record (R73): the coordinates, depth and fog of its kick and the attributes in force at the kick. -/
structure Vertex where
  /-- Screen X, 12.4. -/
  x : BitVec 16
  /-- Screen Y, 12.4. -/
  y : BitVec 16
  /-- Depth. -/
  z : BitVec 32
  /-- Fog coefficient. -/
  f : BitVec 8
  r : BitVec 8
  g : BitVec 8
  b : BitVec 8
  a : BitVec 8
  /-- binary32 bits of Q, S and T. -/
  q : BitVec 32
  s : BitVec 32
  t : BitVec 32
  /-- Texel U, 12.4. -/
  u : BitVec 14
  /-- Texel V, 12.4. -/
  v : BitVec 14
deriving DecidableEq, Repr

/-- A vertex record of all zeros: what the unobservable slots hold at reset. DESIGN CHOICE, log entry 11. -/
def Vertex.zero : Vertex := ⟨0, 0, 0, 0, 0, 0, 0, 0, 0, 0, 0, 0, 0⟩

/-- The vertex queue (R12, R74): `k` queued vertices in slots 0 to k-1 of the four. -/
structure VertexQueue where
  k : Nat
  slot : Vector Vertex 4
deriving DecidableEq, Repr

/-- The direction of a transfer that leaves a cursor (R75). -/
inductive TransferDir where
  | hostToLocal | localToHost
deriving DecidableEq, Repr

/-- The transfer cursor (R75): the buffers and window latched at the TRXDIR write, the next pixel's position and
the bytes of a 24-bit pixel split across data words. -/
structure TransferCursor where
  dir : TransferDir
  sbp : Nat
  sbw : Nat
  /-- Source format code (R186). -/
  spsm : Nat
  dbp : Nat
  dbw : Nat
  /-- Destination format code (R186). -/
  dpsm : Nat
  ssax : Nat
  ssay : Nat
  dsax : Nat
  dsay : Nat
  rrw : Nat
  rrh : Nat
  cx : Nat
  cy : Nat
  carry : List Byte
deriving DecidableEq, Repr

/-- The stored fields of CSR (R68). -/
structure Csr where
  signal : Bool
  finish : Bool
  hsint : Bool
  vsint : Bool
  edwint : Bool
  field : Bool
deriving DecidableEq, Repr

/-- CSR after a reset (R560): every bit 0. -/
def Csr.reset : Csr := ⟨false, false, false, false, false, false⟩

/-- The sources that emit an interrupt event (R79, R530). -/
inductive IrqSource where
  | signal | finish | hsint | vsint
deriving DecidableEq, Repr

/-- An event sent to an external collaborator (R79): `GsIrq(src)` to the interrupt controller. -/
inductive Event where
  | gsIrq (src : IrqSource)
deriving DecidableEq, Repr

/-- The reasons of a refusal (R522). A refusal is no stop of this machine: it sets `State.refused` and the machine
goes on with the next command (log entry 5). -/
inductive RefuseReason where
  | badCommand | antialiasing | reservedScanMask | badFramePsm | badDepthPsm | reservedBlendCode
  | badTexture | badClut | nonFiniteStq | badTransferFormat | transferWidthMismatch
deriving DecidableEq, Repr

/-- The bytes of VRAM (R76, R100), as address and byte pairs in one canonical form (`Memory.wf`). Byte `i` of
word `w` has address `4 * w + i` (R102). -/
abbrev Memory := List Host.Cell

/-- The first byte address beyond VRAM: 2^20 words of 4 bytes (R9). -/
def Memory.size : Nat := 2 ^ 22

/-- What a byte address that the list does not name reads as. DESIGN CHOICE, log entry 3. -/
def Memory.unlisted : Byte := 0#8

/-- The canonical form: addresses strictly rising and inside VRAM, no listed byte equal to the unlisted one. -/
def Memory.wf : Memory → Bool
  | [] => true
  | [c] => c.1 < Memory.size && c.2 != Memory.unlisted
  | c :: d :: m => c.1 < d.1 && c.2 != Memory.unlisted && Memory.wf (d :: m)

/-- The local memory: VRAM, the words written since the last TEXFLUSH, and the model's counter of free values. -/
structure LocalMem where
  /-- VRAM (R76). -/
  vram : Memory
  /-- The word addresses of `dirty` (R30, R575), strictly rising. -/
  dirty : List Nat
  /-- How many free values have been used: the model's own field, log entry 4. -/
  free : Nat
deriving DecidableEq, Repr

/-- The state of the block (R30). -/
structure State where
  /-- The raw register bank (R31). -/
  regs : Regs
  /-- The vertex queue (R74). -/
  vq : VertexQueue
  /-- The transfer cursor (R75), absent when no transfer is active. -/
  xfer : Option TransferCursor
  /-- VRAM, `dirty` and the counter of free values. -/
  lm : LocalMem
  /-- The status bits of CSR (R68). -/
  csr : Csr
  /-- SIGLBLID (R71). -/
  sig : Word
  /-- The events sent, oldest first (R79). -/
  out : List Event
  /-- Whether a command has been refused (R79, R522). -/
  refused : Bool
  /-- Why, oldest first: the model's own field, log entry 5. -/
  reasons : List RefuseReason
  /-- The values returned to the host by GR, PR and TR, oldest first: the model's own field, log entry 9. -/
  replies : List Word
  /-- The commands the host has issued and the block has not taken yet: the model's own field, log entry 1. -/
  cmds : List CmdWord
  /-- The parameters of R15, which no command changes: log entry 2. -/
  cfg : Config
deriving DecidableEq, Repr

/-- The block stops with a fault: never. The block has no exceptions and no case of the spec is a fault or a stuck
state (R520, 93_implementation_defined.md section 1), so there is no constructor and nothing raises one. -/
inductive Fault where
deriving DecidableEq, Repr

/-- Why a command has no meaning in the model. -/
inductive Refusal where
  /-- Raised by an arm of `exec` whose command is not modelled yet; safe. No arm raises it: every command of the
  opcode table has its meaning. -/
  | notModelled (mnemonic : String)
deriving DecidableEq, Repr

/-- The state after a power-on reset (R560) of a machine with parameters `cfg` and power-on VRAM contents `vramInit`
(R15), with no command issued yet. -/
def State.powerOn (cfg : Config) (vramInit : Memory) : State :=
  { regs := Regs.reset
    vq := { k := 0, slot := Vector.replicate 4 Vertex.zero }
    xfer := none
    lm := { vram := vramInit, dirty := [], free := 0 }
    csr := Csr.reset
    sig := 0#64
    out := []
    refused := false
    reasons := []
    replies := []
    cmds := []
    cfg := cfg }

/-- The machine right after reset: the standard parameters (log entry 2) and VRAM with nothing listed (log entry 3). -/
def State.reset : State := State.powerOn Config.standard []

end Sys2Proof.Machine
end

