-- ==== Sys2Proof/Machine/Operands.lean ====
section
/-! DEFINITION. The operand forms: register addresses, the named bit fields of the registers (R33 to R66, R187), the
decoded drawing context (R50), the primitive attributes (R35) and the pixel storage formats (R186). -/

namespace Sys2Proof.Machine

/-- The unsigned value of bits hi down to lo of a register, inclusive: `v[hi:lo]` (R16). -/
def field (v : Word) (hi lo : Nat) : Nat := (v.extractLsb hi lo).toNat

/-- Bit i of a register: `v[i]` (R16). -/
def bit (v : Word) (i : Nat) : Bool := v.getLsbD i

/-- The low n bits of v read as two's complement: `sext_n(v)` (R17). -/
def signed (n v : Nat) : Int := (BitVec.ofNat n v).toInt

/-! ## The raw register bank -/

/-- The value of a register of the bank: `reg[NAME]` (R18). -/
def Regs.read (rs : Regs) (r : RegName) : Word := Vector.get rs r.index

/-- The bank with one register's value replaced: `reg[NAME] <- v` (R18, R31). -/
def Regs.write (rs : Regs) (r : RegName) (v : Word) : Regs := Vector.set rs r.index v r.index.isLt

/-! ## Register addresses -/

/-- The general registers by address (R32). -/
def generalTable : List (BitVec 32 × RegName) :=
  [(0x00#32, .prim), (0x01#32, .rgbaq), (0x02#32, .st), (0x03#32, .uv),
   (0x04#32, .xyzf2), (0x05#32, .xyz2),
   (0x06#32, .tex0_1), (0x07#32, .tex0_2), (0x08#32, .clamp_1), (0x09#32, .clamp_2),
   (0x0A#32, .fog), (0x0C#32, .xyzf3),
   (0x0D#32, .xyz3), (0x14#32, .tex1_1), (0x15#32, .tex1_2), (0x16#32, .tex2_1),
   (0x17#32, .tex2_2), (0x18#32, .xyoffset_1),
   (0x19#32, .xyoffset_2), (0x1A#32, .prmodecont), (0x1B#32, .prmode), (0x1C#32, .texclut),
   (0x22#32, .scanmsk), (0x34#32, .miptbp1_1),
   (0x35#32, .miptbp1_2), (0x36#32, .miptbp2_1), (0x37#32, .miptbp2_2), (0x3B#32, .texa),
   (0x3D#32, .fogcol), (0x3F#32, .texflush),
   (0x40#32, .scissor_1), (0x41#32, .scissor_2), (0x42#32, .alpha_1), (0x43#32, .alpha_2),
   (0x44#32, .dimx), (0x45#32, .dthe),
   (0x46#32, .colclamp), (0x47#32, .test_1), (0x48#32, .test_2), (0x49#32, .pabe),
   (0x4A#32, .fba_1), (0x4B#32, .fba_2),
   (0x4C#32, .frame_1), (0x4D#32, .frame_2), (0x4E#32, .zbuf_1), (0x4F#32, .zbuf_2),
   (0x50#32, .bitbltbuf), (0x51#32, .trxpos),
   (0x52#32, .trxreg), (0x53#32, .trxdir), (0x54#32, .hwreg), (0x60#32, .signal),
   (0x61#32, .finish), (0x62#32, .label)]

/-- The stored privileged registers by bus address (R67, less CSR and SIGLBLID). -/
def privTable : List (BitVec 32 × RegName) :=
  [(0x12000000#32, .pmode), (0x12000010#32, .smode1), (0x12000020#32, .smode2), (0x12000030#32, .srfsh),
   (0x12000040#32, .synch1), (0x12000050#32, .synch2),
   (0x12000060#32, .syncv), (0x12000070#32, .dispfb1), (0x12000080#32, .display1), (0x12000090#32, .dispfb2),
   (0x120000A0#32, .display2), (0x120000B0#32, .extbuf),
   (0x120000C0#32, .extdata), (0x120000D0#32, .extwrite), (0x120000E0#32, .bgcolor), (0x12001010#32, .imr),
   (0x12001040#32, .busdir)]

/-- The first entry of an address table with the given address. -/
def lookupAddr (addr : BitVec 32) : List (BitVec 32 × RegName) → Option RegName
  | [] => none
  | (a, r) :: t => if addr = a then some r else lookupAddr addr t

/-- The general register an address names (R32, R190). -/
def generalReg? (addr : BitVec 32) : Option RegName := lookupAddr addr generalTable

/-- The stored privileged register an address names (R67, R191). -/
def privReg? (addr : BitVec 32) : Option RegName := lookupAddr addr privTable

/-- The bus address of CSR (R68). -/
def csrAddr : BitVec 32 := 0x12001000#32

/-- The bus address of SIGLBLID (R71). -/
def siglblidAddr : BitVec 32 := 0x12001080#32

/-! ## The drawing context -/

/-- The two drawing contexts (R11). -/
inductive CtxId where
  | ctx1 | ctx2
deriving DecidableEq, Repr

/-- The raw registers of one drawing context; its decoded fields are the functions below (R50). -/
structure Context where
  tex0 : Word
  tex1 : Word
  clamp : Word
  xyoffset : Word
  scissor : Word
  alpha : Word
  test : Word
  fba : Word
  frame : Word
  zbuf : Word
  miptbp1 : Word
  miptbp2 : Word
deriving DecidableEq, Repr

/-- The decoded context n of a register bank, `ctx(n)` (R50). -/
def Regs.ctx (rs : Regs) : CtxId → Context
  | .ctx1 => ⟨rs.read .tex0_1, rs.read .tex1_1, rs.read .clamp_1,
      rs.read .xyoffset_1, rs.read .scissor_1, rs.read .alpha_1,
      rs.read .test_1, rs.read .fba_1, rs.read .frame_1,
      rs.read .zbuf_1, rs.read .miptbp1_1, rs.read .miptbp2_1⟩
  | .ctx2 => ⟨rs.read .tex0_2, rs.read .tex1_2, rs.read .clamp_2,
      rs.read .xyoffset_2, rs.read .scissor_2, rs.read .alpha_2,
      rs.read .test_2, rs.read .fba_2, rs.read .frame_2,
      rs.read .zbuf_2, rs.read .miptbp1_2, rs.read .miptbp2_2⟩

/-- TEX0.TBP0: texture base, blocks. -/
def Context.tbp0 (K : Context) : Nat := field K.tex0 13 0

/-- TEX0.TBW: texture width, 64-pixel units. -/
def Context.tbw (K : Context) : Nat := field K.tex0 19 14

/-- TEX0.PSM. -/
def Context.texPsm (K : Context) : Nat := field K.tex0 25 20

/-- TEX0.TW. -/
def Context.tw (K : Context) : Nat := field K.tex0 29 26

/-- TEX0.TH. -/
def Context.th (K : Context) : Nat := field K.tex0 33 30

/-- TEX0.TFX. -/
def Context.tfx (K : Context) : Nat := field K.tex0 36 35

/-- TEX0.CBP: CLUT base, blocks. -/
def Context.cbp (K : Context) : Nat := field K.tex0 50 37

/-- TEX0.CPSM. -/
def Context.cpsm (K : Context) : Nat := field K.tex0 54 51

/-- TEX0.CSA. -/
def Context.csa (K : Context) : Nat := field K.tex0 60 56

/-- TEX0.CLD (no effect). -/
def Context.cld (K : Context) : Nat := field K.tex0 63 61

/-- TEX1.LCM (no effect). -/
def Context.lcm (K : Context) : Nat := field K.tex1 0 0

/-- TEX1.MXL (no effect). -/
def Context.mxl (K : Context) : Nat := field K.tex1 4 2

/-- TEX1.MMIN (no effect). -/
def Context.mmin (K : Context) : Nat := field K.tex1 8 6

/-- TEX1.MTBA (no effect). -/
def Context.mtba (K : Context) : Nat := field K.tex1 9 9

/-- TEX1.L (no effect). -/
def Context.lodL (K : Context) : Nat := field K.tex1 20 19

/-- CLAMP.WMS. -/
def Context.wms (K : Context) : Nat := field K.clamp 1 0

/-- CLAMP.WMT. -/
def Context.wmt (K : Context) : Nat := field K.clamp 3 2

/-- CLAMP.MINU. -/
def Context.minu (K : Context) : Nat := field K.clamp 13 4

/-- CLAMP.MAXU. -/
def Context.maxu (K : Context) : Nat := field K.clamp 23 14

/-- CLAMP.MINV. -/
def Context.minv (K : Context) : Nat := field K.clamp 33 24

/-- CLAMP.MAXV. -/
def Context.maxv (K : Context) : Nat := field K.clamp 43 34

/-- XYOFFSET.OFX, 12.4. -/
def Context.ofx (K : Context) : Nat := field K.xyoffset 15 0

/-- XYOFFSET.OFY, 12.4. -/
def Context.ofy (K : Context) : Nat := field K.xyoffset 47 32

/-- SCISSOR.SCAX0. -/
def Context.scax0 (K : Context) : Nat := field K.scissor 10 0

/-- SCISSOR.SCAX1. -/
def Context.scax1 (K : Context) : Nat := field K.scissor 26 16

/-- SCISSOR.SCAY0. -/
def Context.scay0 (K : Context) : Nat := field K.scissor 42 32

/-- SCISSOR.SCAY1. -/
def Context.scay1 (K : Context) : Nat := field K.scissor 58 48

/-- ALPHA.A. -/
def Context.alphaA (K : Context) : Nat := field K.alpha 1 0

/-- ALPHA.B. -/
def Context.alphaB (K : Context) : Nat := field K.alpha 3 2

/-- ALPHA.C. -/
def Context.alphaC (K : Context) : Nat := field K.alpha 5 4

/-- ALPHA.D. -/
def Context.alphaD (K : Context) : Nat := field K.alpha 7 6

/-- ALPHA.FIX. -/
def Context.alphaFix (K : Context) : Nat := field K.alpha 39 32

/-- TEST.ATST. -/
def Context.atst (K : Context) : Nat := field K.test 3 1

/-- TEST.AREF. -/
def Context.aref (K : Context) : Nat := field K.test 11 4

/-- TEST.AFAIL. -/
def Context.afail (K : Context) : Nat := field K.test 13 12

/-- TEST.ZTST. -/
def Context.ztst (K : Context) : Nat := field K.test 18 17

/-- FRAME.FBP: frame base, pages. -/
def Context.fbp (K : Context) : Nat := field K.frame 8 0

/-- FRAME.FBW: the width of the frame and depth buffers, 64-pixel units. -/
def Context.fbWidth (K : Context) : Nat := field K.frame 21 16

/-- FRAME.PSM: the frame format code. -/
def Context.fbPsm (K : Context) : Nat := field K.frame 29 24

/-- ZBUF.ZBP: depth base, pages. -/
def Context.zbp (K : Context) : Nat := field K.zbuf 8 0

/-- ZBUF.PSM: the low 4 bits of the depth format code. -/
def Context.zPsm4 (K : Context) : Nat := field K.zbuf 27 24

/-- MIPTBP1.TBP1 (no effect). -/
def Context.tbp1 (K : Context) : Nat := field K.miptbp1 13 0

/-- MIPTBP1.TBW1 (no effect). -/
def Context.tbw1 (K : Context) : Nat := field K.miptbp1 19 14

/-- MIPTBP1.TBP2 (no effect). -/
def Context.tbp2 (K : Context) : Nat := field K.miptbp1 33 20

/-- MIPTBP1.TBW2 (no effect). -/
def Context.tbw2 (K : Context) : Nat := field K.miptbp1 39 34

/-- MIPTBP1.TBP3 (no effect). -/
def Context.tbp3 (K : Context) : Nat := field K.miptbp1 53 40

/-- MIPTBP1.TBW3 (no effect). -/
def Context.tbw3 (K : Context) : Nat := field K.miptbp1 59 54

/-- MIPTBP2.TBP4 (no effect). -/
def Context.tbp4 (K : Context) : Nat := field K.miptbp2 13 0

/-- MIPTBP2.TBW4 (no effect). -/
def Context.tbw4 (K : Context) : Nat := field K.miptbp2 19 14

/-- MIPTBP2.TBP5 (no effect). -/
def Context.tbp5 (K : Context) : Nat := field K.miptbp2 33 20

/-- MIPTBP2.TBW5 (no effect). -/
def Context.tbw5 (K : Context) : Nat := field K.miptbp2 39 34

/-- MIPTBP2.TBP6 (no effect). -/
def Context.tbp6 (K : Context) : Nat := field K.miptbp2 53 40

/-- MIPTBP2.TBW6 (no effect). -/
def Context.tbw6 (K : Context) : Nat := field K.miptbp2 59 54

/-- TEX0.TCC: the texel gives the alpha. -/
def Context.tcc (K : Context) : Bool := bit K.tex0 34

/-- TEX0.CSM: CSM2. -/
def Context.csm (K : Context) : Bool := bit K.tex0 55

/-- TEX1.MMAG: bilinear. -/
def Context.mmag (K : Context) : Bool := bit K.tex1 5

/-- TEST.ATE. -/
def Context.ate (K : Context) : Bool := bit K.test 0

/-- TEST.DATE. -/
def Context.date (K : Context) : Bool := bit K.test 14

/-- TEST.DATM. -/
def Context.datm (K : Context) : Bool := bit K.test 15

/-- TEST.ZTE. -/
def Context.zte (K : Context) : Bool := bit K.test 16

/-- FBA.FBA. -/
def Context.fbaBit (K : Context) : Bool := bit K.fba 0

/-- ZBUF.ZMSK: depth is never written. -/
def Context.zMsk (K : Context) : Bool := bit K.zbuf 32

/-- TEX1.K, a signed 7.4 LOD offset (no effect). -/
def Context.lodK (K : Context) : Int := signed 12 (field K.tex1 43 32)

/-- FRAME.FBMSK, on the RGBA32 value: a 1 bit is not written. -/
def Context.fbMsk (K : Context) : BitVec 32 := K.frame.extractLsb' 32 32

/-- The frame buffer's base in blocks (R50). -/
def Context.fbBase (K : Context) : Nat := K.fbp * 32

/-- The depth buffer's base in blocks (R50). -/
def Context.zBase (K : Context) : Nat := K.zbp * 32

/-- The depth format code (R50). -/
def Context.zPsm (K : Context) : Nat := 0x30 ||| K.zPsm4

/-! ## The shared registers -/

/-- TEXA.TA0 (R51). -/
def texaTa0 (v : Word) : Nat := field v 7 0

/-- TEXA.AEM (R51). -/
def texaAem (v : Word) : Bool := bit v 15

/-- TEXA.TA1 (R51). -/
def texaTa1 (v : Word) : Nat := field v 39 32

/-- TEXCLUT.CBW (R47). -/
def texclutCbw (v : Word) : Nat := field v 5 0

/-- TEXCLUT.COU (R47). -/
def texclutCou (v : Word) : Nat := field v 11 6

/-- TEXCLUT.COV (R47). -/
def texclutCov (v : Word) : Nat := field v 21 12

/-- FOGCOL.FCR (R52). -/
def fogcolR (v : Word) : Nat := field v 7 0

/-- FOGCOL.FCG (R52). -/
def fogcolG (v : Word) : Nat := field v 15 8

/-- FOGCOL.FCB (R52). -/
def fogcolB (v : Word) : Nat := field v 23 16

/-- SCANMSK.MSK (R48). -/
def scanmskMsk (v : Word) : Nat := field v 1 0

/-- Element DM_rc of DIMX, a signed 3-bit value (R56). -/
def dimxElem (v : Word) (r c : Nat) : Int := (v.extractLsb' (16 * r + 4 * c) 3).toInt

/-! ## Primitive attributes -/

/-- The attribute bits [10:3] of PRIM and PRMODE (R33, R35). -/
structure Attr where
  iip : Bool
  tme : Bool
  fge : Bool
  abe : Bool
  aa1 : Bool
  fst : Bool
  ctxt : Bool
  fix : Bool
deriving DecidableEq, Repr

/-- The attribute bits of a PRIM or PRMODE value. -/
def attrOf (v : Word) : Attr :=
  ⟨bit v 3, bit v 4, bit v 5, bit v 6, bit v 7, bit v 8, bit v 9, bit v 10⟩

/-- The attributes in force for a primitive (R35): those of PRIM when PRMODECONT.AC = 1, else those of PRMODE. -/
def Regs.attr (rs : Regs) : Attr :=
  if bit (rs.read .prmodecont) 0 then attrOf (rs.read .prim) else attrOf (rs.read .prmode)

/-- The context a primitive with these attributes uses (R11, R314). -/
def Attr.ctxId (a : Attr) : CtxId := if a.ctxt then .ctx2 else .ctx1

/-- The primitive types (R312); codes 6 and 7 are both a sprite (90_conflicts.md C6). -/
inductive PrimType where
  | point | line | lineStrip | triangle | triStrip | triFan | sprite
deriving DecidableEq, Repr

/-- The primitive type of a PRIM.PRIM code (R312). -/
def PrimType.ofCode : Nat → PrimType
  | 0 => .point
  | 1 => .line
  | 2 => .lineStrip
  | 3 => .triangle
  | 4 => .triStrip
  | 5 => .triFan
  | _ => .sprite

/-- The primitive type in force, always that of PRIM (R35). -/
def Regs.primType (rs : Regs) : PrimType := PrimType.ofCode (field (rs.read .prim) 2 0)

/-- The vertex count of a primitive type (R312). -/
def PrimType.count : PrimType → Nat
  | .point => 1
  | .line | .lineStrip | .sprite => 2
  | .triangle | .triStrip | .triFan => 3

/-! ## Pixel storage formats -/

/-- The pixel storage formats (R186). -/
inductive Psm where
  | ct32 | ct24 | ct16 | ct16s | t8 | t4 | t8h | t4hl | t4hh | z32 | z24 | z16 | z16s
deriving DecidableEq, Repr

/-- The format of a 6-bit code: all 13 are texture codes and transfer codes (R186). -/
def Psm.ofCode : Nat → Option Psm
  | 0x00 => some .ct32
  | 0x01 => some .ct24
  | 0x02 => some .ct16
  | 0x0A => some .ct16s
  | 0x13 => some .t8
  | 0x14 => some .t4
  | 0x1B => some .t8h
  | 0x24 => some .t4hl
  | 0x2C => some .t4hh
  | 0x30 => some .z32
  | 0x31 => some .z24
  | 0x32 => some .z16
  | 0x3A => some .z16s
  | _ => none

/-- The indexed formats (R404). -/
def Psm.indexed : Psm → Bool
  | .t8 | .t4 | .t8h | .t4hl | .t4hh => true
  | _ => false

/-- The format of a frame code (R59, R186): every format but the indexed ones. -/
def frameFormat? (code : Nat) : Option Psm := (Psm.ofCode code).filter (fun p => !p.indexed)

/-- The format of a depth code (R60, R186). -/
def depthFormat? (code : Nat) : Option Psm :=
  match code with
  | 0x30 => some .z32
  | 0x31 => some .z24
  | 0x32 => some .z16
  | 0x3A => some .z16s
  | _ => none

/-- The CLUT format of a CPSM code (R42, R186). -/
def clutFormat? : Nat → Option Psm
  | 0x0 => some .ct32
  | 0x2 => some .ct16
  | 0xA => some .ct16s
  | _ => none

/-- The bits of a pixel (R130). -/
def Psm.bits : Psm → Nat
  | .ct32 | .z32 => 32
  | .ct24 | .z24 => 24
  | .ct16 | .ct16s | .z16 | .z16s => 16
  | .t8 | .t8h => 8
  | .t4 | .t4hl | .t4hh => 4

/-- The bits of the access element (R130). -/
def Psm.elem : Psm → Nat
  | .ct32 | .ct24 | .z32 | .z24 | .t8h | .t4hl | .t4hh => 32
  | .ct16 | .ct16s | .z16 | .z16s => 16
  | .t8 => 8
  | .t4 => 4

/-- The lowest bit of the access element that the pixel uses (R122, R130). -/
def Psm.low : Psm → Nat
  | .t8h | .t4hl => 24
  | .t4hh => 28
  | _ => 0

end Sys2Proof.Machine
end

