-- ==== Sys2Proof/Machine/Ops.lean ====
section
/-! DEFINITION. The named operations over VRAM, the dirty set, the register bank, the queue of commands, and the
outcomes every command shares: refusing, sending an event, returning a value, resetting. The block takes no
exception (R520); a refusal and an event are what it has instead. -/

namespace Sys2Proof.Machine

/-! ## Bytes and words of VRAM -/

/-- The byte of VRAM at a byte address. -/
def Memory.readByte : Memory → Nat → Byte
  | [], _ => Memory.unlisted
  | (b, v) :: m, a => if a = b then v else Memory.readByte m a

/-- The list without the byte at an address. -/
def Memory.unlist (m : Memory) (a : Nat) : Memory := m.filter (fun c => c.1 != a)

/-- The list with a byte put at its place among rising addresses. -/
def Memory.listByte : Memory → Nat → Byte → Memory
  | [], a, v => [(a, v)]
  | (b, w) :: m, a, v =>
    if a < b then (a, v) :: (b, w) :: m
    else if a = b then (a, v) :: m
    else (b, w) :: Memory.listByte m a v

/-- VRAM with one byte replaced, in the canonical form: a byte equal to what an unlisted address reads as is not
listed. -/
def Memory.writeByte (m : Memory) (a : Nat) (v : Byte) : Memory :=
  if v = Memory.unlisted then m.unlist a else m.listByte a v

/-- The word of VRAM at a word address, its bytes little-endian (R100, R102; log entry 10). -/
def Memory.readWord (m : Memory) (w : Nat) : VWord :=
  m.readByte (4 * w + 3) ++ m.readByte (4 * w + 2) ++ m.readByte (4 * w + 1) ++ m.readByte (4 * w)

/-- VRAM with one word replaced. -/
def Memory.writeWord (m : Memory) (w : Nat) (v : VWord) : Memory :=
  (((m.writeByte (4 * w) (v.extractLsb' 0 8)).writeByte (4 * w + 1) (v.extractLsb' 8 8)).writeByte
    (4 * w + 2) (v.extractLsb' 16 8)).writeByte (4 * w + 3) (v.extractLsb' 24 8)

/-! ## Elements of VRAM -/

/-- The word of VRAM whose low n bits are 1. -/
def lowMask (n : Nat) : VWord := BitVec.ofNat 32 (2 ^ n - 1)

/-- How many n-bit elements VRAM has (R101). -/
def elemCount (n : Nat) : Nat := 2 ^ 20 * (32 / n)

/-- The word address of the n-bit element with index a, the index reduced to VRAM first (R102, R103). -/
def elemWord (a n : Nat) : Nat := a % elemCount n / (32 / n)

/-- The lowest bit of that element in its word (R102). -/
def elemShift (a n : Nat) : Nat := a % (32 / n) * n

/-- The n-bit element with index a: `MemRead(a, n)` (R19, R102). -/
def Memory.readElem (m : Memory) (a n : Nat) : VWord :=
  (m.readWord (elemWord a n) >>> elemShift a n) &&& lowMask n

/-- A word with the n bits from bit s replaced by the low n bits of v. -/
def insertBits (w : VWord) (s n : Nat) (v : VWord) : VWord :=
  (w &&& ~~~(lowMask n <<< s)) ||| ((v &&& lowMask n) <<< s)

/-- VRAM with one n-bit element replaced: `MemWrite(a, n, v)` (R19, R102). -/
def Memory.writeElem (m : Memory) (a n : Nat) (v : VWord) : Memory :=
  m.writeWord (elemWord a n) (insertBits (m.readWord (elemWord a n)) (elemShift a n) n v)

/-! ## The dirty set and free values -/

/-- A set of word addresses, held as a strictly rising list, with one more member. -/
def insertDirty (w : Nat) : List Nat → List Nat
  | [] => [w]
  | b :: t => if w < b then w :: b :: t else if w = b then b :: t else b :: insertDirty w t

/-- The local memory after one free value has been used (log entry 4). -/
def LocalMem.useFree (lm : LocalMem) : LocalMem := { lm with free := lm.free + 1 }

/-! ## Registers -/

/-- The value of a register: `reg[NAME]` (R18). -/
def State.reg (s : State) (r : RegName) : Word := s.regs.read r

/-- The state with a register replaced: `reg[NAME] <- v` (R18, R221). -/
def State.setReg (s : State) (r : RegName) (v : Word) : State := { s with regs := s.regs.write r v }

/-- The bits of `old` kept where the mask is 0 and those of `new` taken where it is 1. -/
def mergeBits {n : Nat} (old new mask : BitVec n) : BitVec n := (old &&& ~~~mask) ||| (new &&& mask)

/-! ## Outcomes a command shares -/

/-- `refuse(reason)` (R20, R522): the refusal mark is set, for good, and the reason noted (log entry 5). -/
def State.refuse (s : State) (r : RefuseReason) : State :=
  { s with refused := true, reasons := s.reasons ++ [r] }

/-- `emit GsIrq(source)` (R20, R530): the event is appended to `out`. -/
def State.emit (s : State) (src : IrqSource) : State := { s with out := s.out ++ [.gsIrq src] }

/-- A value returned to the host (R184; log entry 9). -/
def State.reply (s : State) (v : Word) : State := { s with replies := s.replies ++ [v] }

/-- A read that returns `any` (R190, R191, R500): the value returned is free (log entry 4). -/
def State.replyAny (s : State) : State := { s.reply (Config.freeWord s.lm.free) with lm := s.lm.useFree }

/-- The state with the transfer cursor replaced (R75). -/
def State.setXfer (s : State) (x : Option TransferCursor) : State := { s with xfer := x }

/-- `gsReset()` (R562): the reset of R560, but VRAM, `out` and `refused` are kept. The parameters are no state of the
block, and the model's own fields are kept too (log entry 13). The slots of the queue keep their unobservable
contents (R74). -/
def State.gsReset (s : State) : State :=
  { s with
    regs := Regs.reset
    vq := { s.vq with k := 0 }
    xfer := none
    lm := { s.lm with dirty := [] }
    csr := Csr.reset
    sig := 0#64 }

/-! ## The command queue -/

/-- The next command the host has issued and the state with it taken, if there is one (R180, R561; log entry 1). -/
def State.nextCmd (s : State) : Option (CmdWord × State) :=
  match s.cmds with
  | [] => none
  | w :: rest => some (w, { s with cmds := rest })

/-- What a command that decodes to no instruction does: a reserved command is refused (R192, R522), a write that
names no register is ignored (R190, R191, R523). -/
def State.rejectCmd (s : State) : DecodeReject → State
  | .badCommand => s.refuse .badCommand
  | .noSuchRegister => s

end Sys2Proof.Machine
end

