-- ==== Sys2Proof/Machine/ContextRegs.lean ====
section
/-! DEFINITION. The registers of the two drawing contexts (R231 to R243). -/

namespace Sys2Proof.Machine

/-- The bits of TEX0 that a TEX2 write replaces: M of R232. -/
def tex2Mask : Word := 0xFFFFFFE003F00000#64

/-- `W_TEX0_1`: DATA is stored in the raw bank (R231, R221). -/
def execWTex0_1 (d : Word) (s : State) : Host.Outcome State Fault Refusal := .next (s.setReg .tex0_1 d)

/-- `W_TEX0_2`: DATA is stored in the raw bank (R231, R221). -/
def execWTex0_2 (d : Word) (s : State) : Host.Outcome State Fault Refusal := .next (s.setReg .tex0_2 d)

/-- `W_TEX2_1`: DATA is stored and its format and CLUT fields are merged into TEX0_1 (R232). -/
def execWTex2_1 (d : Word) (s : State) : Host.Outcome State Fault Refusal :=
  .next ((s.setReg .tex2_1 d).setReg .tex0_1 (mergeBits (s.reg .tex0_1) d tex2Mask))

/-- `W_TEX2_2`: DATA is stored and its format and CLUT fields are merged into TEX0_2 (R233). -/
def execWTex2_2 (d : Word) (s : State) : Host.Outcome State Fault Refusal :=
  .next ((s.setReg .tex2_2 d).setReg .tex0_2 (mergeBits (s.reg .tex0_2) d tex2Mask))

/-- `W_CLAMP_1`: DATA is stored in the raw bank (R234, R221). -/
def execWClamp_1 (d : Word) (s : State) : Host.Outcome State Fault Refusal := .next (s.setReg .clamp_1 d)

/-- `W_CLAMP_2`: DATA is stored in the raw bank (R234, R221). -/
def execWClamp_2 (d : Word) (s : State) : Host.Outcome State Fault Refusal := .next (s.setReg .clamp_2 d)

/-- `W_TEX1_1`: DATA is stored in the raw bank (R235, R221). -/
def execWTex1_1 (d : Word) (s : State) : Host.Outcome State Fault Refusal := .next (s.setReg .tex1_1 d)

/-- `W_TEX1_2`: DATA is stored in the raw bank (R235, R221). -/
def execWTex1_2 (d : Word) (s : State) : Host.Outcome State Fault Refusal := .next (s.setReg .tex1_2 d)

/-- `W_XYOFFSET_1`: DATA is stored in the raw bank (R236, R221). -/
def execWXyoffset_1 (d : Word) (s : State) : Host.Outcome State Fault Refusal := .next (s.setReg .xyoffset_1 d)

/-- `W_XYOFFSET_2`: DATA is stored in the raw bank (R236, R221). -/
def execWXyoffset_2 (d : Word) (s : State) : Host.Outcome State Fault Refusal := .next (s.setReg .xyoffset_2 d)

/-- `W_SCISSOR_1`: DATA is stored in the raw bank (R237, R221). -/
def execWScissor_1 (d : Word) (s : State) : Host.Outcome State Fault Refusal := .next (s.setReg .scissor_1 d)

/-- `W_SCISSOR_2`: DATA is stored in the raw bank (R237, R221). -/
def execWScissor_2 (d : Word) (s : State) : Host.Outcome State Fault Refusal := .next (s.setReg .scissor_2 d)

/-- `W_ALPHA_1`: DATA is stored in the raw bank (R238, R221). -/
def execWAlpha_1 (d : Word) (s : State) : Host.Outcome State Fault Refusal := .next (s.setReg .alpha_1 d)

/-- `W_ALPHA_2`: DATA is stored in the raw bank (R238, R221). -/
def execWAlpha_2 (d : Word) (s : State) : Host.Outcome State Fault Refusal := .next (s.setReg .alpha_2 d)

/-- `W_TEST_1`: DATA is stored in the raw bank (R239, R221). -/
def execWTest_1 (d : Word) (s : State) : Host.Outcome State Fault Refusal := .next (s.setReg .test_1 d)

/-- `W_TEST_2`: DATA is stored in the raw bank (R239, R221). -/
def execWTest_2 (d : Word) (s : State) : Host.Outcome State Fault Refusal := .next (s.setReg .test_2 d)

/-- `W_FBA_1`: DATA is stored in the raw bank (R240, R221). -/
def execWFba_1 (d : Word) (s : State) : Host.Outcome State Fault Refusal := .next (s.setReg .fba_1 d)

/-- `W_FBA_2`: DATA is stored in the raw bank (R240, R221). -/
def execWFba_2 (d : Word) (s : State) : Host.Outcome State Fault Refusal := .next (s.setReg .fba_2 d)

/-- `W_FRAME_1`: DATA is stored in the raw bank (R241, R221). -/
def execWFrame_1 (d : Word) (s : State) : Host.Outcome State Fault Refusal := .next (s.setReg .frame_1 d)

/-- `W_FRAME_2`: DATA is stored in the raw bank (R241, R221). -/
def execWFrame_2 (d : Word) (s : State) : Host.Outcome State Fault Refusal := .next (s.setReg .frame_2 d)

/-- `W_ZBUF_1`: DATA is stored in the raw bank (R242, R221). -/
def execWZbuf_1 (d : Word) (s : State) : Host.Outcome State Fault Refusal := .next (s.setReg .zbuf_1 d)

/-- `W_ZBUF_2`: DATA is stored in the raw bank (R242, R221). -/
def execWZbuf_2 (d : Word) (s : State) : Host.Outcome State Fault Refusal := .next (s.setReg .zbuf_2 d)

/-- `W_MIPTBP1_1`: DATA is stored in the raw bank (R243, R221). -/
def execWMiptbp1_1 (d : Word) (s : State) : Host.Outcome State Fault Refusal := .next (s.setReg .miptbp1_1 d)

/-- `W_MIPTBP1_2`: DATA is stored in the raw bank (R243, R221). -/
def execWMiptbp1_2 (d : Word) (s : State) : Host.Outcome State Fault Refusal := .next (s.setReg .miptbp1_2 d)

/-- `W_MIPTBP2_1`: DATA is stored in the raw bank (R243, R221). -/
def execWMiptbp2_1 (d : Word) (s : State) : Host.Outcome State Fault Refusal := .next (s.setReg .miptbp2_1 d)

/-- `W_MIPTBP2_2`: DATA is stored in the raw bank (R243, R221). -/
def execWMiptbp2_2 (d : Word) (s : State) : Host.Outcome State Fault Refusal := .next (s.setReg .miptbp2_2 d)

end Sys2Proof.Machine
end

