-- ==== Sys2Proof/Machine/Flags.lean ====
section
/-! DEFINITION. The status flags: CSR as it reads, what sets and clears its bits, and the interrupt mask test. The
block has no condition codes (R72); its only flags are these. -/

namespace Sys2Proof.Machine

/-- A flag as bit i of a register. -/
def flagBit (b : Bool) (i : Nat) : Word := (BitVec.ofBool b).setWidth 64 <<< i

/-- CSR as a read computes it (R68, R306): the status bits, FIELD, FIFO = 0b01, REV and ID; every other bit 0. -/
def csrValue (csr : Csr) (cfg : Config) : Word :=
  flagBit csr.signal 0 ||| flagBit csr.finish 1 ||| flagBit csr.hsint 2 ||| flagBit csr.vsint 3 |||
    flagBit csr.edwint 4 ||| flagBit csr.field 13 ||| flagBit true 14 |||
    (cfg.csrRev.setWidth 64 <<< 16) ||| (cfg.csrId.setWidth 64 <<< 24)

/-- CSR with the status bits written as 1 cleared (R300); FIELD is read only. -/
def csrClear (csr : Csr) (d : Word) : Csr :=
  { signal := csr.signal && !bit d 0
    finish := csr.finish && !bit d 1
    hsint := csr.hsint && !bit d 2
    vsint := csr.vsint && !bit d 3
    edwint := csr.edwint && !bit d 4
    field := csr.field }

/-- CSR with the status bit of a source set (R530). -/
def csrSet (csr : Csr) : IrqSource → Csr
  | .signal => { csr with signal := true }
  | .finish => { csr with finish := true }
  | .hsint => { csr with hsint := true }
  | .vsint => { csr with vsint := true }

/-- The IMR mask bit of a source (R69, R530). -/
def imrMaskBit : IrqSource → Nat
  | .signal => 8
  | .finish => 9
  | .hsint => 10
  | .vsint => 11

/-- An occurrence of an interrupt source (R530, R531): its status bit is set, and its event is sent when its mask bit
is 0, whether or not the status bit was set already. -/
def State.raise (s : State) (src : IrqSource) : State :=
  let t := { s with csr := csrSet s.csr src }
  if bit (s.reg .imr) (imrMaskBit src) then t else t.emit src

end Sys2Proof.Machine
end

