-- ==== Sys2Proof/Machine/Events.lean ====
section
/-! DEFINITION. The timing events (R540 to R542). -/

namespace Sys2Proof.Machine

/-- `EV_VBLANK_IN`: VSINT is set, FIELD flips and the interrupt is sent unless masked (R540). -/
def execEvVblankIn (s : State) : Host.Outcome State Fault Refusal :=
  .next ({ s with csr := { s.csr with field := !s.csr.field } }.raise .vsint)

/-- `EV_VBLANK_OUT`: nothing changes (R542). -/
def execEvVblankOut (s : State) : Host.Outcome State Fault Refusal := .next s

/-- `EV_HBLANK`: HSINT is set and the interrupt sent unless masked (R541). -/
def execEvHblank (s : State) : Host.Outcome State Fault Refusal := .next (s.raise .hsint)

end Sys2Proof.Machine
end

