-- ==== Sys2Proof/Machine/PrivRegs.lean ====
section
/-! DEFINITION. The privileged register writes (R260 to R273, R300 to R303). -/

namespace Sys2Proof.Machine

/-- `PW_PMODE`: DATA is stored in the raw bank (R260). -/
def execPwPmode (d : Word) (s : State) : Host.Outcome State Fault Refusal := .next (s.setReg .pmode d)

/-- `PW_SMODE1`: DATA is stored in the raw bank (R261). -/
def execPwSmode1 (d : Word) (s : State) : Host.Outcome State Fault Refusal := .next (s.setReg .smode1 d)

/-- `PW_SMODE2`: DATA is stored in the raw bank (R262). -/
def execPwSmode2 (d : Word) (s : State) : Host.Outcome State Fault Refusal := .next (s.setReg .smode2 d)

/-- `PW_SRFSH`: DATA is stored in the raw bank (R263). -/
def execPwSrfsh (d : Word) (s : State) : Host.Outcome State Fault Refusal := .next (s.setReg .srfsh d)

/-- `PW_SYNCH1`: DATA is stored in the raw bank (R264). -/
def execPwSynch1 (d : Word) (s : State) : Host.Outcome State Fault Refusal := .next (s.setReg .synch1 d)

/-- `PW_SYNCH2`: DATA is stored in the raw bank (R266). -/
def execPwSynch2 (d : Word) (s : State) : Host.Outcome State Fault Refusal := .next (s.setReg .synch2 d)

/-- `PW_SYNCV`: DATA is stored in the raw bank (R267). -/
def execPwSyncv (d : Word) (s : State) : Host.Outcome State Fault Refusal := .next (s.setReg .syncv d)

/-- `PW_DISPFB1`: DATA is stored in the raw bank (R268). -/
def execPwDispfb1 (d : Word) (s : State) : Host.Outcome State Fault Refusal := .next (s.setReg .dispfb1 d)

/-- `PW_DISPLAY1`: DATA is stored in the raw bank (R269). -/
def execPwDisplay1 (d : Word) (s : State) : Host.Outcome State Fault Refusal := .next (s.setReg .display1 d)

/-- `PW_DISPFB2`: DATA is stored in the raw bank (R268). -/
def execPwDispfb2 (d : Word) (s : State) : Host.Outcome State Fault Refusal := .next (s.setReg .dispfb2 d)

/-- `PW_DISPLAY2`: DATA is stored in the raw bank (R269). -/
def execPwDisplay2 (d : Word) (s : State) : Host.Outcome State Fault Refusal := .next (s.setReg .display2 d)

/-- `PW_EXTBUF`: DATA is stored in the raw bank (R270). -/
def execPwExtbuf (d : Word) (s : State) : Host.Outcome State Fault Refusal := .next (s.setReg .extbuf d)

/-- `PW_EXTDATA`: DATA is stored in the raw bank (R271). -/
def execPwExtdata (d : Word) (s : State) : Host.Outcome State Fault Refusal := .next (s.setReg .extdata d)

/-- `PW_EXTWRITE`: DATA is stored in the raw bank (R272). -/
def execPwExtwrite (d : Word) (s : State) : Host.Outcome State Fault Refusal := .next (s.setReg .extwrite d)

/-- `PW_BGCOLOR`: DATA is stored in the raw bank (R273). -/
def execPwBgcolor (d : Word) (s : State) : Host.Outcome State Fault Refusal := .next (s.setReg .bgcolor d)

/-- `PW_CSR`: the status bits written as 1 are cleared and, when RESET [9] is 1, the block is reset; FLUSH [8] has no effect (R300). -/
def execPwCsr (d : Word) (s : State) : Host.Outcome State Fault Refusal :=
  let t := { s with csr := csrClear s.csr d }
  .next (if bit d 9 then t.gsReset else t)

/-- `PW_IMR`: DATA is stored in the raw bank (R301). -/
def execPwImr (d : Word) (s : State) : Host.Outcome State Fault Refusal := .next (s.setReg .imr d)

/-- `PW_BUSDIR`: DATA is stored in the raw bank (R302). -/
def execPwBusdir (d : Word) (s : State) : Host.Outcome State Fault Refusal := .next (s.setReg .busdir d)

/-- `PW_SIGLBLID`: both IDs are set, without a mask (R303). -/
def execPwSiglblid (d : Word) (s : State) : Host.Outcome State Fault Refusal :=
  .next { s with sig := d }

end Sys2Proof.Machine
end

