-- ==== Sys2Proof/Machine/Reads.lean ====
section
/-! DEFINITION. The register reads (R290, R306). -/

namespace Sys2Proof.Machine

/-- `R_GENERAL`: the raw value of a named general register is returned, `any` for another address (R190, R290; log
entry 7). -/
def execRGeneral (addr : BitVec 32) (s : State) : Host.Outcome State Fault Refusal :=
  match generalReg? addr with
  | some r => .next (s.reply (s.reg r))
  | none => .next s.replyAny

/-- `R_PRIV`: CSR is computed, SIGLBLID and every stored register returned, `any` for another address (R191, R306). -/
def execRPriv (addr : BitVec 32) (s : State) : Host.Outcome State Fault Refusal :=
  if addr = csrAddr then .next (s.reply (csrValue s.csr s.cfg))
  else if addr = siglblidAddr then .next (s.reply s.sig)
  else
    match privReg? addr with
    | some r => .next (s.reply (s.reg r))
    | none => .next s.replyAny

end Sys2Proof.Machine
end

