-- ==== Sys2Proof/Machine/SharedRegs.lean ====
section
/-! DEFINITION. The drawing registers both contexts share (R244 to R255). -/

namespace Sys2Proof.Machine

/-- `W_PRMODECONT`: DATA is stored in the raw bank (R244, R221). -/
def execWPrmodecont (d : Word) (s : State) : Host.Outcome State Fault Refusal := .next (s.setReg .prmodecont d)

/-- `W_PRMODE`: DATA is stored in the raw bank (R245, R221). -/
def execWPrmode (d : Word) (s : State) : Host.Outcome State Fault Refusal := .next (s.setReg .prmode d)

/-- `W_TEXCLUT`: DATA is stored in the raw bank (R246, R221). -/
def execWTexclut (d : Word) (s : State) : Host.Outcome State Fault Refusal := .next (s.setReg .texclut d)

/-- `W_SCANMSK`: DATA is stored in the raw bank (R247, R221). -/
def execWScanmsk (d : Word) (s : State) : Host.Outcome State Fault Refusal := .next (s.setReg .scanmsk d)

/-- `W_TEXA`: DATA is stored in the raw bank (R248, R221). -/
def execWTexa (d : Word) (s : State) : Host.Outcome State Fault Refusal := .next (s.setReg .texa d)

/-- `W_FOGCOL`: DATA is stored in the raw bank (R249, R221). -/
def execWFogcol (d : Word) (s : State) : Host.Outcome State Fault Refusal := .next (s.setReg .fogcol d)

/-- `W_TEXFLUSH`: DATA is stored and the dirty set is emptied (R255). -/
def execWTexflush (d : Word) (s : State) : Host.Outcome State Fault Refusal :=
  .next { s.setReg .texflush d with lm := { s.lm with dirty := [] } }

/-- `W_DIMX`: DATA is stored in the raw bank (R250, R221). -/
def execWDimx (d : Word) (s : State) : Host.Outcome State Fault Refusal := .next (s.setReg .dimx d)

/-- `W_DTHE`: DATA is stored in the raw bank (R251, R221). -/
def execWDthe (d : Word) (s : State) : Host.Outcome State Fault Refusal := .next (s.setReg .dthe d)

/-- `W_COLCLAMP`: DATA is stored in the raw bank (R252, R221). -/
def execWColclamp (d : Word) (s : State) : Host.Outcome State Fault Refusal := .next (s.setReg .colclamp d)

/-- `W_PABE`: DATA is stored in the raw bank (R253, R221). -/
def execWPabe (d : Word) (s : State) : Host.Outcome State Fault Refusal := .next (s.setReg .pabe d)

end Sys2Proof.Machine
end

