-- ==== Sys2Proof/Machine/SyncRegs.lean ====
section
/-! DEFINITION. The synchronisation registers (R280 to R282). -/

namespace Sys2Proof.Machine

/-- The ID of a SIGNAL or LABEL write (R66). -/
def sigId (d : Word) : BitVec 32 := d.extractLsb' 0 32

/-- The IDMSK of a SIGNAL or LABEL write (R66). -/
def sigIdMask (d : Word) : BitVec 32 := d.extractLsb' 32 32

/-- SIGLBLID with its SIGID updated under a mask (R280). -/
def mergeSigId (sig : Word) (id m : BitVec 32) : Word :=
  sig.extractLsb' 32 32 ++ mergeBits (sig.extractLsb' 0 32) id m

/-- SIGLBLID with its LBLID updated under a mask (R282). -/
def mergeLblId (sig : Word) (id m : BitVec 32) : Word :=
  mergeBits (sig.extractLsb' 32 32) id m ++ sig.extractLsb' 0 32

/-- `W_SIGNAL`: DATA is stored, SIGID updated under IDMSK, CSR.SIGNAL set and the interrupt sent unless masked (R280). -/
def execWSignal (d : Word) (s : State) : Host.Outcome State Fault Refusal :=
  .next ({ s.setReg .signal d with sig := mergeSigId s.sig (sigId d) (sigIdMask d) }.raise .signal)

/-- `W_FINISH`: DATA is stored, CSR.FINISH set and the interrupt sent unless masked (R281). -/
def execWFinish (d : Word) (s : State) : Host.Outcome State Fault Refusal :=
  .next ((s.setReg .finish d).raise .finish)

/-- `W_LABEL`: DATA is stored and LBLID updated under IDMSK (R282). -/
def execWLabel (d : Word) (s : State) : Host.Outcome State Fault Refusal :=
  .next { s.setReg .label d with sig := mergeLblId s.sig (sigId d) (sigIdMask d) }

end Sys2Proof.Machine
end

