-- ==== Sys2Proof/Machine/Swizzle.lean ====
section
/-! DEFINITION. The address swizzler (R110 to R124) and the raw pixel access of every storage format (R130 to R132). -/

namespace Sys2Proof.Machine

/-! ## Block tables, as the closed forms of R113 -/

/-- Bit i of a coordinate. -/
def coordBit (n i : Nat) : Nat := n / 2 ^ i % 2

/-- BT32[by][bx] (R113). -/
def blockTable32 (by' bx : Nat) : Nat :=
  coordBit bx 0 + 2 * coordBit by' 0 + 4 * coordBit bx 1 + 8 * coordBit by' 1 + 16 * coordBit bx 2

/-- BT16[by][bx] (R113). -/
def blockTable16 (by' bx : Nat) : Nat :=
  coordBit by' 0 + 2 * coordBit bx 0 + 4 * coordBit by' 1 + 8 * coordBit bx 1 + 16 * coordBit by' 2

/-- BT16S[by][bx] (R113). -/
def blockTable16S (by' bx : Nat) : Nat :=
  coordBit by' 0 + 2 * coordBit bx 0 + 4 * coordBit by' 2 + 8 * coordBit by' 1 + 16 * coordBit bx 1

/-! ## Column tables, as the closed forms of R114 -/

/-- `p(r, g)` (R114). -/
def colPattern (r g : Nat) : Nat := coordBit g 0 + 2 * r + 4 * coordBit g 1 + 8 * coordBit g 2

/-- COL32[y][x] (R114). -/
def colTable32 (y x : Nat) : Nat := y / 2 % 4 * 16 + colPattern (y % 2) (x % 8)

/-- COL16[y][x] (R114). -/
def colTable16 (y x : Nat) : Nat := 2 * colTable32 y (x % 8) + x / 8 % 2

/-- The word of a column of an 8-bit or 4-bit block: w of R114, with c the column and r the row in it. -/
def colWord (c r x : Nat) : Nat :=
  c * 16 + colPattern (r % 2) (x % 8 ^^^ 4 * (c % 2 ^^^ r / 2))

/-- COL8[y][x] (R114). -/
def colTable8 (y x : Nat) : Nat := 4 * colWord (y / 4 % 4) (y % 4) x + 2 * (x / 8 % 2) + y % 4 / 2

/-- COL4[y][x] (R114). -/
def colTable4 (y x : Nat) : Nat := 8 * colWord (y / 4 % 4) (y % 4) x + 2 * (x / 8 % 4) + y % 4 / 2

/-! ## Geometry of the formats (R111) -/

/-- Page width in pixels. -/
def Psm.pageW : Psm → Nat
  | .t8 | .t4 => 128
  | _ => 64

/-- Page height in pixels. -/
def Psm.pageH : Psm → Nat
  | .ct32 | .ct24 | .t8h | .t4hl | .t4hh | .z32 | .z24 => 32
  | .ct16 | .ct16s | .z16 | .z16s | .t8 => 64
  | .t4 => 128

/-- Block width in pixels. -/
def Psm.blockW : Psm → Nat
  | .ct32 | .ct24 | .t8h | .t4hl | .t4hh | .z32 | .z24 => 8
  | .ct16 | .ct16s | .z16 | .z16s | .t8 => 16
  | .t4 => 32

/-- Block height in pixels. -/
def Psm.blockH : Psm → Nat
  | .t8 | .t4 => 16
  | _ => 8

/-- The block number in the page, `BT[by][bx]`, exclusive-ORed with 0x18 for the depth formats. -/
def Psm.block (p : Psm) (by' bx : Nat) : Nat :=
  match p with
  | .ct32 | .ct24 | .t8h | .t4hl | .t4hh | .t8 => blockTable32 by' bx
  | .z32 | .z24 => blockTable32 by' bx ^^^ 0x18
  | .ct16 | .t4 => blockTable16 by' bx
  | .ct16s => blockTable16S by' bx
  | .z16 => blockTable16 by' bx ^^^ 0x18
  | .z16s => blockTable16S by' bx ^^^ 0x18

/-- The element index in the block, `COL[y][x]`. -/
def Psm.column (p : Psm) (y x : Nat) : Nat :=
  match p with
  | .ct32 | .ct24 | .t8h | .t4hl | .t4hh | .z32 | .z24 => colTable32 y x
  | .ct16 | .ct16s | .z16 | .z16s => colTable16 y x
  | .t8 => colTable8 y x
  | .t4 => colTable4 y x

/-! ## The swizzle -/

/-- The page of a pixel, counted from the buffer's base (R112, R124). -/
def Psm.page (p : Psm) (bw x y : Nat) : Nat := y / p.pageH * (bw * 64 / p.pageW) + x / p.pageW

/-- The block of a pixel in its page (R112). -/
def Psm.blockOf (p : Psm) (x y : Nat) : Nat := p.block (y % p.pageH / p.blockH) (x % p.pageW / p.blockW)

/-- The element of a pixel in its block (R112). -/
def Psm.elemOf (p : Psm) (x y : Nat) : Nat := p.column (y % p.blockH) (x % p.blockW)

/-- `swz_psm(bp, bw, x, y)`: the element index of a pixel (R110, R112). -/
def Psm.swz (p : Psm) (bp bw x y : Nat) : Nat :=
  ((bp + p.page bw x y * 32 + p.blockOf x y) * (2048 / p.elem) + p.elemOf x y) % elemCount p.elem

/-! ## Raw pixel access -/

/-- The word address of a pixel. -/
def Psm.wordAt (p : Psm) (bp bw x y : Nat) : Nat := elemWord (p.swz bp bw x y) p.elem

/-- The lowest bit of a pixel in its word. -/
def Psm.bitAt (p : Psm) (bp bw x y : Nat) : Nat := elemShift (p.swz bp bw x y) p.elem + p.low

/-- `readRaw(psm, bp, bw, x, y)`: the bits of a pixel (R131). -/
def Memory.readRaw (m : Memory) (p : Psm) (bp bw x y : Nat) : VWord :=
  (m.readElem (p.swz bp bw x y) p.elem >>> p.low) &&& lowMask p.bits

/-- `writeRaw(psm, bp, bw, x, y, v)`: VRAM with the bits of a pixel replaced (R104, R132). -/
def Memory.writeRaw (m : Memory) (p : Psm) (bp bw x y : Nat) (v : VWord) : Memory :=
  let a := p.swz bp bw x y
  m.writeElem a p.elem (insertBits (m.readElem a p.elem) p.low p.bits v)

/-- The local memory after a pixel write by drawing or by a transfer: its word becomes dirty (R575). -/
def LocalMem.writePixel (lm : LocalMem) (p : Psm) (bp bw x y : Nat) (v : VWord) : LocalMem :=
  { lm with vram := lm.vram.writeRaw p bp bw x y v, dirty := insertDirty (p.wordAt bp bw x y) lm.dirty }

end Sys2Proof.Machine
end

