-- ==== Sys2Proof/Machine/Transfer.lean ====
section
/-! DEFINITION. The local-memory transfer engine (R480 to R512). -/

namespace Sys2Proof.Machine

/-! ## The registers of a transfer (R61 to R64) -/

/-- BITBLTBUF.SBP. -/
def bltSbp (v : Word) : Nat := field v 13 0

/-- BITBLTBUF.SBW. -/
def bltSbw (v : Word) : Nat := field v 21 16

/-- BITBLTBUF.SPSM. -/
def bltSpsm (v : Word) : Nat := field v 29 24

/-- BITBLTBUF.DBP. -/
def bltDbp (v : Word) : Nat := field v 45 32

/-- BITBLTBUF.DBW. -/
def bltDbw (v : Word) : Nat := field v 53 48

/-- BITBLTBUF.DPSM. -/
def bltDpsm (v : Word) : Nat := field v 61 56

/-- TRXPOS.SSAX. -/
def posSsax (v : Word) : Nat := field v 10 0

/-- TRXPOS.SSAY. -/
def posSsay (v : Word) : Nat := field v 26 16

/-- TRXPOS.DSAX. -/
def posDsax (v : Word) : Nat := field v 42 32

/-- TRXPOS.DSAY. -/
def posDsay (v : Word) : Nat := field v 58 48

/-- TRXPOS.DIR (no effect, R62). -/
def posDir (v : Word) : Nat := field v 60 59

/-- TRXREG.RRW. -/
def regRrw (v : Word) : Nat := field v 11 0

/-- TRXREG.RRH. -/
def regRrh (v : Word) : Nat := field v 43 32

/-- TRXDIR.XDIR. -/
def dirXdir (v : Word) : Nat := field v 1 0

/-- A window coordinate: origin plus offset, wrapped at 2048 (R485). -/
def windowCoord (origin c : Nat) : Nat := (origin + c) % 2048

/-- The cursor a TRXDIR write leaves: the registers latched, at the window's first pixel (R481). -/
def latchCursor (dir : TransferDir) (b p g : Word) : TransferCursor :=
  { dir := dir
    sbp := bltSbp b, sbw := bltSbw b, spsm := bltSpsm b, dbp := bltDbp b, dbw := bltDbw b, dpsm := bltDpsm b
    ssax := posSsax p, ssay := posSsay p, dsax := posDsax p, dsay := posDsay p
    rrw := regRrw g, rrh := regRrh g
    cx := 0, cy := 0, carry := [] }

/-! ## Local to local -/

/-- One pixel of a local copy: read, then written (R485). -/
def copyPixel (sp dp : Psm) (b p : Word) (lm : LocalMem) (xy : Nat × Nat) : LocalMem :=
  lm.writePixel dp (bltDbp b) (bltDbw b) (windowCoord (posDsax p) xy.1) (windowCoord (posDsay p) xy.2)
    (lm.vram.readRaw sp (bltSbp b) (bltSbw b) (windowCoord (posSsax p) xy.1) (windowCoord (posSsay p) xy.2))

/-- The offsets of a region's pixels, row by row (R485). -/
def regionPixels (rrw rrh : Nat) : List (Nat × Nat) :=
  (List.range rrh).flatMap (fun y => (List.range rrw).map (fun x => (x, y)))

/-- `copyLocal(B, P, G)` (R485). -/
def copyLocal (sp dp : Psm) (b p g : Word) (lm : LocalMem) : LocalMem :=
  (regionPixels (regRrw g) (regRrh g)).foldl (copyPixel sp dp b p) lm

/-! ## Start -/

/-- The start of a transfer that leaves a cursor: refused for a reserved format, nothing for an empty region (R481,
R511). -/
def State.startCursor (s : State) (code : Nat) (x : TransferCursor) : State :=
  if (Psm.ofCode code).isNone then s.refuse .badTransferFormat
  else if x.rrw = 0 ∨ x.rrh = 0 then s
  else s.setXfer (some x)

/-- A local-to-local transfer (R481, R485): refused for a reserved format or formats of different widths. -/
def State.startCopy (s : State) (b p g : Word) : State :=
  match Psm.ofCode (bltSpsm b), Psm.ofCode (bltDpsm b) with
  | some sp, some dp =>
    if sp.bits ≠ dp.bits then s.refuse .transferWidthMismatch
    else { s with lm := copyLocal sp dp b p g s.lm }
  | _, _ => s.refuse .badTransferFormat

/-- `startTransfer(xdir)` (R481, R482): an active transfer is abandoned first. -/
def State.startTransfer (s : State) (xdir : Nat) : State :=
  let b := s.reg .bitbltbuf
  let p := s.reg .trxpos
  let g := s.reg .trxreg
  let s1 := s.setXfer none
  match xdir with
  | 0 => s1.startCursor (bltDpsm b) (latchCursor .hostToLocal b p g)
  | 1 => s1.startCursor (bltSpsm b) (latchCursor .localToHost b p g)
  | 2 => s1.startCopy b p g
  | _ => s1

/-! ## The cursor -/

/-- The cursor moved to the next pixel of its region (R490). -/
def TransferCursor.advance (x : TransferCursor) : TransferCursor :=
  if x.cx + 1 = x.rrw then { x with cx := 0, cy := x.cy + 1 } else { x with cx := x.cx + 1 }

/-- Whether every pixel of the region has been passed. -/
def TransferCursor.full (x : TransferCursor) : Bool := x.rrh ≤ x.cy

/-! ## Host to local -/

/-- Byte i of a data word (R491). -/
def dataByte (d : Word) (i : Nat) : Byte := d.extractLsb' (8 * i) 8

/-- The eight bytes of a data word, the least significant first (R491). -/
def dataBytes (d : Word) : List Byte := (List.range 8).map (dataByte d)

/-- The pixels of w bits in a data word, the least significant first (R490). -/
def dataPixels (w : Nat) (d : Word) : List VWord :=
  (List.range (64 / w)).map (fun i => ((d >>> (i * w)).setWidth 32 &&& lowMask w))

/-- A byte stream cut into 24-bit pixels, and the bytes left over (R490, R491). -/
def cut24 : List Byte → List VWord × List Byte
  | b0 :: b1 :: b2 :: rest => ((0#8 ++ b2 ++ b1 ++ b0) :: (cut24 rest).1, (cut24 rest).2)
  | rest => ([], rest)

/-- The pixels a data word completes and the carry it leaves (R490). -/
def unpackData (p : Psm) (carry : List Byte) (d : Word) : List VWord × List Byte :=
  if p.bits = 24 then cut24 (carry ++ dataBytes d) else (dataPixels p.bits d, carry)

/-- One pixel put at the cursor, which moves on; nothing once the region is full (R490). -/
def putPixel (p : Psm) (st : LocalMem × TransferCursor) (v : VWord) : LocalMem × TransferCursor :=
  let x := st.2
  if x.full then st
  else
    (st.1.writePixel p x.dbp x.dbw (windowCoord x.dsax x.cx) (windowCoord x.dsay x.cy) v, x.advance)

/-- The local memory and cursor after a data word (R490). -/
def putData (p : Psm) (lm : LocalMem) (x : TransferCursor) (d : Word) : LocalMem × TransferCursor :=
  let u := unpackData p x.carry d
  u.1.foldl (putPixel p) (lm, { x with carry := u.2 })

/-- `transferWrite(D)` (R490, R495). A cursor's destination format is a transfer code since its start (R481; log
entry 14). -/
def State.transferWrite (s : State) (d : Word) : State :=
  match s.xfer with
  | none => s
  | some x =>
    if x.dir = .hostToLocal then
      let r := putData ((Psm.ofCode x.dpsm).getD .ct32) s.lm x d
      { s with lm := r.1, xfer := if r.2.full then none else some r.2 }
    else s

/-! ## Local to host -/

/-- The next pixel of a local-to-host transfer, 0 past the end of the region (R500). -/
def takePixel (p : Psm) (m : Memory) (x : TransferCursor) : VWord × TransferCursor :=
  if x.full then (0#32, x)
  else (m.readRaw p x.sbp x.sbw (windowCoord x.ssax x.cx) (windowCoord x.ssay x.cy), x.advance)

/-- The next n pixels of w bits packed from bit i * w up (R500). -/
def takePacked (p : Psm) (m : Memory) : Nat → Nat → TransferCursor → Word × TransferCursor
  | 0, _, x => (0#64, x)
  | n + 1, i, x =>
    let v := takePixel p m x
    let r := takePacked p m n (i + 1) v.2
    ((v.1.setWidth 64 <<< (i * p.bits)) ||| r.1, r.2)

/-- The three bytes of a 24-bit pixel, the least significant first (R500). -/
def pixelBytes (v : VWord) : List Byte := [v.extractLsb' 0 8, v.extractLsb' 8 8, v.extractLsb' 16 8]

/-- The carry filled to at least eight bytes with whole 24-bit pixels while the region has any (R500). Three rounds
reach eight bytes from any carry. -/
def fillCarry (p : Psm) (m : Memory) : Nat → TransferCursor → TransferCursor
  | 0, x => x
  | n + 1, x =>
    if x.carry.length < 8 ∧ x.full = false then
      let v := takePixel p m x
      fillCarry p m n { v.2 with carry := x.carry ++ pixelBytes v.1 }
    else x

/-- The first eight bytes of a list, padded with 0, the first in bits [7:0] (R500). -/
def packBytes (l : List Byte) : Word :=
  l.getD 7 0#8 ++ l.getD 6 0#8 ++ l.getD 5 0#8 ++ l.getD 4 0#8 ++ l.getD 3 0#8 ++ l.getD 2 0#8 ++ l.getD 1 0#8 ++
    l.getD 0 0#8

/-- The next 64 bits of a local-to-host transfer and its cursor after them (R500). -/
def takeData (p : Psm) (m : Memory) (x : TransferCursor) : Word × TransferCursor :=
  if p.bits = 24 then
    let y := fillCarry p m 3 x
    (packBytes y.carry, { y with carry := y.carry.drop 8 })
  else takePacked p m (64 / p.bits) 0 x

/-- `transferRead()` (R500): the value goes to the host; with no local-to-host transfer it is `any`. -/
def State.transferRead (s : State) : State :=
  match s.xfer with
  | none => s.replyAny
  | some x =>
    if x.dir = .localToHost then
      let r := takeData ((Psm.ofCode x.spsm).getD .ct32) s.lm.vram x
      (s.setXfer (if r.2.full && r.2.carry.isEmpty then none else some r.2)).reply r.1
    else s.replyAny

end Sys2Proof.Machine
end

