-- ==== Sys2Proof/Machine/TransferRegs.lean ====
section
/-! DEFINITION. The transfer registers and the transfer read (R256 to R265, R500). -/

namespace Sys2Proof.Machine

/-- `W_BITBLTBUF`: DATA is stored in the raw bank (R256, R221). -/
def execWBitbltbuf (d : Word) (s : State) : Host.Outcome State Fault Refusal := .next (s.setReg .bitbltbuf d)

/-- `W_TRXPOS`: DATA is stored in the raw bank (R257, R221). -/
def execWTrxpos (d : Word) (s : State) : Host.Outcome State Fault Refusal := .next (s.setReg .trxpos d)

/-- `W_TRXREG`: DATA is stored in the raw bank (R258, R221). -/
def execWTrxreg (d : Word) (s : State) : Host.Outcome State Fault Refusal := .next (s.setReg .trxreg d)

/-- `W_TRXDIR`: DATA is stored and the transfer it names starts, runs or ends (R259). -/
def execWTrxdir (d : Word) (s : State) : Host.Outcome State Fault Refusal :=
  .next ((s.setReg .trxdir d).startTransfer (dirXdir d))

/-- `W_HWREG`: DATA is stored and given to an active host-to-local transfer (R265). -/
def execWHwreg (d : Word) (s : State) : Host.Outcome State Fault Refusal :=
  .next ((s.setReg .hwreg d).transferWrite d)

/-- `TR`: the next 64 bits of a local-to-host transfer are returned (R500). -/
def execTr (s : State) : Host.Outcome State Fault Refusal := .next s.transferRead

end Sys2Proof.Machine
end

