-- ==== Sys2Proof/Machine/Fragment.lean ====
section
/-! DEFINITION. What drawing works on: colours, texture coordinates, fragments (R332) and the draw state a primitive
reads at its completing kick (R222, R314), with the formats its registers name. -/

namespace Sys2Proof.Machine

/-- A pixel colour of integers (R21). -/
structure Colour where
  r : Int
  g : Int
  b : Int
  a : Int
deriving DecidableEq, Repr

/-- The texture coordinates of a fragment (R332). -/
inductive TexCoord where
  /-- Texel coordinates in 12.4 units, when FST = 1. -/
  | uv (u v : Int)
  /-- Exact S, T and Q, when FST = 0. -/
  | stq (s t q : Rat)
deriving DecidableEq, Repr

/-- A fragment (R332). -/
structure Frag where
  x : Int
  y : Int
  z : Nat
  c : Colour
  f : Int
  tc : TexCoord
deriving DecidableEq, Repr

/-- The draw state of one primitive: everything it reads besides its vertices and VRAM (R222, R314). -/
structure Env where
  attr : Attr
  K : Context
  regs : Regs
  cfg : Config
deriving DecidableEq, Repr

/-- The draw state a register bank gives a primitive (R314). -/
def Env.of (regs : Regs) (cfg : Config) : Env :=
  { attr := regs.attr, K := regs.ctx regs.attr.ctxId, regs := regs, cfg := cfg }

/-- The format of the frame buffer (R432). A primitive whose frame code has none is refused before it reads it
(R315; log entry 14). -/
def Env.fbFmt (e : Env) : Psm := (frameFormat? e.K.fbPsm).getD .ct32

/-- The format of the depth buffer (R432; log entry 14). -/
def Env.zFmt (e : Env) : Psm := (depthFormat? e.K.zPsm).getD .z32

/-- The format of the texture (R400; log entry 14). -/
def Env.texFmt (e : Env) : Psm := (Psm.ofCode e.K.texPsm).getD .ct32

/-- The format of a CLUT entry (R405, R406; log entry 14). -/
def Env.clutFmt (e : Env) : Psm := (clutFormat? e.K.cpsm).getD .ct32

/-! ## Numbers -/

/-- `floor_div(a, b)` (R17). -/
def floorDiv (a b : Int) : Int := Int.fdiv a b

/-- `clamp(v, lo, hi)` (R17): when lo is above hi the result is hi. -/
def clampInt (v lo hi : Int) : Int := min (max v lo) hi

/-- Whether a binary32 pattern is a NaN or an infinity. -/
def f32NonFinite (b : BitVec 32) : Bool := b.extractLsb' 23 8 == 0xFF#8

/-- The magnitude of a finite binary32 pattern as a multiple of 2^-149 (log entry 12). -/
def f32Mag (b : BitVec 32) : Nat :=
  let e := (b.extractLsb' 23 8).toNat
  let m := (b.extractLsb' 0 23).toNat
  if e = 0 then m else (2 ^ 23 + m) * 2 ^ (e - 1)

/-- The exact rational a finite binary32 pattern denotes (R332; log entry 12). -/
def f32Rat (b : BitVec 32) : Rat :=
  mkRat (if b.getLsbD 31 then -(f32Mag b : Int) else f32Mag b) (2 ^ 149)

end Sys2Proof.Machine
end

