-- ==== Sys2Proof/Machine/Texture.lean ====
section
/-! DEFINITION. The texture sampler: texel coordinates, wrap modes, filters, texel decode, CLUT lookup, texture function
and fog (R380 to R416). -/

namespace Sys2Proof.Machine

/-! ## Coordinates -/

/-- The texel coordinates of a fragment in 12.4 units (R381, R382). With q = 0 they are free values (log entry 4). -/
def texelCoord (e : Env) (free : Nat) : TexCoord → Int × Int
  | .uv u v => (u, v)
  | .stq s t q =>
    if q = 0 then (Config.freeU free, Config.freeV free)
    else ((s / q * (2 ^ e.K.tw * 16 : Nat)).floor, (t / q * (2 ^ e.K.th * 16 : Nat)).floor)

/-- A texel column or row reduced by a wrap mode to a texture of the given size (R390): mode 0 REPEAT, 1 CLAMP,
2 REGION_CLAMP, 3 REGION_REPEAT (`lo` the mask, `hi` the fixed bits; both have 10 bits, so the mask meets only the
low 10 bits of c). -/
def wrapTexel (mode size lo hi : Nat) (c : Int) : Nat :=
  match mode with
  | 0 => (c % size).toNat
  | 1 => (clampInt c 0 ((size : Int) - 1)).toNat
  | 2 => (clampInt c lo hi).toNat
  | _ => ((c % 1024).toNat &&& lo) ||| hi

/-- `wrapU(c)` (R390). -/
def wrapU (K : Context) (c : Int) : Nat := wrapTexel K.wms (2 ^ K.tw) K.minu K.maxu c

/-- `wrapV(c)` (R390). -/
def wrapV (K : Context) (c : Int) : Nat := wrapTexel K.wmt (2 ^ K.th) K.minv K.maxv c

/-! ## Texel decode -/

/-- Bits hi down to lo of a raw pixel, as an integer. -/
def rawField (raw : VWord) (hi lo : Nat) : Int := (raw.extractLsb hi lo).toNat

/-- The red, green and blue of a 32-bit or 24-bit pixel, with the given alpha (R401, R433). -/
def colour8 (raw : VWord) (a : Int) : Colour := ⟨rawField raw 7 0, rawField raw 15 8, rawField raw 23 16, a⟩

/-- The red, green and blue of a 16-bit pixel, each shifted left by 3, with the given alpha (R401, R433). -/
def colour5 (raw : VWord) (a : Int) : Colour :=
  ⟨rawField raw 4 0 * 8, rawField raw 9 5 * 8, rawField raw 14 10 * 8, a⟩

/-- The alpha of a 24-bit texel (R402). -/
def texaAlpha24 (texa : Word) (raw : VWord) : Int :=
  if texaAem texa && rawField raw 23 0 == 0 then 0 else texaTa0 texa

/-- The alpha of a 16-bit texel (R402). -/
def texaAlpha16 (texa : Word) (raw : VWord) : Int :=
  if raw.getLsbD 15 then texaTa1 texa
  else if texaAem texa && rawField raw 14 0 == 0 then 0 else texaTa0 texa

/-- A direct-colour texel or a CLUT entry decoded by its width (R401, R405). -/
def decodeTexel (texa : Word) (p : Psm) (raw : VWord) : Colour :=
  match p.bits with
  | 32 => colour8 raw (rawField raw 31 24)
  | 24 => colour8 raw (texaAlpha24 texa raw)
  | _ => colour5 raw (texaAlpha16 texa raw)

/-! ## Reads -/

/-- The raw bits a texel or CLUT read returns (R400, R405): those of VRAM, or a free value for a dirty word when
`strictTexflush` is true (R575). `key` numbers the reads of a fragment (log entry 4). -/
def readTexRaw (e : Env) (lm : LocalMem) (p : Psm) (bp bw x y key : Nat) : VWord :=
  if e.cfg.strictTexflush && lm.dirty.contains (p.wordAt bp bw x y) then
    Config.freeTexel lm.free key &&& lowMask p.bits
  else lm.vram.readRaw p bp bw x y

/-- The place of a CSM1 entry in its table (R405): an 8-bit index has its bits 3 and 4 exchanged and a 16-wide table,
a 4-bit index an 8-wide one. -/
def csm1Place (wide : Bool) (i : Nat) : Nat × Nat :=
  if wide then
    let i' := (i &&& 0xE7) ||| ((i &&& 0x08) <<< 1) ||| ((i &&& 0x10) >>> 1)
    (i' % 16, i' / 16)
  else (i % 8, i / 8)

/-- `clut(i)`: the entry of an index (R405 for CSM1, R406 for CSM2). -/
def clutEntry (e : Env) (lm : LocalMem) (i key : Nat) : Colour :=
  let texclut := e.regs.read .texclut
  let raw :=
    if e.K.csm then
      readTexRaw e lm e.clutFmt e.K.cbp (texclutCbw texclut) (texclutCou texclut * 16 + i) (texclutCov texclut) key
    else
      let at' := csm1Place (e.texFmt.bits == 8) i
      readTexRaw e lm e.clutFmt e.K.cbp 1 at'.1 at'.2 key
  decodeTexel (e.regs.read .texa) e.clutFmt raw

/-- `texel(i, j)` (R400, R401, R404): the texel, looked up through the CLUT when its format is indexed. -/
def texelAt (e : Env) (lm : LocalMem) (i j key : Nat) : Colour :=
  let raw := readTexRaw e lm e.texFmt e.K.tbp0 e.K.tbw i j key
  if e.texFmt.indexed then clutEntry e lm raw.toNat (key + 4) else decodeTexel (e.regs.read .texa) e.texFmt raw

/-! ## Filters -/

/-- One channel of the bilinear filter (R398). -/
def bilinear (fu fv c00 c10 c01 c11 : Int) : Int :=
  ((16 - fu) * (16 - fv) * c00 + fu * (16 - fv) * c10 + (16 - fu) * fv * c01 + fu * fv * c11) / 256

/-- The bilinear filter at texel coordinates (U, V) (R398). -/
def sampleBilinear (e : Env) (lm : LocalMem) (U V : Int) : Colour :=
  let u0 := (U - 8) / 16
  let v0 := (V - 8) / 16
  let fu := (U - 8) % 16
  let fv := (V - 8) % 16
  let t00 := texelAt e lm (wrapU e.K u0) (wrapV e.K v0) 0
  let t10 := texelAt e lm (wrapU e.K (u0 + 1)) (wrapV e.K v0) 1
  let t01 := texelAt e lm (wrapU e.K u0) (wrapV e.K (v0 + 1)) 2
  let t11 := texelAt e lm (wrapU e.K (u0 + 1)) (wrapV e.K (v0 + 1)) 3
  ⟨bilinear fu fv t00.r t10.r t01.r t11.r, bilinear fu fv t00.g t10.g t01.g t11.g,
    bilinear fu fv t00.b t10.b t01.b t11.b, bilinear fu fv t00.a t10.a t01.a t11.a⟩

/-- The nearest texel at texel coordinates (U, V) (R397). -/
def sampleNearest (e : Env) (lm : LocalMem) (U V : Int) : Colour :=
  texelAt e lm (wrapU e.K (U / 16)) (wrapV e.K (V / 16)) 0

/-- `sample(frag)` (R396): bilinear when MMAG = 1, else nearest. -/
def sampleTex (e : Env) (lm : LocalMem) (tc : TexCoord) : Colour :=
  let c := texelCoord e lm.free tc
  if e.K.mmag then sampleBilinear e lm c.1 c.2 else sampleNearest e lm c.1 c.2

/-! ## Texture function and fog -/

/-- A texel channel times a fragment channel, 0x80 being one (R410). -/
def modulate (t f : Int) : Int := t * f / 128

/-- One colour channel of the texture function (R410): `fa` is the fragment's alpha. -/
def tfxChannel (tfx : Nat) (t f fa : Int) : Int :=
  match tfx with
  | 0 => min 255 (modulate t f)
  | 1 => t
  | _ => min 255 (modulate t f + fa)

/-- The alpha of the texture function (R410). -/
def tfxAlpha (tfx : Nat) (tcc : Bool) (ta fa : Int) : Int :=
  if tcc then
    match tfx with
    | 0 => min 255 (modulate ta fa)
    | 2 => min 255 (ta + fa)
    | _ => ta
  else fa

/-- `tfx(t, f)` (R410). -/
def tfxColour (K : Context) (t f : Colour) : Colour :=
  ⟨tfxChannel K.tfx t.r f.r f.a, tfxChannel K.tfx t.g f.g f.a, tfxChannel K.tfx t.b f.b f.a,
    tfxAlpha K.tfx K.tcc t.a f.a⟩

/-- One channel of the fog blend (R415). -/
def fogChannel (f c fc : Int) : Int := (f * c + (255 - f) * fc) / 256

/-- Fog (R415): alpha is unchanged. -/
def fogColour (fogcol : Word) (f : Int) (c : Colour) : Colour :=
  { c with
    r := fogChannel f c.r (fogcolR fogcol)
    g := fogChannel f c.g (fogcolG fogcol)
    b := fogChannel f c.b (fogcolB fogcol) }

/-- The source colour of a fragment (R380, R416): textured when TME = 1, then fogged when FGE = 1. -/
def sourceColour (e : Env) (lm : LocalMem) (fr : Frag) : Colour :=
  let c := if e.attr.tme then tfxColour e.K (sampleTex e lm fr.tc) fr.c else fr.c
  if e.attr.fge then fogColour (e.regs.read .fogcol) fr.f c else c

end Sys2Proof.Machine
end

