-- ==== Sys2Proof/Machine/Pixel.lean ====
section
/-! DEFINITION. The pixel pipeline: scan mask, alpha test, destination-alpha test, depth test, blend, dither, clamp, FBA,
packing, and the frame and depth writes (R430 to R471). -/

namespace Sys2Proof.Machine

/-! ## Tests -/

/-- `scanOk(y)` (R431); MSK = 1 is refused before drawing (R315). -/
def scanOk (e : Env) (y : Nat) : Bool :=
  match scanmskMsk (e.regs.read .scanmsk) with
  | 2 => y % 2 == 1
  | 3 => y % 2 == 0
  | _ => true

/-- What a fragment may still write (R435). -/
inductive WriteKind where
  | full | fbOnly | zbOnly | rgbOnly
deriving DecidableEq, Repr

/-- `alphaPass(As)` by ATST with reference R (R434). -/
def alphaPass (atst : Nat) (as ref : Int) : Bool :=
  match atst with
  | 0 => false
  | 1 => true
  | 2 => as < ref
  | 3 => as ≤ ref
  | 4 => as == ref
  | 5 => ref ≤ as
  | 6 => ref < as
  | _ => as != ref

/-- `afail(AFAIL)` (R435); `none` ends the fragment. -/
def afailOutcome : Nat → Option WriteKind
  | 0 => none
  | 1 => some .fbOnly
  | 2 => some .zbOnly
  | _ => some .rgbOnly

/-- The outcome of the alpha test (R430). -/
def alphaOutcome (K : Context) (as : Int) : Option WriteKind :=
  if K.ate && !alphaPass K.atst as K.aref then afailOutcome K.afail else some .full

/-- The raw frame buffer pixel (R432, R433). -/
def frameRaw (e : Env) (lm : LocalMem) (x y : Nat) : VWord := lm.vram.readRaw e.fbFmt e.K.fbBase e.K.fbWidth x y

/-- The raw depth buffer pixel (R432). -/
def depthRaw (e : Env) (lm : LocalMem) (x y : Nat) : VWord := lm.vram.readRaw e.zFmt e.K.zBase e.K.fbWidth x y

/-- `datePass(x, y)` on the raw frame pixel (R436). -/
def datePass (e : Env) (d : VWord) : Bool :=
  match e.fbFmt.bits with
  | 32 => d.getLsbD 31 == e.K.datm
  | 24 => true
  | _ => d.getLsbD 15 == e.K.datm

/-- The largest depth of a depth format (R440). -/
def zMax (p : Psm) : Nat := 2 ^ p.bits - 1

/-- The fragment depth clamped to the depth format (R440). -/
def clampZ (e : Env) (z : Nat) : Nat := min z (zMax e.zFmt)

/-- `depthPass(zf, x, y)` by ZTST on the raw depth pixel (R441). -/
def depthPass (ztst zf : Nat) (zd : VWord) : Bool :=
  match ztst with
  | 0 => false
  | 1 => true
  | 2 => zd.toNat ≤ zf
  | _ => zd.toNat < zf

/-! ## Colour output -/

/-- `destColour(x, y)`: the raw frame pixel decoded (R433). -/
def destColour (e : Env) (d : VWord) : Colour :=
  match e.fbFmt.bits with
  | 32 => colour8 d (rawField d 31 24)
  | 24 => colour8 d 0x80
  | _ => colour5 d (if d.getLsbD 15 then 0x80 else 0)

/-- `sel3(k)` (R445). -/
def blendSel (k : Nat) (cs cd : Int) : Int :=
  match k with
  | 0 => cs
  | 1 => cd
  | _ => 0

/-- `selC(k)` (R445). -/
def blendCoef (k : Nat) (as ad fix : Int) : Int :=
  match k with
  | 0 => as
  | 1 => ad
  | _ => fix

/-- The blend equation on one channel (R445). -/
def blendChannel (K : Context) (as ad cs cd : Int) : Int :=
  (blendSel K.alphaA cs cd - blendSel K.alphaB cs cd) * blendCoef K.alphaC as ad K.alphaFix / 128 +
    blendSel K.alphaD cs cd

/-- Whether a fragment is blended (R445): ABE = 1 and PABE does not exclude it (R450). -/
def blends (e : Env) (as : Int) : Bool := e.attr.abe && !(bit (e.regs.read .pabe) 0 && as < 0x80)

/-- The dither value of a pixel (R455): 0 but for a 16-bit frame format with DTHE = 1. -/
def ditherAt (e : Env) (x y : Nat) : Int :=
  if bit (e.regs.read .dthe) 0 && e.fbFmt.bits == 16 then dimxElem (e.regs.read .dimx) (y % 4) (x % 4) else 0

/-- The limit on a colour channel (R452). -/
def limitChannel (e : Env) (v : Int) : Int :=
  if e.cfg.honourColclamp && !bit (e.regs.read .colclamp) 0 then v % 256 else clampInt v 0 255

/-- One channel of the output colour: blend, dither, limit (R445, R452, R455). -/
def outChannel (e : Env) (x y : Nat) (as ad cs cd : Int) : Int :=
  limitChannel e ((if blends e as then blendChannel e.K as ad cs cd else cs) + ditherAt e x y)

/-- The output alpha (R456, R458). -/
def outAlpha (e : Env) (as : Int) : Int := if e.K.fbaBit then ((as.toNat ||| 0x80 : Nat) : Int) else as

/-- The output colour and alpha of a fragment (R430). -/
def outColour (e : Env) (x y : Nat) (s d : Colour) : Colour :=
  ⟨outChannel e x y s.a d.a s.r d.r, outChannel e x y s.a d.a s.g d.g, outChannel e x y s.a d.a s.b d.b,
    outAlpha e s.a⟩

/-! ## Writes -/

/-- The output colour packed into a frame format (R459). -/
def packColour (p : Psm) (c : Colour) : VWord :=
  match p.bits with
  | 32 =>
    BitVec.ofInt 32 c.r ||| BitVec.ofInt 32 c.g <<< 8 ||| BitVec.ofInt 32 c.b <<< 16 ||| BitVec.ofInt 32 c.a <<< 24
  | 24 => BitVec.ofInt 32 c.r ||| BitVec.ofInt 32 c.g <<< 8 ||| BitVec.ofInt 32 c.b <<< 16
  | _ =>
    BitVec.ofInt 32 (c.r / 8) ||| BitVec.ofInt 32 (c.g / 8) <<< 5 ||| BitVec.ofInt 32 (c.b / 8) <<< 10 |||
      BitVec.ofInt 32 (c.a / 128) <<< 15

/-- FBMSK converted to the bits of a frame format's pixel: m of R460. -/
def frameMask (p : Psm) (m : VWord) : VWord :=
  match p.bits with
  | 32 => m
  | 24 => m &&& 0x00FFFFFF#32
  | _ =>
    (m.extractLsb' 3 5).setWidth 32 ||| (m.extractLsb' 11 5).setWidth 32 <<< 5 |||
      (m.extractLsb' 19 5).setWidth 32 <<< 10 ||| (m.extractLsb' 31 1).setWidth 32 <<< 15

/-- The alpha bits of a frame format's pixel: am of R460. -/
def alphaBits (p : Psm) : VWord :=
  match p.bits with
  | 32 => 0xFF000000#32
  | 24 => 0#32
  | _ => 0x8000#32

/-- The bits of the pixel that a frame write keeps (R460). -/
def keptBits (e : Env) (o : WriteKind) : VWord :=
  frameMask e.fbFmt e.K.fbMsk ||| (if o = .rgbOnly then alphaBits e.fbFmt else 0#32)

/-- `writeFrame(x, y, Co, Ao, outcome)` (R460). -/
def writeFrame (e : Env) (lm : LocalMem) (x y : Nat) (c : Colour) (o : WriteKind) : LocalMem :=
  lm.writePixel e.fbFmt e.K.fbBase e.K.fbWidth x y
    ((frameRaw e lm x y &&& keptBits e o) ||| (packColour e.fbFmt c &&& ~~~keptBits e o))

/-- `writeDepth(x, y, zf)` (R465). -/
def writeDepth (e : Env) (lm : LocalMem) (x y zf : Nat) : LocalMem :=
  lm.writePixel e.zFmt e.K.zBase e.K.fbWidth x y (BitVec.ofNat 32 zf)

/-- The writes of a fragment that passed its tests: the frame first, then the depth (R430, R471). -/
def writeFragment (e : Env) (lm : LocalMem) (x y zf : Nat) (c : Colour) (o : WriteKind) : LocalMem :=
  let lm1 := if o = .zbOnly then lm else writeFrame e lm x y c o
  if (o = .full ∨ o = .zbOnly) ∧ e.K.zMsk = false then writeDepth e lm1 x y zf else lm1

/-- The kind of writes a fragment's tests leave it, if they leave it any (R430). -/
def testedKind (e : Env) (lm : LocalMem) (x y z : Nat) (as : Int) : Option WriteKind :=
  match alphaOutcome e.K as with
  | none => none
  | some o =>
    if e.K.date && !datePass e (frameRaw e lm x y) then none
    else if e.K.zte && !depthPass e.K.ztst (clampZ e z) (depthRaw e lm x y) then none
    else some o

/-- The tests and writes of a fragment with source colour `s` (R430). -/
def testAndWrite (e : Env) (lm : LocalMem) (x y z : Nat) (s : Colour) : LocalMem :=
  match testedKind e lm x y z s.a with
  | none => lm
  | some o => writeFragment e lm x y (clampZ e z) (outColour e x y s (destColour e (frameRaw e lm x y))) o

/-- `processFragment(frag)` (R430). A textured fragment uses one free value's number (log entry 4). -/
def processFragment (e : Env) (lm : LocalMem) (fr : Frag) : LocalMem :=
  if scanOk e fr.y.toNat then
    testAndWrite e (if e.attr.tme then lm.useFree else lm) fr.x.toNat fr.y.toNat fr.z (sourceColour e lm fr)
  else lm

end Sys2Proof.Machine
end

