-- ==== Sys2Proof/Machine/Raster.lean ====
section
/-! DEFINITION. The rasterizer: the fragments of a point, a line, a triangle and a sprite, in their order (R330 to
R367). -/

namespace Sys2Proof.Machine

/-- A window pixel. -/
abbrev Pixel := Int × Int

/-- The window pixel of a vertex (R330): the offset subtracted, the fraction dropped by the floor. -/
def win (K : Context) (v : Vertex) : Pixel :=
  (((v.x.toNat : Int) - K.ofx) / 16, ((v.y.toNat : Int) - K.ofy) / 16)

/-- Whether a window pixel lies in the scissor (R331). -/
def inScissor (K : Context) (p : Pixel) : Bool :=
  (K.scax0 : Int) ≤ p.1 && p.1 ≤ (K.scax1 : Int) && (K.scay0 : Int) ≤ p.2 && p.2 ≤ (K.scay1 : Int)

/-- `lerpFloor(a0, a1, num, den)` (R333): the floor of the exact rational. -/
def lerpFloor (a0 a1 num den : Int) : Int := a0 + floorDiv ((a1 - a0) * num) den

/-- `bary` of integers (R333). -/
def bary (a0 a1 a2 w0 w1 w2 area : Int) : Int := floorDiv (w0 * a0 + w1 * a1 + w2 * a2) area

/-- `bary` of rationals, with no floor (R333). -/
def baryRat (a0 a1 a2 : Rat) (w0 w1 w2 area : Int) : Rat := (w0 * a0 + w1 * a1 + w2 * a2) / area

/-- The colour of a vertex. -/
def Vertex.colour (v : Vertex) : Colour := ⟨v.r.toNat, v.g.toNat, v.b.toNat, v.a.toNat⟩

/-- `tcOf(v)` (R340). -/
def tcOf (a : Attr) (v : Vertex) : TexCoord :=
  if a.fst then .uv v.u.toNat v.v.toNat else .stq (f32Rat v.s) (f32Rat v.t) (f32Rat v.q)

/-- The fragment at a pixel that takes every attribute from one vertex. -/
def flatFrag (e : Env) (v : Vertex) (p : Pixel) : Frag :=
  { x := p.1, y := p.2, z := v.z.toNat, c := v.colour, f := v.f.toNat, tc := tcOf e.attr v }

/-- The integers from lo to hi, both included, rising. -/
def intRange (lo hi : Int) : List Int := (List.range (hi + 1 - lo).toNat).map (fun (i : Nat) => lo + i)

/-- The pixels of a rectangle, bounds included, by rows of rising y and in a row by rising x (R335). -/
def rectPixels (x0 x1 y0 y1 : Int) : List Pixel :=
  (intRange y0 y1).flatMap (fun y => (intRange x0 x1).map (fun x => (x, y)))

/-! ## Point -/

/-- The fragments of a point (R340). -/
def pointFrags (e : Env) (v0 : Vertex) : List Frag :=
  if inScissor e.K (win e.K v0) then [flatFrag e v0 (win e.K v0)] else []

/-! ## Line -/

/-- What a Bresenham walk goes by: the end pixel, the steps and the deltas (R345). -/
structure Walk where
  x1 : Int
  y1 : Int
  sx : Int
  sy : Int
  dx : Int
  dy : Int
deriving DecidableEq, Repr

/-- The pixels a Bresenham walk visits from (x, y) with error term err (R345). The fuel bounds the steps; it is
never used up from the start of a line (log entry 15). -/
def Walk.pixels (w : Walk) : Nat → Int → Int → Int → List Pixel
  | 0, _, _, _ => []
  | fuel + 1, x, y, err =>
    (x, y) ::
      if x = w.x1 ∧ y = w.y1 then []
      else
        let stepX := w.dy ≤ 2 * err
        let stepY := 2 * err ≤ w.dx
        w.pixels fuel (if stepX then x + w.sx else x) (if stepY then y + w.sy else y)
          (err + (if stepX then w.dy else 0) + (if stepY then w.dx else 0))

/-- The walk of a line between two window pixels (R345). -/
def lineWalk (p0 p1 : Pixel) : Walk :=
  { x1 := p1.1, y1 := p1.2
    sx := if p0.1 < p1.1 then 1 else -1
    sy := if p0.2 < p1.2 then 1 else -1
    dx := (p1.1 - p0.1).natAbs
    dy := -((p1.2 - p0.2).natAbs : Int) }

/-- The pixels of a line from p0 to p1, before the scissor (R345). -/
def linePixels (p0 p1 : Pixel) : List Pixel :=
  let w := lineWalk p0 p1
  w.pixels ((p1.1 - p0.1).natAbs + (p1.2 - p0.2).natAbs + 1) p0.1 p0.2 (w.dx + w.dy)

/-- The fragments of a line: the pixels in the scissor, with the attributes of v1 (R345). -/
def lineFrags (e : Env) (v0 v1 : Vertex) : List Frag :=
  ((linePixels (win e.K v0) (win e.K v1)).filter (inScissor e.K)).map (flatFrag e v1)

/-! ## Triangle -/

/-- The edge function `E(a, b, p)` (R352); `E(p0, p1, p2)` is the signed area of R350. -/
def edge (a b p : Pixel) : Int := (b.1 - a.1) * (p.2 - a.2) - (b.2 - a.2) * (p.1 - a.1)

/-- A triangle with its winding fixed (R350): vertices, their window pixels, the area and the kick vertex. -/
structure Tri where
  v0 : Vertex
  v1 : Vertex
  v2 : Vertex
  p0 : Pixel
  p1 : Pixel
  p2 : Pixel
  area : Int
  kick : Vertex
deriving DecidableEq, Repr

/-- The signed area of a triangle's window pixels, with vertices 1 and 2 swapped when it is negative (R350). -/
def triSetup (K : Context) (v0 v1 v2 : Vertex) : Tri :=
  let p0 := win K v0
  let p1 := win K v1
  let p2 := win K v2
  let area := edge p0 p1 p2
  if area < 0 then ⟨v0, v2, v1, p0, p2, p1, -area, v2⟩ else ⟨v0, v1, v2, p0, p1, p2, area, v2⟩

/-- The weight of vertex 0 at a pixel (R352). -/
def Tri.w0 (t : Tri) (p : Pixel) : Int := edge t.p1 t.p2 p

/-- The weight of vertex 1 at a pixel (R352). -/
def Tri.w1 (t : Tri) (p : Pixel) : Int := edge t.p2 t.p0 p

/-- The weight of vertex 2 at a pixel (R352). -/
def Tri.w2 (t : Tri) (p : Pixel) : Int := edge t.p0 t.p1 p

/-- Coverage, edges included (R352; 90_conflicts.md C1). -/
def Tri.covers (t : Tri) (p : Pixel) : Bool := 0 ≤ t.w0 p && 0 ≤ t.w1 p && 0 ≤ t.w2 p

/-- An integer attribute interpolated at a pixel (R353). -/
def Tri.interp (t : Tri) (a : Vertex → Int) (p : Pixel) : Int :=
  bary (a t.v0) (a t.v1) (a t.v2) (t.w0 p) (t.w1 p) (t.w2 p) t.area

/-- A rational attribute interpolated at a pixel (R353). -/
def Tri.interpRat (t : Tri) (a : Vertex → Rat) (p : Pixel) : Rat :=
  baryRat (a t.v0) (a t.v1) (a t.v2) (t.w0 p) (t.w1 p) (t.w2 p) t.area

/-- The colour of a triangle's fragment (R353): interpolated when IIP = 1, else that of the kick vertex. -/
def Tri.colour (t : Tri) (a : Attr) (p : Pixel) : Colour :=
  if a.iip then
    ⟨t.interp (fun v => v.r.toNat) p, t.interp (fun v => v.g.toNat) p, t.interp (fun v => v.b.toNat) p,
      t.interp (fun v => v.a.toNat) p⟩
  else t.kick.colour

/-- The texture coordinate of a triangle's fragment (R353). -/
def Tri.tc (t : Tri) (a : Attr) (p : Pixel) : TexCoord :=
  if a.fst then .uv (t.interp (fun v => v.u.toNat) p) (t.interp (fun v => v.v.toNat) p)
  else
    .stq (t.interpRat (fun v => f32Rat v.s) p) (t.interpRat (fun v => f32Rat v.t) p)
      (t.interpRat (fun v => f32Rat v.q) p)

/-- The fragment of a triangle at a covered pixel (R353). -/
def Tri.frag (t : Tri) (a : Attr) (p : Pixel) : Frag :=
  { x := p.1, y := p.2
    z := (t.interp (fun v => v.z.toNat) p).toNat
    c := t.colour a p
    f := t.interp (fun v => v.f.toNat) p
    tc := t.tc a p }

/-- The smallest and the largest of three integers. -/
def min3 (a b c : Int) : Int := min a (min b c)

@[inherit_doc min3] def max3 (a b c : Int) : Int := max a (max b c)

/-- The pixels of a triangle's bounding box clamped to the scissor, in fragment order (R351). -/
def triBox (K : Context) (p0 p1 p2 : Pixel) : List Pixel :=
  rectPixels (max (min3 p0.1 p1.1 p2.1) K.scax0) (min (max3 p0.1 p1.1 p2.1) K.scax1)
    (max (min3 p0.2 p1.2 p2.2) K.scay0) (min (max3 p0.2 p1.2 p2.2) K.scay1)

/-- The fragments of a triangle (R350 to R353); none when its area is 0. -/
def triFrags (e : Env) (v0 v1 v2 : Vertex) : List Frag :=
  let t := triSetup e.K v0 v1 v2
  if t.area = 0 then []
  else ((triBox e.K t.p0 t.p1 t.p2).filter (fun p => t.covers p && inScissor e.K p)).map (t.frag e.attr)

/-! ## Sprite -/

/-- A colour channel of a sprite (R366). -/
def spriteChannel (c0 c1 : Nat) (pa pb p : Pixel) : Int :=
  lerpFloor c0 c1 ((p.1 - pa.1) * (pb.2 - pa.2) + (p.2 - pa.2) * (pb.1 - pa.1))
    (2 * (pb.1 - pa.1) * (pb.2 - pa.2))

/-- The texture coordinate of a sprite's fragment (R366). -/
def spriteTc (a : Attr) (v0 v1 : Vertex) (pa pb p : Pixel) : TexCoord :=
  if a.fst then
    .uv (lerpFloor v0.u.toNat v1.u.toNat (p.1 - pa.1) (pb.1 - pa.1))
      (lerpFloor v0.v.toNat v1.v.toNat (p.2 - pa.2) (pb.2 - pa.2))
  else
    .stq (f32Rat v0.s + (f32Rat v1.s - f32Rat v0.s) * (p.1 - pa.1 : Int) / (pb.1 - pa.1 : Int))
      (f32Rat v0.t + (f32Rat v1.t - f32Rat v0.t) * (p.2 - pa.2 : Int) / (pb.2 - pa.2 : Int))
      (f32Rat v1.q)

/-- The fragment of a sprite at a pixel (R366): depth, alpha and fog of v1, red, green and blue interpolated. -/
def spriteFrag (a : Attr) (v0 v1 : Vertex) (pa pb p : Pixel) : Frag :=
  { x := p.1, y := p.2
    z := v1.z.toNat
    c := ⟨spriteChannel v0.r.toNat v1.r.toNat pa pb p, spriteChannel v0.g.toNat v1.g.toNat pa pb p,
          spriteChannel v0.b.toNat v1.b.toNat pa pb p, v1.a.toNat⟩
    f := v1.f.toNat
    tc := spriteTc a v0 v1 pa pb p }

/-- The fragments of a sprite (R365): the rectangle of its corners without its largest row and column, in the
scissor. -/
def spriteFrags (e : Env) (v0 v1 : Vertex) : List Frag :=
  let pa := win e.K v0
  let pb := win e.K v1
  ((rectPixels (min pa.1 pb.1) (max pa.1 pb.1 - 1) (min pa.2 pb.2) (max pa.2 pb.2 - 1)).filter
    (inScissor e.K)).map (spriteFrag e.attr v0 v1 pa pb)

/-! ## All types -/

/-- The fragments of a primitive whose vertices are the queue's slots, in order (R314, R335). -/
def primFrags (e : Env) (t : PrimType) (slot : Vector Vertex 4) : List Frag :=
  match t with
  | .point => pointFrags e slot[0]
  | .line | .lineStrip => lineFrags e slot[0] slot[1]
  | .triangle | .triStrip | .triFan => triFrags e slot[0] slot[1] slot[2]
  | .sprite => spriteFrags e slot[0] slot[1]

end Sys2Proof.Machine
end

