-- ==== Sys2Proof/Machine/Primitive.lean ====
section
/-! DEFINITION. Primitive assembly: the vertex kick, the queue's rotation, the refusal of a primitive and its drawing
(R310 to R317). -/

namespace Sys2Proof.Machine

/-- The fields a kick itself carries (R310). -/
structure KickFields where
  x : BitVec 16
  y : BitVec 16
  z : BitVec 32
  f : BitVec 8
deriving DecidableEq, Repr

/-- The fields of an XYZF2 or XYZF3 write (R39, R226). -/
def kickXyzf (d : Word) : KickFields :=
  ⟨d.extractLsb' 0 16, d.extractLsb' 16 16, (d.extractLsb' 32 24).setWidth 32, d.extractLsb' 56 8⟩

/-- The fields of an XYZ2 or XYZ3 write, with the fog coefficient of FOG (R40, R227). -/
def kickXyz (d : Word) (regs : Regs) : KickFields :=
  ⟨d.extractLsb' 0 16, d.extractLsb' 16 16, d.extractLsb' 32 32, (regs.read .fog).extractLsb' 56 8⟩

/-- The vertex of a kick: its own fields and the attributes in force (R73, R310). -/
def makeVertex (p : KickFields) (regs : Regs) : Vertex :=
  let rgbaq := regs.read .rgbaq
  let st := regs.read .st
  let uv := regs.read .uv
  { x := p.x, y := p.y, z := p.z, f := p.f
    r := rgbaq.extractLsb' 0 8, g := rgbaq.extractLsb' 8 8, b := rgbaq.extractLsb' 16 8, a := rgbaq.extractLsb' 24 8
    q := rgbaq.extractLsb' 32 32, s := st.extractLsb' 0 32, t := st.extractLsb' 32 32
    u := uv.extractLsb' 0 14, v := uv.extractLsb' 16 14 }

/-- The queue with a vertex appended (R310). -/
def VertexQueue.push (q : VertexQueue) (v : Vertex) : VertexQueue :=
  { k := q.k + 1, slot := q.slot.setIfInBounds q.k v }

/-- The queue after a primitive of the given type is complete (R313). -/
def VertexQueue.rotate (q : VertexQueue) : PrimType → VertexQueue
  | .point | .line | .triangle | .sprite => { q with k := 0 }
  | .lineStrip => { k := 1, slot := q.slot.set 0 q.slot[1] }
  | .triStrip => { k := 2, slot := (q.slot.set 0 q.slot[1]).set 1 q.slot[2] }
  | .triFan => { k := 2, slot := q.slot.set 1 q.slot[2] }

/-! ## Refusal -/

/-- Whether a primitive of this context uses the depth buffer (R315, item 4). -/
def usesDepth (K : Context) : Bool := !K.zMsk || (K.zte && (K.ztst == 2 || K.ztst == 3))

/-- Whether a blend selector is the reserved code (R315, item 5). -/
def reservedBlend (K : Context) : Bool := K.alphaA == 3 || K.alphaB == 3 || K.alphaC == 3 || K.alphaD == 3

/-- Whether the texture registers are reserved values (R315, item 6). -/
def badTexture (K : Context) : Bool := (Psm.ofCode K.texPsm).isNone || 10 < K.tw || 10 < K.th

/-- Whether the CLUT registers are reserved or unmodelled values (R315, item 7). -/
def badClut (K : Context) : Bool := (clutFormat? K.cpsm).isNone || (K.csm && K.cpsm == 0) || K.csa != 0

/-- The S, T and Q patterns a primitive uses (R340, R345, R353, R366; log entry 8). -/
def usedStq (t : PrimType) (slot : Vector Vertex 4) : List (BitVec 32) :=
  match t with
  | .point => [slot[0].s, slot[0].t, slot[0].q]
  | .line | .lineStrip => [slot[1].s, slot[1].t, slot[1].q]
  | .triangle | .triStrip | .triFan =>
    [slot[0].s, slot[0].t, slot[0].q, slot[1].s, slot[1].t, slot[1].q, slot[2].s, slot[2].t, slot[2].q]
  | .sprite => [slot[0].s, slot[0].t, slot[1].s, slot[1].t, slot[1].q]

/-- `refusalReason(prim, attr, n)`: the first that holds, or none (R315). -/
def refusalReason (e : Env) (t : PrimType) (slot : Vector Vertex 4) : Option RefuseReason :=
  if e.attr.aa1 then some .antialiasing
  else if scanmskMsk (e.regs.read .scanmsk) = 1 then some .reservedScanMask
  else if (frameFormat? e.K.fbPsm).isNone then some .badFramePsm
  else if usesDepth e.K && (depthFormat? e.K.zPsm).isNone then some .badDepthPsm
  else if e.attr.abe && reservedBlend e.K then some .reservedBlendCode
  else if e.attr.tme && badTexture e.K then some .badTexture
  else if e.attr.tme && e.texFmt.indexed && badClut e.K then some .badClut
  else if e.attr.tme && !e.attr.fst && (usedStq t slot).any f32NonFinite then some .nonFiniteStq
  else none

/-! ## Drawing -/

/-- The local memory after fragments are processed one at a time, in order (R152, R335). -/
def drawFrags (e : Env) (lm : LocalMem) (frs : List Frag) : LocalMem := frs.foldl (processFragment e) lm

/-- The draw state of the next primitive (R222, R314). -/
def State.env (s : State) : Env := Env.of s.regs s.cfg

/-- The vertex queue with the vertex of a kick appended (R310). -/
def State.queued (s : State) (p : KickFields) : VertexQueue := s.vq.push (makeVertex p s.regs)

/-- `draw(prim)` for the primitive in a queue's slots (R314). -/
def State.draw (s : State) (q : VertexQueue) : State :=
  match refusalReason s.env s.regs.primType q.slot with
  | some r => s.refuse r
  | none => { s with lm := drawFrags s.env s.lm (primFrags s.env s.regs.primType q.slot) }

/-- `kick(p, discard)` (R310, R311): the vertex is queued and, when that completes a primitive, the primitive is drawn
unless discarded and the queue rotates. -/
def State.kick (s : State) (p : KickFields) (discard : Bool) : State :=
  let q := s.queued p
  if q.k = s.regs.primType.count then
    { (if discard then s else s.draw q) with vq := q.rotate s.regs.primType }
  else { s with vq := q }

end Sys2Proof.Machine
end

