-- ==== Sys2Proof/Machine/VertexRegs.lean ====
section
/-! DEFINITION. The vertex registers: PRIM, the vertex attributes and the kicks (R220 to R230). -/

namespace Sys2Proof.Machine

/-- `W_PRIM`: DATA is stored and the vertex queue is emptied (R220). -/
def execWPrim (d : Word) (s : State) : Host.Outcome State Fault Refusal :=
  .next { s.setReg .prim d with vq := { s.vq with k := 0 } }

/-- `W_RGBAQ`: DATA is stored in the raw bank (R223, R221). -/
def execWRgbaq (d : Word) (s : State) : Host.Outcome State Fault Refusal := .next (s.setReg .rgbaq d)

/-- `W_ST`: DATA is stored in the raw bank (R224, R221). -/
def execWSt (d : Word) (s : State) : Host.Outcome State Fault Refusal := .next (s.setReg .st d)

/-- `W_UV`: DATA is stored in the raw bank (R225, R221). -/
def execWUv (d : Word) (s : State) : Host.Outcome State Fault Refusal := .next (s.setReg .uv d)

/-- `W_XYZF2`: DATA is stored and a vertex with its own fog is kicked (R226). -/
def execWXyzf2 (d : Word) (s : State) : Host.Outcome State Fault Refusal :=
  .next ((s.setReg .xyzf2 d).kick (kickXyzf d) false)

/-- `W_XYZ2`: DATA is stored and a vertex with the fog of FOG is kicked (R227). -/
def execWXyz2 (d : Word) (s : State) : Host.Outcome State Fault Refusal :=
  .next ((s.setReg .xyz2 d).kick (kickXyz d s.regs) false)

/-- `W_XYZF3`: DATA is stored and a vertex with its own fog is kicked without drawing (R228). -/
def execWXyzf3 (d : Word) (s : State) : Host.Outcome State Fault Refusal :=
  .next ((s.setReg .xyzf3 d).kick (kickXyzf d) true)

/-- `W_XYZ3`: DATA is stored and a vertex with the fog of FOG is kicked without drawing (R229). -/
def execWXyz3 (d : Word) (s : State) : Host.Outcome State Fault Refusal :=
  .next ((s.setReg .xyz3 d).kick (kickXyz d s.regs) true)

/-- `W_FOG`: DATA is stored in the raw bank (R230, R221). -/
def execWFog (d : Word) (s : State) : Host.Outcome State Fault Refusal := .next (s.setReg .fog d)

end Sys2Proof.Machine
end

