-- ==== Sys2Proof/Machine/Dispatch.lean ====
section
/-! DEFINITION. One arm per command: its meaning, called by its full name. -/

namespace Sys2Proof.Machine

/-- The meaning of a command in a state. -/
def exec (i : Instr) (s : State) : Host.Outcome State Fault Refusal :=
  match i with
  | .wPrim d => Sys2Proof.Machine.execWPrim d s
  | .wRgbaq d => Sys2Proof.Machine.execWRgbaq d s
  | .wSt d => Sys2Proof.Machine.execWSt d s
  | .wUv d => Sys2Proof.Machine.execWUv d s
  | .wXyzf2 d => Sys2Proof.Machine.execWXyzf2 d s
  | .wXyz2 d => Sys2Proof.Machine.execWXyz2 d s
  | .wTex0_1 d => Sys2Proof.Machine.execWTex0_1 d s
  | .wTex0_2 d => Sys2Proof.Machine.execWTex0_2 d s
  | .wClamp_1 d => Sys2Proof.Machine.execWClamp_1 d s
  | .wClamp_2 d => Sys2Proof.Machine.execWClamp_2 d s
  | .wFog d => Sys2Proof.Machine.execWFog d s
  | .wXyzf3 d => Sys2Proof.Machine.execWXyzf3 d s
  | .wXyz3 d => Sys2Proof.Machine.execWXyz3 d s
  | .wTex1_1 d => Sys2Proof.Machine.execWTex1_1 d s
  | .wTex1_2 d => Sys2Proof.Machine.execWTex1_2 d s
  | .wTex2_1 d => Sys2Proof.Machine.execWTex2_1 d s
  | .wTex2_2 d => Sys2Proof.Machine.execWTex2_2 d s
  | .wXyoffset_1 d => Sys2Proof.Machine.execWXyoffset_1 d s
  | .wXyoffset_2 d => Sys2Proof.Machine.execWXyoffset_2 d s
  | .wPrmodecont d => Sys2Proof.Machine.execWPrmodecont d s
  | .wPrmode d => Sys2Proof.Machine.execWPrmode d s
  | .wTexclut d => Sys2Proof.Machine.execWTexclut d s
  | .wScanmsk d => Sys2Proof.Machine.execWScanmsk d s
  | .wMiptbp1_1 d => Sys2Proof.Machine.execWMiptbp1_1 d s
  | .wMiptbp1_2 d => Sys2Proof.Machine.execWMiptbp1_2 d s
  | .wMiptbp2_1 d => Sys2Proof.Machine.execWMiptbp2_1 d s
  | .wMiptbp2_2 d => Sys2Proof.Machine.execWMiptbp2_2 d s
  | .wTexa d => Sys2Proof.Machine.execWTexa d s
  | .wFogcol d => Sys2Proof.Machine.execWFogcol d s
  | .wTexflush d => Sys2Proof.Machine.execWTexflush d s
  | .wScissor_1 d => Sys2Proof.Machine.execWScissor_1 d s
  | .wScissor_2 d => Sys2Proof.Machine.execWScissor_2 d s
  | .wAlpha_1 d => Sys2Proof.Machine.execWAlpha_1 d s
  | .wAlpha_2 d => Sys2Proof.Machine.execWAlpha_2 d s
  | .wDimx d => Sys2Proof.Machine.execWDimx d s
  | .wDthe d => Sys2Proof.Machine.execWDthe d s
  | .wColclamp d => Sys2Proof.Machine.execWColclamp d s
  | .wTest_1 d => Sys2Proof.Machine.execWTest_1 d s
  | .wTest_2 d => Sys2Proof.Machine.execWTest_2 d s
  | .wPabe d => Sys2Proof.Machine.execWPabe d s
  | .wFba_1 d => Sys2Proof.Machine.execWFba_1 d s
  | .wFba_2 d => Sys2Proof.Machine.execWFba_2 d s
  | .wFrame_1 d => Sys2Proof.Machine.execWFrame_1 d s
  | .wFrame_2 d => Sys2Proof.Machine.execWFrame_2 d s
  | .wZbuf_1 d => Sys2Proof.Machine.execWZbuf_1 d s
  | .wZbuf_2 d => Sys2Proof.Machine.execWZbuf_2 d s
  | .wBitbltbuf d => Sys2Proof.Machine.execWBitbltbuf d s
  | .wTrxpos d => Sys2Proof.Machine.execWTrxpos d s
  | .wTrxreg d => Sys2Proof.Machine.execWTrxreg d s
  | .wTrxdir d => Sys2Proof.Machine.execWTrxdir d s
  | .wHwreg d => Sys2Proof.Machine.execWHwreg d s
  | .wSignal d => Sys2Proof.Machine.execWSignal d s
  | .wFinish d => Sys2Proof.Machine.execWFinish d s
  | .wLabel d => Sys2Proof.Machine.execWLabel d s
  | .rGeneral addr => Sys2Proof.Machine.execRGeneral addr s
  | .pwPmode d => Sys2Proof.Machine.execPwPmode d s
  | .pwSmode1 d => Sys2Proof.Machine.execPwSmode1 d s
  | .pwSmode2 d => Sys2Proof.Machine.execPwSmode2 d s
  | .pwSrfsh d => Sys2Proof.Machine.execPwSrfsh d s
  | .pwSynch1 d => Sys2Proof.Machine.execPwSynch1 d s
  | .pwSynch2 d => Sys2Proof.Machine.execPwSynch2 d s
  | .pwSyncv d => Sys2Proof.Machine.execPwSyncv d s
  | .pwDispfb1 d => Sys2Proof.Machine.execPwDispfb1 d s
  | .pwDisplay1 d => Sys2Proof.Machine.execPwDisplay1 d s
  | .pwDispfb2 d => Sys2Proof.Machine.execPwDispfb2 d s
  | .pwDisplay2 d => Sys2Proof.Machine.execPwDisplay2 d s
  | .pwExtbuf d => Sys2Proof.Machine.execPwExtbuf d s
  | .pwExtdata d => Sys2Proof.Machine.execPwExtdata d s
  | .pwExtwrite d => Sys2Proof.Machine.execPwExtwrite d s
  | .pwBgcolor d => Sys2Proof.Machine.execPwBgcolor d s
  | .pwCsr d => Sys2Proof.Machine.execPwCsr d s
  | .pwImr d => Sys2Proof.Machine.execPwImr d s
  | .pwBusdir d => Sys2Proof.Machine.execPwBusdir d s
  | .pwSiglblid d => Sys2Proof.Machine.execPwSiglblid d s
  | .rPriv addr => Sys2Proof.Machine.execRPriv addr s
  | .tr => Sys2Proof.Machine.execTr s
  | .evVblankIn => Sys2Proof.Machine.execEvVblankIn s
  | .evVblankOut => Sys2Proof.Machine.execEvVblankOut s
  | .evHblank => Sys2Proof.Machine.execEvHblank s

end Sys2Proof.Machine
end

