-- ==== Sys2Proof/Machine/Step.lean ====
section
/-! DEFINITION. One step: the next command the host has issued is taken, decoded and performed (R150, R180). The block
has no program counter (R77). -/

namespace Sys2Proof.Machine

/-- One step. With no command issued the block holds its state (R546, R561). A command that decodes to no instruction
is refused or ignored (R192, R190, R191). -/
def step (s : State) : Host.Outcome State Fault Refusal :=
  match s.nextCmd with
  | none => .next s
  | some (w, t) =>
    match decode w with
    | .ok i => exec i t
    | .error r => .next (t.rejectCmd r)

/-- The state in which the host issues the given command next (log entry 1). -/
def State.withFetchWord (s : State) (nbits w : Nat) : State := { s with cmds := tableWord nbits w :: s.cmds }

end Sys2Proof.Machine
end

