-- ==== Sys2Proof/Safety.lean ====
section
/-! DEFINITION. What a safe run is and the terms statements use: a run with no refusal (R522), the invariant every
step keeps, and what a command may change. -/

namespace Sys2Proof.Machine

/-- The state has a meaning: no command of the run so far was refused (R522). -/
def State.meaningful (s : State) : Prop := s.refused = false

/-- A transfer cursor between two commands (R75, R481, R490, R500): a non-empty region, a position inside it (or past
its end while bytes of a 24-bit read are left), a transfer code in the direction's format, and the carry of a 24-bit
pixel, at most two bytes. -/
structure TransferCursor.Ok (x : TransferCursor) : Prop where
  width : x.cx < x.rrw
  height : 0 < x.rrh
  inRegion : x.cy < x.rrh ∨ (x.cy = x.rrh ∧ x.cx = 0 ∧ x.dir = .localToHost ∧ x.carry ≠ [])
  format : ∃ p, Psm.ofCode (match x.dir with | .hostToLocal => x.dpsm | .localToHost => x.spsm) = some p ∧
    (p.bits ≠ 24 → x.carry = [])
  carry : x.carry.length ≤ 2

/-- The invariant of the block between two commands. -/
structure State.Inv (s : State) : Prop where
  /-- VRAM is in its canonical form. -/
  vramWf : s.lm.vram.wf = true
  /-- The dirty set is held without repeats. -/
  dirtyRising : s.lm.dirty.Pairwise (· < ·)
  /-- Every dirty word is a word of VRAM (R9). -/
  dirtyInVram : ∀ w ∈ s.lm.dirty, w < 2 ^ 20
  /-- The queue holds fewer vertices than the primitive type needs (R312). -/
  queue : s.vq.k < s.regs.primType.count
  /-- The transfer cursor is as between commands (R75). -/
  cursor : ∀ x, s.xfer = some x → x.Ok
  /-- CSR.EDWINT is never set (R506). -/
  edwint : s.csr.edwint = false
  /-- The refusal mark is set exactly when a reason was noted (R522; log entry 5). -/
  refusedNoted : s.refused = !s.reasons.isEmpty

/-- The command stored `d` in register `r` and did nothing else: every other register, VRAM and every other field are
unchanged. -/
def StoresOnly (r : RegName) (d : Word) (s t : State) : Prop :=
  t.reg r = d ∧ (∀ r', r' ≠ r → t.reg r' = s.reg r') ∧ t = { s with regs := t.regs }

/-- Every register but those listed holds its value. -/
def KeepsRegsBut (rs : List RegName) (s t : State) : Prop := ∀ r, r ∉ rs → t.reg r = s.reg r

/-- Every byte of VRAM outside the listed words reads as before. -/
def KeepsVramBut (words : List Nat) (m m' : Memory) : Prop :=
  ∀ a, a / 4 ∉ words → m'.readByte a = m.readByte a

/-- The VRAM words a fragment of this draw state at (x, y) may write: its frame word, and its depth word unless depth
is masked. -/
def Env.fragWords (e : Env) (x y : Nat) : List Nat :=
  e.fbFmt.wordAt e.K.fbBase e.K.fbWidth x y ::
    if e.K.zMsk then [] else [e.zFmt.wordAt e.K.zBase e.K.fbWidth x y]

/-! ## Terms of the statements -/

/-- The general addresses that name no register (R190), and every address above 0xFF (R182). -/
def unnamedGeneral (a : Nat) : Bool :=
  a == 0x0B || (0x0E ≤ a && a ≤ 0x13) || (0x1D ≤ a && a ≤ 0x21) || (0x23 ≤ a && a ≤ 0x33) ||
    (0x38 ≤ a && a ≤ 0x3A) || a == 0x3C || a == 0x3E || (0x55 ≤ a && a ≤ 0x5F) || 0x63 ≤ a

/-- The bus addresses of the 19 privileged registers (R67). -/
def privAddresses : List (BitVec 32) :=
  [0x12000000#32, 0x12000010#32, 0x12000020#32, 0x12000030#32, 0x12000040#32, 0x12000050#32, 0x12000060#32,
   0x12000070#32, 0x12000080#32, 0x12000090#32, 0x120000A0#32, 0x120000B0#32, 0x120000C0#32, 0x120000D0#32,
   0x120000E0#32, 0x12001000#32, 0x12001010#32, 0x12001040#32, 0x12001080#32]

/-- The commands of this KIND and ADDR are `i`, and `i` completes by storing all 64 bits of DATA in `r`, nothing else:
every other register, every byte of VRAM and every other field of the state keeps its value. -/
def StoreCommand (kind : BitVec 4) (addr : BitVec 32) (i : Word → Instr) (r : RegName) : Prop :=
  ∀ (d : Word) (s : State), decode (cmdWord kind addr d) = .ok (i d) ∧
    ∃ t, exec (i d) s = .next t ∧ StoresOnly r d s t

/-- The vertex of a kick with these fields in a state: its colour and Q from RGBAQ, S and T from ST, U and V from UV
(R310). -/
def vertexOf (s : State) (x y : BitVec 16) (z : BitVec 32) (f : BitVec 8) : Vertex :=
  { x := x, y := y, z := z, f := f
    r := (s.reg .rgbaq).extractLsb' 0 8, g := (s.reg .rgbaq).extractLsb' 8 8, b := (s.reg .rgbaq).extractLsb' 16 8
    a := (s.reg .rgbaq).extractLsb' 24 8, q := (s.reg .rgbaq).extractLsb' 32 32
    s := (s.reg .st).extractLsb' 0 32, t := (s.reg .st).extractLsb' 32 32
    u := (s.reg .uv).extractLsb' 0 14, v := (s.reg .uv).extractLsb' 16 14 }

/-- The vertex of an XYZF2 or XYZF3 write (R226, R228). -/
def vertexXyzf (s : State) (d : Word) : Vertex :=
  vertexOf s (d.extractLsb' 0 16) (d.extractLsb' 16 16) ((d.extractLsb' 32 24).setWidth 32) (d.extractLsb' 56 8)

/-- The vertex of an XYZ2 or XYZ3 write, its fog from FOG (R227, R229). -/
def vertexXyz (s : State) (d : Word) : Vertex :=
  vertexOf s (d.extractLsb' 0 16) (d.extractLsb' 16 16) (d.extractLsb' 32 32) ((s.reg .fog).extractLsb' 56 8)

/-- The queue with one more vertex (R310). -/
def queueWith (s : State) (v : Vertex) : VertexQueue := ⟨s.vq.k + 1, s.vq.slot.setIfInBounds s.vq.k v⟩

/-- The four kicks, each with the register it stores and the vertex it takes (R226 to R229). -/
def kickCommand (s : State) (d : Word) : List (Instr × RegName × Vertex) :=
  [(.wXyzf2 d, .xyzf2, vertexXyzf s d), (.wXyz2 d, .xyz2, vertexXyz s d), (.wXyzf3 d, .xyzf3, vertexXyzf s d),
   (.wXyz3 d, .xyz3, vertexXyz s d)]

/-- The drawing kicks (R226, R227). -/
def drawingKick (s : State) (d : Word) : List (Instr × RegName × Vertex) :=
  [(.wXyzf2 d, .xyzf2, vertexXyzf s d), (.wXyz2 d, .xyz2, vertexXyz s d)]

/-- The discarding kicks (R228, R229). -/
def discardingKick (s : State) (d : Word) : List (Instr × RegName × Vertex) :=
  [(.wXyzf3 d, .xyzf3, vertexXyzf s d), (.wXyz3 d, .xyz3, vertexXyz s d)]

/-- The word address of the destination pixel of a host-to-local cursor (R490). -/
def TransferCursor.destWord (p : Psm) (x : TransferCursor) : Nat :=
  p.wordAt x.dbp x.dbw (windowCoord x.dsax x.cx) (windowCoord x.dsay x.cy)

/-- The cursor moved on by n pixels (R490). -/
def TransferCursor.moved (x : TransferCursor) : Nat → TransferCursor
  | 0 => x
  | n + 1 => (x.moved n).advance

/-- How many pixels of its region a cursor has passed. -/
def TransferCursor.passed (x : TransferCursor) : Nat := x.cy * x.rrw + x.cx

/-- A channel value of 8 bits. -/
def Byte8 (v : Int) : Prop := 0 ≤ v ∧ v ≤ 255

end Sys2Proof.Machine
end

