-- ==== Sys2Proof/Certificates/Slice0/Obligations.lean ====
section
/-! DEFINITION. The statements about the model that are to be proved. -/

section
open Sys2Proof Sys2Proof.Machine

/-! ## Commands and their words -/

/-- A step takes the next command the host has issued and, when its word decodes to a command, is that command's
meaning in the state without the word (R150, R180; the queue of issued commands is the model's, log entry 1). A word
that `withFetchWord` places runs in the very next step; with no command issued the step changes nothing (R561). -/
def Obligations.StepRunsDecodedCommand : Prop :=
  (∀ (s : State) (w : CmdWord) (rest : List CmdWord) (i : Instr), s.cmds = w :: rest → decode w = .ok i →
    step s = exec i { s with cmds := rest }) ∧
  (∀ (s : State) (nbits w : Nat) (i : Instr), decodeTableWord nbits w = some i →
    step (s.withFetchWord nbits w) = exec i s) ∧
  (∀ s : State, s.cmds = [] → step s = .next s)

/-- Words written out from R180, R181 and the address tables decode to the commands they stand for, one or more of
every family. -/
def Obligations.SpecWordsDecode : Prop :=
  decode 0x00000000000000000000000000000003#128 = .ok (.wPrim 3#64) ∧
  decode 0x00000000000000013F800000FF0000FF#128 = .ok (.wRgbaq 0x3F800000FF0000FF#64) ∧
  decode 0x00000000000000048000000700300050#128 = .ok (.wXyzf2 0x8000000700300050#64) ∧
  decode 0x000000000000000D0000000000100010#128 = .ok (.wXyz3 0x0000000000100010#64) ∧
  decode 0x00000000000000160000000000000005#128 = .ok (.wTex2_1 5#64) ∧
  decode 0x000000000000004CFFFFFFFF00000000#128 = .ok (.wFrame_1 0xFFFFFFFF00000000#64) ∧
  decode 0x00000000000000220000000000000002#128 = .ok (.wScanmsk 2#64) ∧
  decode 0x00000000000000530000000000000002#128 = .ok (.wTrxdir 2#64) ∧
  decode 0x00000000000000540102030405060708#128 = .ok (.wHwreg 0x0102030405060708#64) ∧
  decode 0x00000000000000600000FFFF00001234#128 = .ok (.wSignal 0x0000FFFF00001234#64) ∧
  decode 0x000000010000004C0000000000000000#128 = .ok (.rGeneral 0x4C#32) ∧
  decode 0x00000002120010000000000000000002#128 = .ok (.pwCsr 2#64) ∧
  decode 0x00000002120010100000000000007E00#128 = .ok (.pwImr 0x7E00#64) ∧
  decode 0x00000003120010000000000000000000#128 = .ok (.rPriv 0x12001000#32) ∧
  decode 0x00000004000000000000000000000000#128 = .ok .tr ∧
  decode 0x00000005000000000000000000000000#128 = .ok .evVblankIn ∧
  decode 0x00000006000000000000000000000000#128 = .ok .evVblankOut ∧
  decode 0x00000007000000000000000000000000#128 = .ok .evHblank ∧
  decode 0x00000008000000000000000000000000#128 = .error .badCommand ∧
  decode 0x00000010000000000000000000000003#128 = .error .badCommand ∧
  decode 0x000000000000000B0000000000000003#128 = .error .noSuchRegister ∧
  decode 0x00000002120010200000000000000003#128 = .error .noSuchRegister

/-- Decoding the word of a command, for every command and every value of its operands, gives the command back, and that
word has zero bits [127:100]. -/
def Obligations.DecodeOfEncode : Prop :=
  ∀ i : Instr, decode (encode i) = .ok i ∧ cmdReserved (encode i) = 0#28

/-- A word that decodes has one meaning: it is the word of its command in every bit the rules read, so no bit of KIND, of
the ADDR of kinds 0 to 3, or of the DATA of a write is dropped or confused (R180 to R185). That the ADDR of a TR is not
read is log entry 19. -/
def Obligations.WordHasOneMeaning : Prop :=
  ∀ (w : CmdWord) (i : Instr), decode w = .ok i →
    cmdReserved w = 0#28 ∧
    encode i = cmdWord (cmdKind w) (if cmdKind w ≤ 3#4 then cmdAddr w else 0#32)
      (if cmdKind w = 0#4 ∨ cmdKind w = 2#4 then cmdData w else 0#64)

/-- A command with a reserved KIND or with a bit of [127:100] set is refused and has no other effect (R192, R522). The
reason list and the queue of commands are the model's (log entries 1 and 5). -/
def Obligations.ReservedCommandRefused : Prop :=
  ∀ (s : State) (w : CmdWord) (rest : List CmdWord), s.cmds = w :: rest →
    (cmdReserved w ≠ 0#28 ∨ 8 ≤ (cmdKind w).toNat) →
    step s = .next { s with cmds := rest, refused := true, reasons := s.reasons ++ [.badCommand] }

/-- A write to an address that names no register is ignored, and a read of one returns a value nothing constrains and
changes nothing else (R190, R191, R523). That a read with an ADDR of 0x100 or above names no register is log entry 7; the
queue, the replies and the counter of free values are the model's (log entries 1, 4 and 9). -/
def Obligations.UnnamedAddresses : Prop :=
  (∀ (s : State) (w : CmdWord) (rest : List CmdWord), s.cmds = w :: rest → cmdReserved w = 0#28 →
    ((cmdKind w = 0#4 ∧ unnamedGeneral (cmdAddr w).toNat = true) ∨
      (cmdKind w = 2#4 ∧ cmdAddr w ∉ privAddresses)) →
    step s = .next { s with cmds := rest }) ∧
  (∀ (s : State) (addr : BitVec 32), unnamedGeneral addr.toNat = true →
    exec (.rGeneral addr) s = .next
      { s with replies := s.replies ++ [Config.freeWord s.lm.free], lm := { s.lm with free := s.lm.free + 1 } }) ∧
  (∀ (s : State) (addr : BitVec 32), addr ∉ privAddresses →
    exec (.rPriv addr) s = .next
      { s with replies := s.replies ++ [Config.freeWord s.lm.free], lm := { s.lm with free := s.lm.free + 1 } })

/-! ## Register writes and reads -/

/-- A read of a named general register returns its 64 bits and changes nothing else, in every state; and every general
register write stores all 64 bits of DATA, whatever else it does, so that a read of the same address then returns them
(R31, R32, R221, R290; the replies are the model's, log entry 9). -/
def Obligations.GeneralReadBack : Prop :=
  (∀ (addr : BitVec 32) (r : RegName) (s : State), (addr, r) ∈ generalTable →
    exec (.rGeneral addr) s = .next { s with replies := s.replies ++ [s.reg r] }) ∧
  ∀ (i : Instr) (s : State), cmdKind (encode i) = 0#4 →
    ∃ t, exec i s = .next t ∧
      exec (.rGeneral (cmdAddr (encode i))) t = .next { t with replies := t.replies ++ [cmdData (encode i)] }

/-- A read of a stored privileged register or of SIGLBLID returns its 64 bits and changes nothing else, in every state;
and every privileged register but CSR reads back the 64 bits last written (R260 to R273, R301 to R303, R306; the replies
are the model's, log entry 9). -/
def Obligations.PrivilegedReadBack : Prop :=
  (∀ (addr : BitVec 32) (r : RegName) (s : State), (addr, r) ∈ privTable →
    exec (.rPriv addr) s = .next { s with replies := s.replies ++ [s.reg r] }) ∧
  (∀ s : State, exec (.rPriv 0x12001080#32) s = .next { s with replies := s.replies ++ [s.sig] }) ∧
  ∀ (i : Instr) (s : State), cmdKind (encode i) = 2#4 → cmdAddr (encode i) ≠ 0x12001000#32 →
    ∃ t, exec i s = .next t ∧
      exec (.rPriv (cmdAddr (encode i))) t = .next { t with replies := t.replies ++ [cmdData (encode i)] }

/-- A read of CSR returns the status bits and FIELD at their places, FIFO = 0b01, the parameters REV and ID, and 0 in
every other bit; it clears nothing and changes nothing else (R68, R306). -/
def Obligations.CsrRead : Prop :=
  ∀ s : State, ∃ v : Word,
    exec (.rPriv 0x12001000#32) s = .next { s with replies := s.replies ++ [v] } ∧
    v.getLsbD 0 = s.csr.signal ∧ v.getLsbD 1 = s.csr.finish ∧ v.getLsbD 2 = s.csr.hsint ∧
    v.getLsbD 3 = s.csr.vsint ∧ v.getLsbD 4 = s.csr.edwint ∧ v.extractLsb' 5 8 = 0#8 ∧
    v.getLsbD 13 = s.csr.field ∧ v.extractLsb' 14 2 = 1#2 ∧ v.extractLsb' 16 8 = s.cfg.csrRev ∧
    v.extractLsb' 24 8 = s.cfg.csrId ∧ v.extractLsb' 32 32 = 0#32

/-- RGBAQ, ST, UV and FOG writes only store (R223, R224, R225, R230), and so do BITBLTBUF, TRXPOS and TRXREG writes: an
active transfer keeps its cursor (R256 to R258, R480). -/
def Obligations.AttributeAndTransferSetupWrites : Prop :=
  StoreCommand 0#4 0x01#32 .wRgbaq .rgbaq ∧ StoreCommand 0#4 0x02#32 .wSt .st ∧
  StoreCommand 0#4 0x03#32 .wUv .uv ∧ StoreCommand 0#4 0x0A#32 .wFog .fog ∧
  StoreCommand 0#4 0x50#32 .wBitbltbuf .bitbltbuf ∧ StoreCommand 0#4 0x51#32 .wTrxpos .trxpos ∧
  StoreCommand 0#4 0x52#32 .wTrxreg .trxreg

/-- The writes of the two drawing contexts' registers, but TEX2, only store (R231, R234 to R243). -/
def Obligations.ContextRegisterWrites : Prop :=
  StoreCommand 0#4 0x06#32 .wTex0_1 .tex0_1 ∧ StoreCommand 0#4 0x07#32 .wTex0_2 .tex0_2 ∧
  StoreCommand 0#4 0x08#32 .wClamp_1 .clamp_1 ∧ StoreCommand 0#4 0x09#32 .wClamp_2 .clamp_2 ∧
  StoreCommand 0#4 0x14#32 .wTex1_1 .tex1_1 ∧ StoreCommand 0#4 0x15#32 .wTex1_2 .tex1_2 ∧
  StoreCommand 0#4 0x18#32 .wXyoffset_1 .xyoffset_1 ∧ StoreCommand 0#4 0x19#32 .wXyoffset_2 .xyoffset_2 ∧
  StoreCommand 0#4 0x34#32 .wMiptbp1_1 .miptbp1_1 ∧ StoreCommand 0#4 0x35#32 .wMiptbp1_2 .miptbp1_2 ∧
  StoreCommand 0#4 0x36#32 .wMiptbp2_1 .miptbp2_1 ∧ StoreCommand 0#4 0x37#32 .wMiptbp2_2 .miptbp2_2 ∧
  StoreCommand 0#4 0x40#32 .wScissor_1 .scissor_1 ∧ StoreCommand 0#4 0x41#32 .wScissor_2 .scissor_2 ∧
  StoreCommand 0#4 0x42#32 .wAlpha_1 .alpha_1 ∧ StoreCommand 0#4 0x43#32 .wAlpha_2 .alpha_2 ∧
  StoreCommand 0#4 0x47#32 .wTest_1 .test_1 ∧ StoreCommand 0#4 0x48#32 .wTest_2 .test_2 ∧
  StoreCommand 0#4 0x4A#32 .wFba_1 .fba_1 ∧ StoreCommand 0#4 0x4B#32 .wFba_2 .fba_2 ∧
  StoreCommand 0#4 0x4C#32 .wFrame_1 .frame_1 ∧ StoreCommand 0#4 0x4D#32 .wFrame_2 .frame_2 ∧
  StoreCommand 0#4 0x4E#32 .wZbuf_1 .zbuf_1 ∧ StoreCommand 0#4 0x4F#32 .wZbuf_2 .zbuf_2

/-- The writes of the shared drawing registers only store (R244 to R253). -/
def Obligations.SharedRegisterWrites : Prop :=
  StoreCommand 0#4 0x1A#32 .wPrmodecont .prmodecont ∧ StoreCommand 0#4 0x1B#32 .wPrmode .prmode ∧
  StoreCommand 0#4 0x1C#32 .wTexclut .texclut ∧ StoreCommand 0#4 0x22#32 .wScanmsk .scanmsk ∧
  StoreCommand 0#4 0x3B#32 .wTexa .texa ∧ StoreCommand 0#4 0x3D#32 .wFogcol .fogcol ∧
  StoreCommand 0#4 0x44#32 .wDimx .dimx ∧ StoreCommand 0#4 0x45#32 .wDthe .dthe ∧
  StoreCommand 0#4 0x46#32 .wColclamp .colclamp ∧ StoreCommand 0#4 0x49#32 .wPabe .pabe

/-- The display register writes only store; EXTWRITE starts no write-back (R260 to R273). -/
def Obligations.DisplayRegisterWrites : Prop :=
  StoreCommand 2#4 0x12000000#32 .pwPmode .pmode ∧ StoreCommand 2#4 0x12000010#32 .pwSmode1 .smode1 ∧
  StoreCommand 2#4 0x12000020#32 .pwSmode2 .smode2 ∧ StoreCommand 2#4 0x12000030#32 .pwSrfsh .srfsh ∧
  StoreCommand 2#4 0x12000040#32 .pwSynch1 .synch1 ∧ StoreCommand 2#4 0x12000050#32 .pwSynch2 .synch2 ∧
  StoreCommand 2#4 0x12000060#32 .pwSyncv .syncv ∧ StoreCommand 2#4 0x12000070#32 .pwDispfb1 .dispfb1 ∧
  StoreCommand 2#4 0x12000080#32 .pwDisplay1 .display1 ∧ StoreCommand 2#4 0x12000090#32 .pwDispfb2 .dispfb2 ∧
  StoreCommand 2#4 0x120000A0#32 .pwDisplay2 .display2 ∧ StoreCommand 2#4 0x120000B0#32 .pwExtbuf .extbuf ∧
  StoreCommand 2#4 0x120000C0#32 .pwExtdata .extdata ∧ StoreCommand 2#4 0x120000D0#32 .pwExtwrite .extwrite ∧
  StoreCommand 2#4 0x120000E0#32 .pwBgcolor .bgcolor

/-- IMR and BUSDIR writes only store: unmasking a source whose status bit is set sends nothing (R301, R302). A SIGLBLID
write sets both IDs without a mask and changes nothing else (R303). -/
def Obligations.ControlRegisterWrites : Prop :=
  StoreCommand 2#4 0x12001010#32 .pwImr .imr ∧ StoreCommand 2#4 0x12001040#32 .pwBusdir .busdir ∧
  ∀ (d : Word) (s : State), decode (cmdWord 2#4 0x12001080#32 d) = .ok (.pwSiglblid d) ∧
    ∃ t, exec (.pwSiglblid d) s = .next t ∧ t.sig = d ∧ t = { s with sig := t.sig }

/-- A PRIM write stores DATA and empties the vertex queue, even when the type is unchanged; the slots are not cleared and
nothing else changes; type 7 is a sprite, as type 6 is (R220). -/
def Obligations.PrimWrite : Prop :=
  ∀ (d : Word) (s : State), decode (cmdWord 0#4 0x00#32 d) = .ok (.wPrim d) ∧
    ∃ t, exec (.wPrim d) s = .next t ∧ t.reg .prim = d ∧ KeepsRegsBut [.prim] s t ∧
      t.vq.k = 0 ∧ t.vq.slot = s.vq.slot ∧ t = { s with regs := t.regs, vq := t.vq } ∧
      (d.extractLsb' 0 3 = 6#3 ∨ d.extractLsb' 0 3 = 7#3 → t.regs.primType = .sprite)

/-- A TEX2 write stores DATA and replaces bits [25:20] and [63:37] of TEX0 of its context by those of DATA; the other
bits of TEX0, every other register and everything else are unchanged (R232, R233). -/
def Obligations.Tex2Write : Prop :=
  ∀ (d : Word) (s : State),
    decode (cmdWord 0#4 0x16#32 d) = .ok (.wTex2_1 d) ∧ decode (cmdWord 0#4 0x17#32 d) = .ok (.wTex2_2 d) ∧
    (∃ t, exec (.wTex2_1 d) s = .next t ∧ t.reg .tex2_1 = d ∧
      (∀ i, (t.reg .tex0_1).getLsbD i =
        if (20 ≤ i ∧ i ≤ 25) ∨ 37 ≤ i then d.getLsbD i else (s.reg .tex0_1).getLsbD i) ∧
      KeepsRegsBut [.tex2_1, .tex0_1] s t ∧ t = { s with regs := t.regs }) ∧
    (∃ t, exec (.wTex2_2 d) s = .next t ∧ t.reg .tex2_2 = d ∧
      (∀ i, (t.reg .tex0_2).getLsbD i =
        if (20 ≤ i ∧ i ≤ 25) ∨ 37 ≤ i then d.getLsbD i else (s.reg .tex0_2).getLsbD i) ∧
      KeepsRegsBut [.tex2_2, .tex0_2] s t ∧ t = { s with regs := t.regs })

/-- A TEXFLUSH write stores DATA and empties the dirty set; VRAM and everything else are unchanged (R255). -/
def Obligations.TexflushWrite : Prop :=
  ∀ (d : Word) (s : State), decode (cmdWord 0#4 0x3F#32 d) = .ok (.wTexflush d) ∧
    ∃ t, exec (.wTexflush d) s = .next t ∧ t.reg .texflush = d ∧
    KeepsRegsBut [.texflush] s t ∧ t.lm = { s.lm with dirty := [] } ∧ t = { s with regs := t.regs, lm := t.lm }

/-- A SIGNAL write stores DATA, replaces the bits of SIGID that IDMSK selects, sets CSR.SIGNAL and sends one event unless
SIGMSK masks it, whether or not the bit was set already; LBLID and everything else are unchanged (R280, R530, R531). -/
def Obligations.SignalWrite : Prop :=
  ∀ (d : Word) (s : State), decode (cmdWord 0#4 0x60#32 d) = .ok (.wSignal d) ∧
    ∃ t, exec (.wSignal d) s = .next t ∧ t.reg .signal = d ∧ KeepsRegsBut [.signal] s t ∧
      (∀ i, i < 32 → t.sig.getLsbD i = if d.getLsbD (32 + i) then d.getLsbD i else s.sig.getLsbD i) ∧
      (∀ i, 32 ≤ i → t.sig.getLsbD i = s.sig.getLsbD i) ∧
      t.csr = { s.csr with signal := true } ∧
      t.out = (if (s.reg .imr).getLsbD 8 then s.out else s.out ++ [.gsIrq .signal]) ∧
      t = { s with regs := t.regs, sig := t.sig, csr := t.csr, out := t.out }

/-- A FINISH write stores DATA, sets CSR.FINISH and sends one event unless FINISHMSK masks it. A LABEL write stores DATA
and replaces the bits of LBLID that IDMSK selects. Neither changes anything else (R281, R282). -/
def Obligations.FinishAndLabelWrites : Prop :=
  ∀ (d : Word) (s : State),
    (decode (cmdWord 0#4 0x61#32 d) = .ok (.wFinish d) ∧
      ∃ t, exec (.wFinish d) s = .next t ∧ t.reg .finish = d ∧ KeepsRegsBut [.finish] s t ∧
        t.csr = { s.csr with finish := true } ∧
        t.out = (if (s.reg .imr).getLsbD 9 then s.out else s.out ++ [.gsIrq .finish]) ∧
        t = { s with regs := t.regs, csr := t.csr, out := t.out }) ∧
    (decode (cmdWord 0#4 0x62#32 d) = .ok (.wLabel d) ∧
      ∃ t, exec (.wLabel d) s = .next t ∧ t.reg .label = d ∧ KeepsRegsBut [.label] s t ∧
        (∀ i, i < 32 →
          t.sig.getLsbD (32 + i) = if d.getLsbD (32 + i) then d.getLsbD i else s.sig.getLsbD (32 + i)) ∧
        (∀ i, i < 32 → t.sig.getLsbD i = s.sig.getLsbD i) ∧ t = { s with regs := t.regs, sig := t.sig })

/-- A CSR write without RESET clears each status bit written as 1, keeps those written as 0 and FIELD, sends no event and
changes nothing else: FLUSH and the read-only fields have no effect. With RESET it resets the block, whatever its other
bits: every register, the queue count, the cursor, the status bits, SIGLBLID and the dirty set take their values of
R560, and VRAM, the events sent, the refusal mark, REV and ID are kept (R300, R562). That the model's own fields are kept
is log entry 13. -/
def Obligations.CsrWrite : Prop :=
  ∀ (d : Word) (s : State), decode (cmdWord 2#4 0x12001000#32 d) = .ok (.pwCsr d) ∧
    ∃ t, exec (.pwCsr d) s = .next t ∧
    (d.getLsbD 9 = false →
      t.csr.signal = (if d.getLsbD 0 then false else s.csr.signal) ∧
      t.csr.finish = (if d.getLsbD 1 then false else s.csr.finish) ∧
      t.csr.hsint = (if d.getLsbD 2 then false else s.csr.hsint) ∧
      t.csr.vsint = (if d.getLsbD 3 then false else s.csr.vsint) ∧
      t.csr.edwint = (if d.getLsbD 4 then false else s.csr.edwint) ∧
      t.csr.field = s.csr.field ∧ t = { s with csr := t.csr }) ∧
    (d.getLsbD 9 = true →
      (∀ r, t.reg r = if r = .prmodecont then 1#64 else if r = .imr then 0x7F00#64 else 0#64) ∧
      t.vq.k = 0 ∧ t.xfer = none ∧ t.csr = ⟨false, false, false, false, false, false⟩ ∧ t.sig = 0#64 ∧
      t.lm.dirty = [] ∧ t.lm.vram = s.lm.vram ∧ t.out = s.out ∧ t.refused = s.refused ∧ t.cfg = s.cfg ∧
      t.reasons = s.reasons ∧ t.replies = s.replies ∧ t.cmds = s.cmds)

/-- The state after a power-on reset with any parameters and any VRAM contents: the values of R560, and the draw state
they give both contexts: PSMCT32 and PSMZ32 buffers at word 0 of width 0, a scissor of the one pixel (0, 0), no alpha,
destination-alpha or depth test, no blend. -/
def Obligations.PowerOnState : Prop :=
  ∀ (cfg : Config) (vramInit : Memory),
    let s := State.powerOn cfg vramInit
    (∀ r, s.reg r = if r = .prmodecont then 1#64 else if r = .imr then 0x7F00#64 else 0#64) ∧
    s.vq.k = 0 ∧ s.xfer = none ∧ s.lm.vram = vramInit ∧ s.csr = ⟨false, false, false, false, false, false⟩ ∧
    s.sig = 0#64 ∧ s.out = [] ∧ s.refused = false ∧ s.lm.dirty = [] ∧
    ∀ n : CtxId, frameFormat? (s.regs.ctx n).fbPsm = some .ct32 ∧ depthFormat? (s.regs.ctx n).zPsm = some .z32 ∧
      (s.regs.ctx n).fbBase = 0 ∧ (s.regs.ctx n).zBase = 0 ∧ (s.regs.ctx n).fbWidth = 0 ∧
      (∀ x y : Int, inScissor (s.regs.ctx n) (x, y) = true ↔ x = 0 ∧ y = 0) ∧
      (s.regs.ctx n).ate = false ∧ (s.regs.ctx n).date = false ∧ (s.regs.ctx n).zte = false ∧
      s.regs.attr.abe = false

/-- VBLANK_IN sets VSINT, flips FIELD and sends one event unless VSMSK masks it; HBLANK sets HSINT and sends one event
unless HSMSK masks it; VBLANK_OUT changes nothing. Every word of those kinds is that event, whatever its ADDR and DATA
(R181, R540, R541, R542). -/
def Obligations.TimingEvents : Prop :=
  (∀ (addr : BitVec 32) (d : Word), decode (cmdWord 5#4 addr d) = .ok .evVblankIn ∧
    decode (cmdWord 6#4 addr d) = .ok .evVblankOut ∧ decode (cmdWord 7#4 addr d) = .ok .evHblank) ∧
  ∀ s : State,
    (∃ t, exec .evVblankIn s = .next t ∧ t.csr = { s.csr with vsint := true, field := !s.csr.field } ∧
      t.out = (if (s.reg .imr).getLsbD 11 then s.out else s.out ++ [.gsIrq .vsint]) ∧
      t = { s with csr := t.csr, out := t.out }) ∧
    (∃ t, exec .evHblank s = .next t ∧ t.csr = { s.csr with hsint := true } ∧
      t.out = (if (s.reg .imr).getLsbD 10 then s.out else s.out ++ [.gsIrq .hsint]) ∧
      t = { s with csr := t.csr, out := t.out }) ∧
    exec .evVblankOut s = .next s

/-! ## Rules of the whole block -/

/-- No command stops the block: every command in every state, and every step, has a next state (R520, R521). -/
def Obligations.NothingStops : Prop :=
  (∀ (i : Instr) (s : State), ∃ t, exec i s = .next t) ∧ ∀ s : State, ∃ t, step s = .next t

/-- No command sends more than one event, and only SIGNAL, FINISH, VBLANK_IN and HBLANK send one, each its own (R530,
R532). -/
def Obligations.OneEventPerCommand : Prop :=
  ∀ (i : Instr) (s t : State), exec i s = .next t →
    t.out = s.out ∨
    ((∃ d, i = .wSignal d) ∧ t.out = s.out ++ [.gsIrq .signal]) ∨
    ((∃ d, i = .wFinish d) ∧ t.out = s.out ++ [.gsIrq .finish]) ∨
    (i = .evVblankIn ∧ t.out = s.out ++ [.gsIrq .vsint]) ∨ (i = .evHblank ∧ t.out = s.out ++ [.gsIrq .hsint])

/-- A status bit of CSR is set by its own source only and cleared by a CSR write only; EDWINT is set by nothing; FIELD
changes only at VBLANK_IN and at a reset (R68, R72, R300, R506). -/
def Obligations.StatusBitsChangeOnlyBySource : Prop :=
  ∀ (i : Instr) (s t : State), exec i s = .next t →
    (t.csr.signal = true → s.csr.signal = true ∨ ∃ d, i = .wSignal d) ∧
    (t.csr.finish = true → s.csr.finish = true ∨ ∃ d, i = .wFinish d) ∧
    (t.csr.hsint = true → s.csr.hsint = true ∨ i = .evHblank) ∧
    (t.csr.vsint = true → s.csr.vsint = true ∨ i = .evVblankIn) ∧
    (t.csr.edwint = true → s.csr.edwint = true) ∧
    ((∀ d, i ≠ .pwCsr d) → (s.csr.signal = true → t.csr.signal = true) ∧ (s.csr.finish = true → t.csr.finish = true) ∧
      (s.csr.hsint = true → t.csr.hsint = true) ∧ (s.csr.vsint = true → t.csr.vsint = true) ∧
      (s.csr.edwint = true → t.csr.edwint = true)) ∧
    (t.csr.field ≠ s.csr.field → i = .evVblankIn ∨ ∃ d, i = .pwCsr d ∧ d.getLsbD 9 = true)

/-- A step never clears the refusal mark, never takes back an event or a value returned to the host, and never changes the
parameters (R79, R522, R562; the replies are the model's, log entry 9). -/
def Obligations.RefusalSticksAndOutputsGrow : Prop :=
  ∀ s t : State, step s = .next t →
    (s.refused = true → t.refused = true) ∧ s.out <+: t.out ∧ s.replies <+: t.replies ∧ t.cfg = s.cfg

/-- VRAM is changed only by a drawing kick that completes a primitive which is not refused, by a local-to-local TRXDIR
write, and by an HWREG write to an active host-to-local transfer (R108, R505; that the kick notes no reason, which says
that it is not refused in a state already refused too, speaks of the model's list, log entry 5). -/
def Obligations.VramChangesOnlyByDrawingAndTransfers : Prop :=
  ∀ (i : Instr) (s t : State), exec i s = .next t → t.lm.vram ≠ s.lm.vram →
    ((∃ d, (i = .wXyz2 d ∨ i = .wXyzf2 d)) ∧ s.vq.k + 1 = s.regs.primType.count ∧ t.refused = s.refused ∧
      t.reasons = s.reasons) ∨
    (∃ d, i = .wTrxdir d ∧ d.extractLsb' 0 2 = 2#2) ∨
    (∃ d x, i = .wHwreg d ∧ s.xfer = some x ∧ x.dir = .hostToLocal)

/-- The invariant holds after a power-on reset with any parameters and any canonical VRAM contents. -/
def Obligations.InvariantAfterPowerOn : Prop :=
  State.reset.Inv ∧ ∀ (cfg : Config) (vramInit : Memory), vramInit.wf = true → (State.powerOn cfg vramInit).Inv

/-- Every step keeps the invariant: VRAM in canonical form, the dirty set without repeats and inside VRAM, fewer queued
vertices than the primitive type needs, a transfer cursor inside its region with at most two carried bytes, EDWINT
never set, and the refusal mark set exactly when a reason was noted (R74, R75, R312, R506, R575). -/
def Obligations.StepKeepsInvariant : Prop :=
  ∀ s t : State, s.Inv → step s = .next t → t.Inv

/-- With `strictTexflush` false the dirty set has no effect: two states that differ in it alone step to states that differ
in it alone. So TEXFLUSH changes nothing a later command can show (R153, R255, R575). That the two next states agree where
a rule says `any` (a value returned, a texel coordinate with q = 0) is the model's choice, log entry 4: a free value is a
function of the counter, which is equal in both. -/
def Obligations.DirtySetHasNoEffect : Prop :=
  ∀ (s t : State) (D : List Nat), s.cfg.strictTexflush = false → step s = .next t →
    ∃ t', step { s with lm := { s.lm with dirty := D } } = .next t' ∧
      { t' with lm := { t'.lm with dirty := [] } } = { t with lm := { t.lm with dirty := [] } }

/-! ## VRAM and the swizzle -/

/-- A pixel write replaces exactly the pixel's bits: it reads back as the low bits of the value, every other bit of its
word and every other word keep their value, and every pixel access lies inside one word of VRAM, for every format,
base, width and position (R102, R103, R105, R131, R132). -/
def Obligations.PixelWriteReplacesItsBits : Prop :=
  ∀ (m : Memory) (p : Psm) (bp bw x y : Nat) (v : VWord),
    p.wordAt bp bw x y < 2 ^ 20 ∧ p.bitAt bp bw x y + p.bits ≤ 32 ∧
    (∀ i, i < p.bits → ((m.writeRaw p bp bw x y v).readRaw p bp bw x y).getLsbD i = v.getLsbD i) ∧
    ((m.writeRaw p bp bw x y v).readRaw p bp bw x y).toNat < 2 ^ p.bits ∧
    (∀ i, i < p.bitAt bp bw x y ∨ (p.bitAt bp bw x y + p.bits ≤ i ∧ i < 32) →
      ((m.writeRaw p bp bw x y v).readWord (p.wordAt bp bw x y)).getLsbD i =
        (m.readWord (p.wordAt bp bw x y)).getLsbD i) ∧
    (∀ a, a / 4 ≠ p.wordAt bp bw x y → (m.writeRaw p bp bw x y v).readByte a = m.readByte a)

/-- A 24-bit access reads bits [23:0] of its word, and writes them leaving bits [31:24] unchanged (R104). -/
def Obligations.AccessOf24Bits : Prop :=
  ∀ (m : Memory) (p : Psm) (bp bw x y : Nat) (v : VWord), p = .ct24 ∨ p = .z24 →
    m.readRaw p bp bw x y = ((m.readWord (p.wordAt bp bw x y)).extractLsb' 0 24).setWidth 32 ∧
    (m.writeRaw p bp bw x y v).readWord (p.wordAt bp bw x y) =
      (m.readWord (p.wordAt bp bw x y)).extractLsb' 24 8 ++ v.extractLsb' 0 24

/-- Within one page every swizzle is a bijection: for a base on a page boundary inside VRAM the page's pixels take each
element of the page exactly once (R123). -/
def Obligations.SwizzleIsBijectiveInPage : Prop :=
  ∀ (p : Psm) (bp bw : Nat), bp % 32 = 0 → bp < 2 ^ 14 →
    (∀ x y, x < p.pageW → y < p.pageH →
      bp * (2048 / p.elem) ≤ p.swz bp bw x y ∧ p.swz bp bw x y < (bp + 32) * (2048 / p.elem)) ∧
    (∀ a, bp * (2048 / p.elem) ≤ a → a < (bp + 32) * (2048 / p.elem) →
      ∃ x y, (x < p.pageW ∧ y < p.pageH ∧ p.swz bp bw x y = a) ∧
        ∀ x' y', x' < p.pageW → y' < p.pageH → p.swz bp bw x' y' = a → x' = x ∧ y' = y)

/-! ## Primitive assembly -/

/-- A kick that does not complete a primitive stores its register and queues the vertex of its own coordinates and the
attributes in force; it draws nothing, and every other register, VRAM and every other field are unchanged. So for each
of the four kicks (R226 to R229, R310, R316). -/
def Obligations.KickQueuesVertex : Prop :=
  ∀ (d : Word) (s : State), s.vq.k + 1 ≠ s.regs.primType.count →
    ∀ c ∈ kickCommand s d, ∃ t, exec c.1 s = .next t ∧ t.reg c.2.1 = d ∧ KeepsRegsBut [c.2.1] s t ∧
      t.vq = queueWith s c.2.2 ∧ t = { s with regs := t.regs, vq := t.vq }

/-- A drawing kick that completes a primitive which is not refused draws its fragments in order from the registers in
force, rotates the queue and changes nothing else: the kick's register is its DATA, the other registers and fields are
unchanged, and so is every byte of VRAM outside the frame and depth words of the fragments (R222, R226, R227, R310,
R313, R314, R430). -/
def Obligations.KickDraws : Prop :=
  ∀ (d : Word) (s : State), s.vq.k + 1 = s.regs.primType.count →
    ∀ c ∈ drawingKick s d, let regs := s.regs.write c.2.1 d
      let e := Env.of regs s.cfg
      let frags := primFrags e regs.primType (queueWith s c.2.2).slot
      refusalReason e regs.primType (queueWith s c.2.2).slot = none →
      ∃ t, exec c.1 s = .next t ∧ t.reg c.2.1 = d ∧ KeepsRegsBut [c.2.1] s t ∧
        t.vq = (queueWith s c.2.2).rotate s.regs.primType ∧ t.lm = frags.foldl (processFragment e) s.lm ∧
        KeepsVramBut (frags.flatMap (fun fr => e.fragWords fr.x.toNat fr.y.toNat)) s.lm.vram t.lm.vram ∧
        t = { s with regs := t.regs, vq := t.vq, lm := t.lm }

/-- A primitive that is refused writes no VRAM: its kick stores its register, rotates the queue, sets the refusal mark and
changes nothing else (R315, R522; the reason list is the model's, log entry 5). -/
def Obligations.RefusedKickWritesNothing : Prop :=
  ∀ (d : Word) (s : State) (r : RefuseReason), s.vq.k + 1 = s.regs.primType.count →
    ∀ c ∈ drawingKick s d, let regs := s.regs.write c.2.1 d
      refusalReason (Env.of regs s.cfg) regs.primType (queueWith s c.2.2).slot = some r →
      ∃ t, exec c.1 s = .next t ∧ t.reg c.2.1 = d ∧ KeepsRegsBut [c.2.1] s t ∧
        t.vq = (queueWith s c.2.2).rotate s.regs.primType ∧ t.refused = true ∧ t.lm = s.lm ∧
        t = { s with regs := t.regs, vq := t.vq, refused := true, reasons := s.reasons ++ [r] }

/-- A primitive completed by XYZ3 or XYZF3 is not drawn, whatever its type, and not checked for refusal; the queue rotates
exactly as if it had been drawn (R228, R229, R311). -/
def Obligations.DiscardingKickDrawsNothing : Prop :=
  ∀ (d : Word) (s : State), s.vq.k + 1 = s.regs.primType.count →
    ∀ c ∈ discardingKick s d, ∃ t, exec c.1 s = .next t ∧ t.reg c.2.1 = d ∧ KeepsRegsBut [c.2.1] s t ∧
      t.vq = (queueWith s c.2.2).rotate s.regs.primType ∧ t = { s with regs := t.regs, vq := t.vq }

/-- The queue after each primitive type is complete (R313): points, lines, triangles and sprites empty it; a line strip
keeps the last vertex, a triangle strip the last two, a fan the first and the last. -/
def Obligations.QueueRotation : Prop :=
  ∀ q : VertexQueue,
    (q.rotate .point).k = 0 ∧ (q.rotate .line).k = 0 ∧ (q.rotate .triangle).k = 0 ∧ (q.rotate .sprite).k = 0 ∧
    ((q.rotate .lineStrip).k = 1 ∧ (q.rotate .lineStrip).slot[0] = q.slot[1]) ∧
    ((q.rotate .triStrip).k = 2 ∧ (q.rotate .triStrip).slot[0] = q.slot[1] ∧
      (q.rotate .triStrip).slot[1] = q.slot[2]) ∧
    ((q.rotate .triFan).k = 2 ∧ (q.rotate .triFan).slot[0] = q.slot[0] ∧ (q.rotate .triFan).slot[1] = q.slot[2])

/-- The reason a primitive is refused is the first condition of R315 that holds, and none when none holds, each condition
written out on the registers' fields; that S, T and Q patterns a primitive uses are those of `usedStq` is log entry
8. -/
def Obligations.RefusalIsFirstCondition : Prop :=
  ∀ (e : Env) (t : PrimType) (slot : Vector Vertex 4),
    refusalReason e t slot =
      (([(e.attr.aa1, RefuseReason.antialiasing),
        (field (e.regs.read .scanmsk) 1 0 == 1, .reservedScanMask),
        (!([0x00, 0x01, 0x02, 0x0A, 0x30, 0x31, 0x32, 0x3A].contains e.K.fbPsm), .badFramePsm),
        ((!e.K.zMsk || (e.K.zte && (e.K.ztst == 2 || e.K.ztst == 3))) && !([0x0, 0x1, 0x2, 0xA].contains e.K.zPsm4),
          .badDepthPsm),
        (e.attr.abe && (e.K.alphaA == 3 || e.K.alphaB == 3 || e.K.alphaC == 3 || e.K.alphaD == 3),
          .reservedBlendCode),
        (e.attr.tme &&
          (!([0x00, 0x01, 0x02, 0x0A, 0x13, 0x14, 0x1B, 0x24, 0x2C, 0x30, 0x31, 0x32, 0x3A].contains e.K.texPsm) ||
            10 < e.K.tw || 10 < e.K.th), .badTexture),
        (e.attr.tme && [0x13, 0x14, 0x1B, 0x24, 0x2C].contains e.K.texPsm &&
          (!([0x0, 0x2, 0xA].contains e.K.cpsm) || (e.K.csm && e.K.cpsm == 0) || e.K.csa != 0), .badClut),
        (e.attr.tme && !e.attr.fst && (usedStq t slot).any f32NonFinite, .nonFiniteStq)] :
        List (Bool × RefuseReason)).find? (fun c => c.1)).map (fun c => c.2)

/-! ## Rasterizer -/

/-- A Bresenham line from p0 to p1 starts at p0, ends at p1, has one pixel for each step along its longer axis, moves by
at most one pixel in each axis at a step, and stays within half a pixel of the ideal line (R345). -/
def Obligations.LineFollowsIdealLine : Prop :=
  ∀ p0 p1 : Pixel,
    let ps := linePixels p0 p1
    let m := max (p1.1 - p0.1).natAbs (p1.2 - p0.2).natAbs
    ps.length = m + 1 ∧ ps.head? = some p0 ∧ ps.getLast? = some p1 ∧
    List.IsChain (fun p q : Pixel => (q.1 - p.1).natAbs ≤ 1 ∧ (q.2 - p.2).natAbs ≤ 1) ps ∧
    ∀ p ∈ ps, 2 * ((p.1 - p0.1) * (p1.2 - p0.2) - (p.2 - p0.2) * (p1.1 - p0.1)).natAbs ≤ m

/-- A point has exactly one fragment, at its window pixel, when the scissor contains it, with all its attributes, and none
when it does not; a line's
fragments lie on its Bresenham pixels inside the scissor, in the order of the walk, each with the attributes of the
second vertex whatever IIP says (R330, R331, R340, R345). -/
def Obligations.PointAndLineFragments : Prop :=
  ∀ (e : Env) (v0 v1 : Vertex),
    (inScissor e.K (win e.K v0) = true → pointFrags e v0 =
      [⟨(win e.K v0).1, (win e.K v0).2, v0.z.toNat, v0.colour, v0.f.toNat, tcOf e.attr v0⟩]) ∧
    (inScissor e.K (win e.K v0) = false → pointFrags e v0 = []) ∧
    (lineFrags e v0 v1).map (fun fr => (fr.x, fr.y)) =
      (linePixels (win e.K v0) (win e.K v1)).filter (fun p => inScissor e.K p) ∧
    (∀ fr ∈ lineFrags e v0 v1, fr.z = v1.z.toNat ∧ fr.c = v1.colour ∧ fr.f = v1.f.toNat ∧ fr.tc = tcOf e.attr v1) ∧
    (16 * (win e.K v0).1 ≤ (v0.x.toNat : Int) - e.K.ofx ∧ (v0.x.toNat : Int) - e.K.ofx < 16 * (win e.K v0).1 + 16) ∧
    (16 * (win e.K v0).2 ≤ (v0.y.toNat : Int) - e.K.ofy ∧ (v0.y.toNat : Int) - e.K.ofy < 16 * (win e.K v0).2 + 16)

/-- A triangle covers exactly the pixels of the scissor on or inside all three of its edges, whichever way it winds, and
none when its area is 0; its fragments come by rows of rising y and in a row by rising x, so none comes twice (R335,
R350, R351, R352, R354). -/
def Obligations.TriangleCoverage : Prop :=
  ∀ (e : Env) (v0 v1 v2 : Vertex),
    let p0 := win e.K v0
    let p1 := win e.K v1
    let p2 := win e.K v2
    let area := (p1.1 - p0.1) * (p2.2 - p0.2) - (p1.2 - p0.2) * (p2.1 - p0.1)
    let side := fun (a b : Pixel) (x y : Int) => area.sign * ((b.1 - a.1) * (y - a.2) - (b.2 - a.2) * (x - a.1))
    (∀ x y : Int, (∃ fr ∈ triFrags e v0 v1 v2, fr.x = x ∧ fr.y = y) ↔
      area ≠ 0 ∧ inScissor e.K (x, y) = true ∧ 0 ≤ side p1 p2 x y ∧ 0 ≤ side p2 p0 x y ∧ 0 ≤ side p0 p1 x y) ∧
    (triFrags e v0 v1 v2).Pairwise (fun f g => f.y < g.y ∨ (f.y = g.y ∧ f.x < g.x))

/-- The attributes of a triangle's fragments: depth and fog, and with IIP the colour and with FST the texture coordinate,
are the floor of the vertices' values weighted by the edge functions over the area, S, T and Q the exact quotient; without
IIP the colour is that of the last vertex. Area and weights are those of the vertices in queue order: the winding swap
changes the sign of both. Every interpolated integer lies between the smallest and the largest value of the three vertices
(R333, R350, R352, R353; `f32Rat` is the rational of a pattern, log entry 12). -/
def Obligations.TriangleAttributes : Prop :=
  ∀ (e : Env) (v0 v1 v2 : Vertex), ∀ fr ∈ triFrags e v0 v1 v2,
    let p0 := win e.K v0
    let p1 := win e.K v1
    let p2 := win e.K v2
    let weight := fun (a b : Pixel) => (b.1 - a.1) * (fr.y - a.2) - (b.2 - a.2) * (fr.x - a.1)
    let area := (p1.1 - p0.1) * (p2.2 - p0.2) - (p1.2 - p0.2) * (p2.1 - p0.1)
    let w0 := weight p1 p2
    let w1 := weight p2 p0
    let w2 := weight p0 p1
    let bary := fun (a : Vertex → Nat) => Int.fdiv (w0 * (a v0 : Int) + w1 * (a v1 : Int) + w2 * (a v2 : Int)) area
    let quotient := fun (a : Vertex → BitVec 32) =>
      ((w0 : Rat) * f32Rat (a v0) + (w1 : Rat) * f32Rat (a v1) + (w2 : Rat) * f32Rat (a v2)) / (area : Rat)
    let between := fun (v : Int) (a : Vertex → Nat) =>
      min3 (a v0) (a v1) (a v2) ≤ v ∧ v ≤ max3 (a v0) (a v1) (a v2)
    (fr.z : Int) = bary (fun v => v.z.toNat) ∧ fr.f = bary (fun v => v.f.toNat) ∧
    (e.attr.iip = true → fr.c = ⟨bary (fun v => v.r.toNat), bary (fun v => v.g.toNat), bary (fun v => v.b.toNat),
      bary (fun v => v.a.toNat)⟩) ∧
    (e.attr.iip = false → fr.c = v2.colour) ∧
    (e.attr.fst = true → fr.tc = .uv (bary (fun v => v.u.toNat)) (bary (fun v => v.v.toNat))) ∧
    (e.attr.fst = false → fr.tc =
      .stq (quotient (fun v => v.s)) (quotient (fun v => v.t)) (quotient (fun v => v.q))) ∧
    between fr.z (fun v => v.z.toNat) ∧ between fr.f (fun v => v.f.toNat) ∧
    (e.attr.iip = true →
      between fr.c.r (fun v => v.r.toNat) ∧ between fr.c.g (fun v => v.g.toNat) ∧
      between fr.c.b (fun v => v.b.toNat) ∧ between fr.c.a (fun v => v.a.toNat)) ∧
    (e.attr.fst = true → ∃ u v, fr.tc = .uv u v ∧ between u (fun v => v.u.toNat) ∧ between v (fun v => v.v.toNat))

/-- A sprite covers exactly the pixels of the scissor in the rectangle of its corners without the largest row and column,
each once, by rows of rising y and in a row by rising x; depth, alpha and fog are those of the second vertex; red, green
and blue are the floor of the colour interpolated by the mean of the two normalized positions, U with x and V with y the
floor of theirs, S and T exact and Q that of the second vertex; two corners of one colour give that colour everywhere (R333,
R335, R365, R366; `f32Rat` is the rational of a pattern, log entry 12). -/
def Obligations.SpriteFragments : Prop :=
  ∀ (e : Env) (v0 v1 : Vertex),
    let pa := win e.K v0
    let pb := win e.K v1
    (∀ x y : Int, (∃ fr ∈ spriteFrags e v0 v1, fr.x = x ∧ fr.y = y) ↔
      inScissor e.K (x, y) = true ∧ min pa.1 pb.1 ≤ x ∧ x < max pa.1 pb.1 ∧ min pa.2 pb.2 ≤ y ∧ y < max pa.2 pb.2) ∧
    (spriteFrags e v0 v1).Pairwise (fun f g => f.y < g.y ∨ (f.y = g.y ∧ f.x < g.x)) ∧
    ∀ fr ∈ spriteFrags e v0 v1,
      let dx := pb.1 - pa.1
      let dy := pb.2 - pa.2
      let lerp := fun (a b : Nat) (num den : Int) => Int.fdiv ((a : Int) * den + ((b : Int) - a) * num) den
      let along := fun (a b : BitVec 32) (num den : Int) =>
        f32Rat a + (f32Rat b - f32Rat a) * (num : Rat) / (den : Rat)
      let mean := fun (a b : Nat) => lerp a b ((fr.x - pa.1) * dy + (fr.y - pa.2) * dx) (2 * dx * dy)
      dx ≠ 0 ∧ dy ≠ 0 ∧
      fr.z = v1.z.toNat ∧ fr.f = v1.f.toNat ∧
      fr.c = ⟨mean v0.r.toNat v1.r.toNat, mean v0.g.toNat v1.g.toNat, mean v0.b.toNat v1.b.toNat, v1.a.toNat⟩ ∧
      (e.attr.fst = true → fr.tc =
        .uv (lerp v0.u.toNat v1.u.toNat (fr.x - pa.1) dx) (lerp v0.v.toNat v1.v.toNat (fr.y - pa.2) dy)) ∧
      (e.attr.fst = false → fr.tc =
        .stq (along v0.s v1.s (fr.x - pa.1) dx) (along v0.t v1.t (fr.y - pa.2) dy) (f32Rat v1.q)) ∧
      (v0.r = v1.r → fr.c.r = v1.r.toNat) ∧ (v0.g = v1.g → fr.c.g = v1.g.toNat) ∧ (v0.b = v1.b → fr.c.b = v1.b.toNat)

/-! ## Texture, fog and the source colour -/

/-- The four wrap modes of a texel column and row: REPEAT, CLAMP, REGION_CLAMP (the maximum wins when the bounds cross) and
REGION_REPEAT, for every integer (R390). -/
def Obligations.WrapModes : Prop :=
  ∀ (K : Context) (c : Int),
    (K.wms = 0 → wrapU K c < 2 ^ K.tw ∧ ((2 ^ K.tw : Nat) : Int) ∣ (wrapU K c : Int) - c) ∧
    (K.wms = 1 → (wrapU K c : Int) = min (max c 0) ((2 ^ K.tw : Nat) - 1)) ∧
    (K.wms = 2 → (wrapU K c : Int) = min (max c K.minu) K.maxu) ∧
    (K.wms = 3 → ∀ i, (wrapU K c).testBit i =
      (((BitVec.ofInt 64 c).getLsbD i && K.minu.testBit i) || K.maxu.testBit i)) ∧
    (K.wmt = 0 → wrapV K c < 2 ^ K.th ∧ ((2 ^ K.th : Nat) : Int) ∣ (wrapV K c : Int) - c) ∧
    (K.wmt = 1 → (wrapV K c : Int) = min (max c 0) ((2 ^ K.th : Nat) - 1)) ∧
    (K.wmt = 2 → (wrapV K c : Int) = min (max c K.minv) K.maxv) ∧
    (K.wmt = 3 → ∀ i, (wrapV K c).testBit i =
      (((BitVec.ofInt 64 c).getLsbD i && K.minv.testBit i) || K.maxv.testBit i))

/-- A direct-colour texel decoded: the channels of R401 and the alpha expansion of TEXA of R402, for every format and
every raw value. -/
def Obligations.TexelDecode : Prop :=
  ∀ (texa : Word) (p : Psm) (raw : VWord),
    let ch := fun (lo n : Nat) => ((raw.extractLsb' lo n).toNat : Int)
    let ta0 : Int := (texa.extractLsb' 0 8).toNat
    let ta1 : Int := (texa.extractLsb' 32 8).toNat
    let aem := texa.getLsbD 15
    (p = .ct32 ∨ p = .z32 → decodeTexel texa p raw = ⟨ch 0 8, ch 8 8, ch 16 8, ch 24 8⟩) ∧
    (p = .ct24 ∨ p = .z24 → decodeTexel texa p raw =
      ⟨ch 0 8, ch 8 8, ch 16 8, if aem = true ∧ raw.extractLsb' 0 24 = 0#24 then 0 else ta0⟩) ∧
    (p = .ct16 ∨ p = .ct16s ∨ p = .z16 ∨ p = .z16s → decodeTexel texa p raw =
      ⟨ch 0 5 * 8, ch 5 5 * 8, ch 10 5 * 8,
        if raw.getLsbD 15 then ta1 else if aem = true ∧ raw.extractLsb' 0 15 = 0#15 then 0 else ta0⟩)

/-- The texture function of each TFX code with the alpha of each TCC, and fog, on channels of 8 bits, `>>` the floor shift
(R410, R415). -/
def Obligations.TextureFunctionAndFog : Prop :=
  (∀ (K : Context) (t f : Colour),
    let ch : Int → Int → Int := fun tc fc =>
      if K.tfx = 0 then min 255 ((tc * fc) >>> (7 : Nat))
      else if K.tfx = 1 then tc
      else min 255 (((tc * fc) >>> (7 : Nat)) + f.a)
    tfxColour K t f = ⟨ch t.r f.r, ch t.g f.g, ch t.b f.b,
      if K.tcc = false then f.a
      else if K.tfx = 0 then min 255 ((t.a * f.a) >>> (7 : Nat))
      else if K.tfx = 2 then min 255 (t.a + f.a)
      else t.a⟩) ∧
  (∀ (fogcol : Word) (f : Int) (c : Colour),
    fogColour fogcol f c =
      ⟨(f * c.r + (255 - f) * (fogcol.extractLsb' 0 8).toNat) >>> (8 : Nat),
        (f * c.g + (255 - f) * (fogcol.extractLsb' 8 8).toNat) >>> (8 : Nat),
        (f * c.b + (255 - f) * (fogcol.extractLsb' 16 8).toNat) >>> (8 : Nat), c.a⟩)

/-- The texture sampler, from its filter to the words it reads. The bilinear filter is the weighted sum of its four texels,
lies between the smallest and the largest of them, and is exactly the first texel at that texel's centre; a sample is that
filter of the four wrapped texels around the coordinates with MMAG = 1 and the nearest texel with MMAG = 0 (R396 to R398).
The coordinates are (U, V), or the floors of s / q and t / q scaled to the texture, or free with q = 0 (R381, R382). A texel
is decoded, or looked up for an indexed format: through a 16 by 16 table with index bits 3 and 4 exchanged, an 8 by 2 table,
or the row that TEXCLUT names (R400, R404 to R406). A read gives the bits of VRAM, but a free value for a dirty word
when `strictTexflush` is true (R575). The free values, and the numbers 0 to 7 of a fragment's reads, are the model's (log
entry 4). -/
def Obligations.BilinearBetweenTexels : Prop :=
  (∀ fu fv c00 c10 c01 c11 lo hi : Int, 0 ≤ fu → fu < 16 → 0 ≤ fv → fv < 16 →
    lo ≤ c00 → c00 ≤ hi → lo ≤ c10 → c10 ≤ hi → lo ≤ c01 → c01 ≤ hi → lo ≤ c11 → c11 ≤ hi →
    lo ≤ bilinear fu fv c00 c10 c01 c11 ∧ bilinear fu fv c00 c10 c01 c11 ≤ hi ∧
    bilinear 0 0 c00 c10 c01 c11 = c00 ∧
    bilinear fu fv c00 c10 c01 c11 =
      ((16 - fu) * (16 - fv) * c00 + fu * (16 - fv) * c10 + (16 - fu) * fv * c01 + fu * fv * c11) >>> (8 : Nat)) ∧
  (∀ (e : Env) (lm : LocalMem) (tc : TexCoord),
    let U := (texelCoord e lm.free tc).1
    let V := (texelCoord e lm.free tc).2
    let texel := fun (i j : Int) (k : Nat) => texelAt e lm (wrapU e.K i) (wrapV e.K j) k
    let u0 := (U - 8) >>> (4 : Nat)
    let v0 := (V - 8) >>> (4 : Nat)
    let fu := (U - 8) % 16
    let fv := (V - 8) % 16
    let mix := fun (ch : Colour → Int) =>
      ((16 - fu) * (16 - fv) * ch (texel u0 v0 0) + fu * (16 - fv) * ch (texel (u0 + 1) v0 1) +
        (16 - fu) * fv * ch (texel u0 (v0 + 1) 2) + fu * fv * ch (texel (u0 + 1) (v0 + 1) 3)) >>> (8 : Nat)
    (e.K.mmag = false → sampleTex e lm tc = texel (U >>> (4 : Nat)) (V >>> (4 : Nat)) 0) ∧
    (e.K.mmag = true → sampleTex e lm tc = ⟨mix Colour.r, mix Colour.g, mix Colour.b, mix Colour.a⟩)) ∧
  (∀ (e : Env) (n : Nat),
    (∀ u v, texelCoord e n (.uv u v) = (u, v)) ∧
    (∀ s t q : Rat, q ≠ 0 → ∃ U V : Int, texelCoord e n (.stq s t q) = (U, V) ∧
      (U : Rat) ≤ s / q * 2 ^ e.K.tw * 16 ∧ s / q * 2 ^ e.K.tw * 16 < U + 1 ∧
      (V : Rat) ≤ t / q * 2 ^ e.K.th * 16 ∧ t / q * 2 ^ e.K.th * 16 < V + 1) ∧
    (∀ s t : Rat, texelCoord e n (.stq s t 0) = (Config.freeU n, Config.freeV n))) ∧
  (∀ (e : Env) (lm : LocalMem) (i j k : Nat),
    let raw := readTexRaw e lm e.texFmt e.K.tbp0 e.K.tbw i j k
    let indexed := e.texFmt ∈ [Psm.t8, .t4, .t8h, .t4hl, .t4hh]
    (¬ indexed → texelAt e lm i j k = decodeTexel (e.regs.read .texa) e.texFmt raw) ∧
    (indexed → texelAt e lm i j k = clutEntry e lm raw.toNat (k + 4))) ∧
  (∀ (e : Env) (lm : LocalMem) (i k : Nat),
    let entry := fun (bw x y : Nat) =>
      decodeTexel (e.regs.read .texa) e.clutFmt (readTexRaw e lm e.clutFmt e.K.cbp bw x y k)
    let texclut := e.regs.read .texclut
    (e.K.csm = false → e.texFmt.bits = 8 → i < 256 → ∃ x y, x < 16 ∧ y < 16 ∧ clutEntry e lm i k = entry 1 x y ∧
      ∀ b, (16 * y + x).testBit b = i.testBit (if b = 3 then 4 else if b = 4 then 3 else b)) ∧
    (e.K.csm = false → e.texFmt.bits = 4 → i < 16 → clutEntry e lm i k = entry 1 (i % 8) (i / 8)) ∧
    (e.K.csm = true → clutEntry e lm i k =
      entry (field texclut 5 0) (field texclut 11 6 * 16 + i) (field texclut 21 12))) ∧
  (∀ (e : Env) (lm : LocalMem) (p : Psm) (bp bw x y k : Nat),
    (e.cfg.strictTexflush = false ∨ p.wordAt bp bw x y ∉ lm.dirty →
      readTexRaw e lm p bp bw x y k = lm.vram.readRaw p bp bw x y) ∧
    (e.cfg.strictTexflush = true → p.wordAt bp bw x y ∈ lm.dirty →
      readTexRaw e lm p bp bw x y k = Config.freeTexel lm.free k &&& lowMask p.bits))

/-- The source colour and alpha of every fragment of every primitive, textured or not, fogged or not, whatever VRAM holds
and whatever the free values are, have 8 bits (R332, R416). -/
def Obligations.SourceColourHas8Bits : Prop :=
  ∀ (e : Env) (lm : LocalMem) (t : PrimType) (slot : Vector Vertex 4), ∀ fr ∈ primFrags e t slot,
    Byte8 (sourceColour e lm fr).r ∧ Byte8 (sourceColour e lm fr).g ∧ Byte8 (sourceColour e lm fr).b ∧
    Byte8 (sourceColour e lm fr).a

/-! ## Pixel pipeline -/

/-- The eight alpha comparisons, the four fail actions, the destination-alpha test, the clamp of the fragment depth and
the four depth comparisons (R434, R435, R436, R440, R441). -/
def Obligations.PixelTests : Prop :=
  (∀ as ref : Int, alphaPass 0 as ref = false ∧ alphaPass 1 as ref = true ∧ (alphaPass 2 as ref = true ↔ as < ref) ∧
    (alphaPass 3 as ref = true ↔ as ≤ ref) ∧ (alphaPass 4 as ref = true ↔ as = ref) ∧
    (alphaPass 5 as ref = true ↔ as ≥ ref) ∧ (alphaPass 6 as ref = true ↔ as > ref) ∧
    (alphaPass 7 as ref = true ↔ as ≠ ref)) ∧
  (afailOutcome 0 = none ∧ afailOutcome 1 = some .fbOnly ∧ afailOutcome 2 = some .zbOnly ∧
    afailOutcome 3 = some .rgbOnly) ∧
  (∀ (e : Env) (d : VWord),
    (e.fbFmt = .ct32 ∨ e.fbFmt = .z32 → (datePass e d = true ↔ d.getLsbD 31 = e.K.datm)) ∧
    (e.fbFmt = .ct16 ∨ e.fbFmt = .ct16s ∨ e.fbFmt = .z16 ∨ e.fbFmt = .z16s →
      (datePass e d = true ↔ d.getLsbD 15 = e.K.datm)) ∧
    (e.fbFmt = .ct24 ∨ e.fbFmt = .z24 → datePass e d = true)) ∧
  (∀ (e : Env) (z : Nat),
    (e.zFmt = .z32 → clampZ e z = min z (2 ^ 32 - 1)) ∧ (e.zFmt = .z24 → clampZ e z = min z (2 ^ 24 - 1)) ∧
    (e.zFmt = .z16 ∨ e.zFmt = .z16s → clampZ e z = min z (2 ^ 16 - 1))) ∧
  ∀ (zf : Nat) (zd : VWord), depthPass 0 zf zd = false ∧ depthPass 1 zf zd = true ∧
    (depthPass 2 zf zd = true ↔ zf ≥ zd.toNat) ∧ (depthPass 3 zf zd = true ↔ zf > zd.toNat)

/-- A fragment is processed by the scan mask, its source colour, its tests and its writes: with SCANMSK.MSK = 2 a fragment
of an even row, with 3 one of an odd row, changes nothing; every other goes on to its tests with its source colour (R430,
R431; a textured one first uses a free value's number, log entry 4). What a fragment that reaches its tests writes: nothing when the alpha test fails with KEEP, or the destination-alpha
or the depth test fails, whatever the alpha test said; else the frame pixel for FULL, FB_ONLY and RGB_ONLY and then, for
FULL and ZB_ONLY with ZMSK = 0, the depth pixel (R430, R470). -/
def Obligations.FragmentStages : Prop :=
  (∀ (e : Env) (lm : LocalMem) (fr : Frag),
    let msk := field (e.regs.read .scanmsk) 1 0
    let y := fr.y.toNat
    let next := if e.attr.tme then { lm with free := lm.free + 1 } else lm
    ((msk = 2 ∧ y % 2 = 0) ∨ (msk = 3 ∧ y % 2 = 1) → processFragment e lm fr = lm) ∧
    (msk = 0 ∨ (msk = 2 ∧ y % 2 = 1) ∨ (msk = 3 ∧ y % 2 = 0) →
      processFragment e lm fr = testAndWrite e next fr.x.toNat y fr.z (sourceColour e lm fr))) ∧
  ∀ (e : Env) (lm : LocalMem) (x y z : Nat) (s : Colour),
    let fails := e.K.ate = true ∧ alphaPass e.K.atst s.a e.K.aref = false
    let dateFails := e.K.date = true ∧ datePass e (frameRaw e lm x y) = false
    let depthFails := e.K.zte = true ∧ depthPass e.K.ztst (clampZ e z) (depthRaw e lm x y) = false
    let c := outColour e x y s (destColour e (frameRaw e lm x y))
    let frame := fun o => writeFrame e lm x y c o
    let depth := fun l => if e.K.zMsk then l else writeDepth e l x y (clampZ e z)
    (dateFails ∨ depthFails ∨ (fails ∧ e.K.afail = 0) → testAndWrite e lm x y z s = lm) ∧
    (¬ dateFails → ¬ depthFails →
      (¬ fails → testAndWrite e lm x y z s = depth (frame .full)) ∧
      (fails → e.K.afail = 1 → testAndWrite e lm x y z s = frame .fbOnly) ∧
      (fails → e.K.afail = 2 → testAndWrite e lm x y z s = depth lm) ∧
      (fails → e.K.afail = 3 → testAndWrite e lm x y z s = frame .rgbOnly))

/-- The output colour of a channel: the blend equation with the floor shift when ABE = 1 and PABE does not exclude the
fragment, dither for a 16-bit frame with DTHE = 1, and the limit to 0..255, the low 8 bits instead when `honourColclamp`
is true and CLAMP = 0; the output alpha is As, with bit 7 set by FBA (R445, R450, R452, R455, R456, R458). -/
def Obligations.OutputColour : Prop :=
  ∀ (e : Env) (x y : Nat) (s d : Colour),
    let sel := fun (k : Nat) (cs cd : Int) => if k = 0 then cs else if k = 1 then cd else 0
    let coef : Int := if e.K.alphaC = 0 then s.a else if e.K.alphaC = 1 then d.a else e.K.alphaFix
    let blended := e.attr.abe = true ∧ ¬ ((e.regs.read .pabe).getLsbD 0 = true ∧ s.a < 0x80)
    let v := fun (cs cd : Int) =>
      (if blended then
        (((sel e.K.alphaA cs cd - sel e.K.alphaB cs cd) * coef) >>> (7 : Nat)) + sel e.K.alphaD cs cd else cs) +
      (if (e.regs.read .dthe).getLsbD 0 = true ∧ e.fbFmt.bits = 16 then dimxElem (e.regs.read .dimx) (y % 4) (x % 4)
        else 0)
    let limit := fun (w : Int) =>
      if e.cfg.honourColclamp = true ∧ (e.regs.read .colclamp).getLsbD 0 = false then w % 256 else min (max w 0) 255
    (outColour e x y s d).r = limit (v s.r d.r) ∧ (outColour e x y s d).g = limit (v s.g d.g) ∧
    (outColour e x y s d).b = limit (v s.b d.b) ∧
    (e.K.fbaBit = false → (outColour e x y s d).a = s.a) ∧
    (e.K.fbaBit = true → Byte8 s.a → (outColour e x y s d).a = if s.a < 128 then s.a + 128 else s.a)

/-- A frame write of an 8-bit colour and alpha stores, in each bit of the pixel, the packed colour's bit where the write
mask of FRAME allows it and the old bit where it does not; RGB_ONLY keeps the alpha bits too. Bit by bit for a 32-bit,
24-bit and 16-bit frame, whichever the format (R459, R460). -/
def Obligations.FrameWriteMerges : Prop :=
  ∀ (e : Env) (lm : LocalMem) (x y : Nat) (c : Colour) (o : WriteKind),
    Byte8 c.r → Byte8 c.g → Byte8 c.b → Byte8 c.a →
    let old := frameRaw e lm x y
    let new := frameRaw e (writeFrame e lm x y c o) x y
    let chan := fun (n : Int) (i : Nat) => n.toNat.testBit i
    (e.fbFmt.bits = 32 → ∀ i, i < 32 → new.getLsbD i =
      if e.K.fbMsk.getLsbD i = true ∨ (o = .rgbOnly ∧ 24 ≤ i) then old.getLsbD i
      else if i < 8 then chan c.r i else if i < 16 then chan c.g (i - 8) else if i < 24 then chan c.b (i - 16)
      else chan c.a (i - 24)) ∧
    (e.fbFmt.bits = 24 → ∀ i, i < 24 → new.getLsbD i =
      if e.K.fbMsk.getLsbD i = true then old.getLsbD i
      else if i < 8 then chan c.r i else if i < 16 then chan c.g (i - 8) else chan c.b (i - 16)) ∧
    (e.fbFmt.bits = 16 → ∀ i, i < 16 → new.getLsbD i =
      if i < 5 then (if e.K.fbMsk.getLsbD (i + 3) then old.getLsbD i else chan c.r (i + 3))
      else if i < 10 then (if e.K.fbMsk.getLsbD (i + 6) then old.getLsbD i else chan c.g (i - 2))
      else if i < 15 then (if e.K.fbMsk.getLsbD (i + 9) then old.getLsbD i else chan c.b (i - 7))
      else if e.K.fbMsk.getLsbD 31 = true ∨ o = .rgbOnly then old.getLsbD i else chan c.a 7)

/-- A fragment that writes depth leaves the clamped depth in the depth buffer, even when frame and depth name the same
word: the frame is written first; and every byte outside its frame and depth words is unchanged (R440, R465, R471). -/
def Obligations.DepthWrittenLast : Prop :=
  ∀ (e : Env) (lm : LocalMem) (x y z : Nat) (c : Colour) (o : WriteKind),
    (e.K.zMsk = false → o = .full ∨ o = .zbOnly →
      (depthRaw e (writeFragment e lm x y (clampZ e z) c o) x y).toNat = min z (2 ^ e.zFmt.bits - 1)) ∧
    KeepsVramBut (e.fragWords x y) lm.vram (writeFragment e lm x y (clampZ e z) c o).vram

/-! ## Transfers -/

/-- A TRXDIR write stores DATA and abandons the active transfer; XDIR = 0 and 1 leave a cursor at the first pixel of the
window with the registers latched and an empty carry, unless the region is empty, which leaves none, or the format is
no transfer code, which is refused as BadTransferFormat; XDIR = 3 starts nothing. VRAM and everything else are unchanged
(R259, R481, R482, R511, R522; that a refused start has stored its register and dropped the old cursor is log entry 6, the
list of reasons is the model's, log entry 5). -/
def Obligations.TransferStart : Prop :=
  ∀ (d : Word) (s : State), d.extractLsb' 0 2 ≠ 2#2 →
    let b := s.reg .bitbltbuf
    let p := s.reg .trxpos
    let g := s.reg .trxreg
    let code := if d.extractLsb' 0 2 = 0#2 then field b 61 56 else field b 29 24
    let x : TransferCursor :=
      { dir := if d.extractLsb' 0 2 = 0#2 then .hostToLocal else .localToHost
        sbp := field b 13 0, sbw := field b 21 16, spsm := field b 29 24
        dbp := field b 45 32, dbw := field b 53 48, dpsm := field b 61 56
        ssax := field p 10 0, ssay := field p 26 16, dsax := field p 42 32, dsay := field p 58 48
        rrw := field g 11 0, rrh := field g 43 32, cx := 0, cy := 0, carry := [] }
    ∃ t, exec (.wTrxdir d) s = .next t ∧ t.reg .trxdir = d ∧ KeepsRegsBut [.trxdir] s t ∧
      (d.extractLsb' 0 2 = 3#2 → t.xfer = none ∧ t.refused = s.refused ∧ t.reasons = s.reasons) ∧
      (d.extractLsb' 0 2 ≠ 3#2 → Psm.ofCode code = none →
        t.xfer = none ∧ t.refused = true ∧ t.reasons = s.reasons ++ [.badTransferFormat]) ∧
      (d.extractLsb' 0 2 ≠ 3#2 → (Psm.ofCode code).isSome → field g 11 0 = 0 ∨ field g 43 32 = 0 →
        t.xfer = none ∧ t.refused = s.refused ∧ t.reasons = s.reasons) ∧
      (d.extractLsb' 0 2 ≠ 3#2 → (Psm.ofCode code).isSome → field g 11 0 ≠ 0 → field g 43 32 ≠ 0 →
        t.xfer = some x ∧ t.refused = s.refused ∧ t.reasons = s.reasons) ∧
      t = { s with regs := t.regs, xfer := t.xfer, refused := t.refused, reasons := t.reasons }

/-- A local-to-local TRXDIR write stores DATA, copies the region and leaves no cursor. With two transfer codes of one
width: pixel after pixel, by rows, the source pixel is read from VRAM as the pixels before it left it and its bits are
written to the destination pixel, so an overlapping copy reads what it has already written. Hence every byte outside the
destination words is unchanged, and every pixel whose destination no other pixel of the region takes, and whose source word
no pixel writes, ends with the source pixel's old bits. The dirty set gains exactly the destination words and stays in
order; the counter of free values and everything else are unchanged. With a code that is none it is refused as
BadTransferFormat, with two codes of two widths as TransferWidthMismatch, and copies nothing (R481, R485, R505, R511, R522;
that a refused start has stored its register and dropped the old cursor is log entry 6, the list of reasons is the model's,
log entry 5). -/
def Obligations.LocalCopy : Prop :=
  ∀ (d : Word) (s : State), d.extractLsb' 0 2 = 2#2 →
    let b := s.reg .bitbltbuf
    let p := s.reg .trxpos
    let g := s.reg .trxreg
    let w := field g 11 0
    let h := field g 43 32
    ∃ t, exec (.wTrxdir d) s = .next t ∧ t.reg .trxdir = d ∧ KeepsRegsBut [.trxdir] s t ∧ t.xfer = none ∧
      (∀ sp dp, Psm.ofCode (field b 29 24) = some sp → Psm.ofCode (field b 61 56) = some dp → sp.bits = dp.bits →
        let sx := fun (x : Nat) => (field p 10 0 + x) % 2048
        let sy := fun (y : Nat) => (field p 26 16 + y) % 2048
        let dx := fun (x : Nat) => (field p 42 32 + x) % 2048
        let dy := fun (y : Nat) => (field p 58 48 + y) % 2048
        let read := fun (m : Memory) (x y : Nat) => m.readRaw sp (field b 13 0) (field b 21 16) (sx x) (sy y)
        let src := fun (x y : Nat) => sp.wordAt (field b 13 0) (field b 21 16) (sx x) (sy y)
        let dst := fun (x y : Nat) => dp.wordAt (field b 45 32) (field b 53 48) (dx x) (dy y)
        let place := fun (x y : Nat) => dp.swz (field b 45 32) (field b 53 48) (dx x) (dy y)
        t.refused = s.refused ∧ t.reasons = s.reasons ∧
        (∃ m : Nat → Memory, m 0 = s.lm.vram ∧ t.lm.vram = m (w * h) ∧
          ∀ i, i < w * h → m (i + 1) =
            (m i).writeRaw dp (field b 45 32) (field b 53 48) (dx (i % w)) (dy (i / w)) (read (m i) (i % w) (i / w))) ∧
        (∀ a, (∀ x y, x < w → y < h → a / 4 ≠ dst x y) → t.lm.vram.readByte a = s.lm.vram.readByte a) ∧
        (∀ x y, x < w → y < h →
          (∀ x' y', x' < w → y' < h → dst x' y' ≠ src x y ∧ (place x' y' = place x y → x' = x ∧ y' = y)) →
          t.lm.vram.readRaw dp (field b 45 32) (field b 53 48) (dx x) (dy y) = read s.lm.vram x y) ∧
        (∀ a, a ∈ t.lm.dirty ↔ a ∈ s.lm.dirty ∨ ∃ x y, x < w ∧ y < h ∧ a = dst x y) ∧
        (s.lm.dirty.Pairwise (· < ·) → t.lm.dirty.Pairwise (· < ·)) ∧ t.lm.free = s.lm.free) ∧
      (Psm.ofCode (field b 29 24) = none ∨ Psm.ofCode (field b 61 56) = none →
        t.refused = true ∧ t.reasons = s.reasons ++ [.badTransferFormat] ∧ t.lm = s.lm) ∧
      (∀ sp dp, Psm.ofCode (field b 29 24) = some sp → Psm.ofCode (field b 61 56) = some dp → sp.bits ≠ dp.bits →
        t.refused = true ∧ t.reasons = s.reasons ++ [.transferWidthMismatch] ∧ t.lm = s.lm) ∧
      t = { s with regs := t.regs, xfer := none, lm := t.lm, refused := t.refused, reasons := t.reasons }

/-- An HWREG write with no active host-to-local transfer only stores DATA (R495). With one it stores DATA and puts the
pixels it completes at the cursor, one after another: pixel i ends in the buffer with its bits unless a later pixel of
the same write takes the same place; the cursor has passed that many pixels more, at most all of the region, and is gone
when it has passed all; every byte outside the pixels' words is unchanged; the dirty set gains exactly those words and
stays in order; the counter of free values and everything else are unchanged (R265, R490, R505). -/
def Obligations.HwregWrite : Prop :=
  (∀ (d : Word) (s : State), (∀ x, s.xfer = some x → x.dir ≠ .hostToLocal) →
    ∃ t, exec (.wHwreg d) s = .next t ∧ StoresOnly .hwreg d s t) ∧
  ∀ (d : Word) (s : State) (x : TransferCursor) (p : Psm), s.xfer = some x → x.Ok → x.dir = .hostToLocal →
    Psm.ofCode x.dpsm = some p →
    let pixels := (unpackData p x.carry d).1
    let n := min pixels.length (x.rrh * x.rrw - x.passed)
    ∃ t, exec (.wHwreg d) s = .next t ∧ t.reg .hwreg = d ∧ KeepsRegsBut [.hwreg] s t ∧
      (t.xfer = none ↔ x.passed + n = x.rrh * x.rrw) ∧
      (∀ x', t.xfer = some x' → x' = { x.moved n with carry := (unpackData p x.carry d).2 }) ∧
      (∀ (i : Nat) (v : VWord), i < n → pixels[i]? = some v →
        (∀ j, i < j → j < n →
          p.swz x.dbp x.dbw (windowCoord x.dsax (x.moved j).cx) (windowCoord x.dsay (x.moved j).cy) ≠
            p.swz x.dbp x.dbw (windowCoord x.dsax (x.moved i).cx) (windowCoord x.dsay (x.moved i).cy)) →
        t.lm.vram.readRaw p x.dbp x.dbw (windowCoord x.dsax (x.moved i).cx) (windowCoord x.dsay (x.moved i).cy) =
          v &&& lowMask p.bits) ∧
      (∀ a, (∀ i, i < n → a / 4 ≠ (x.moved i).destWord p) → t.lm.vram.readByte a = s.lm.vram.readByte a) ∧
      (∀ a, a ∈ t.lm.dirty ↔ a ∈ s.lm.dirty ∨ ∃ i, i < n ∧ a = (x.moved i).destWord p) ∧
      (s.lm.dirty.Pairwise (· < ·) → t.lm.dirty.Pairwise (· < ·)) ∧ t.lm.free = s.lm.free ∧
      t = { s with regs := t.regs, xfer := t.xfer, lm := t.lm }

/-- The pixels of a data word: for 32, 16, 8 and 4 bits, the word cut from its least significant end; for 24 bits, the
stream of carried bytes and the word's bytes, the least significant first, cut into groups of three, with 0, 1 or 2
bytes left over and none lost (R490, R491). -/
def Obligations.DataWordPixels : Prop :=
  ∀ (p : Psm) (carry : List Byte) (d : Word),
    (p.bits ≠ 24 → (unpackData p carry d).2 = carry ∧ (unpackData p carry d).1.length = 64 / p.bits ∧
      ∀ i, i < 64 / p.bits → ∃ v, (unpackData p carry d).1[i]? = some v ∧
        ∀ j, v.getLsbD j = (decide (j < p.bits) && d.getLsbD (i * p.bits + j))) ∧
    (p.bits = 24 →
      ((unpackData p carry d).1.flatMap
        (fun v => [v.extractLsb' 0 8, v.extractLsb' 8 8, v.extractLsb' 16 8])) ++ (unpackData p carry d).2 =
        carry ++ (List.range 8).map (fun i => d.extractLsb' (8 * i) 8) ∧
      (∀ v ∈ (unpackData p carry d).1, v.toNat < 2 ^ 24) ∧
      (unpackData p carry d).2.length = (carry.length + 8) % 3)

/-- TR returns one value. With no active local-to-host transfer nothing constrains it and nothing else changes. With one,
VRAM is unchanged and, for a format of w ≠ 24 bits, the value holds the next 64 / w pixels from its least significant
end, 0 for those past the region; the cursor has passed that many more, at most all, and is gone when it has passed all
(R184, R500). The replies and the counter of free values are the model's (log entries 4 and 9). -/
def Obligations.TransferReadReturnsPixels : Prop :=
  ∀ s : State,
    ((∀ x, s.xfer = some x → x.dir ≠ .localToHost) →
      exec .tr s = .next
        { s with replies := s.replies ++ [Config.freeWord s.lm.free], lm := { s.lm with free := s.lm.free + 1 } }) ∧
    (∀ (x : TransferCursor) (p : Psm), s.xfer = some x → x.Ok → x.dir = .localToHost → Psm.ofCode x.spsm = some p →
      ∃ t v, exec .tr s = .next t ∧ t = { s with xfer := t.xfer, replies := s.replies ++ [v] } ∧
        (p.bits ≠ 24 →
          (∀ i, i < 64 / p.bits → ∀ j, j < p.bits → v.getLsbD (i * p.bits + j) =
            (decide (x.passed + i < x.rrh * x.rrw) &&
              (s.lm.vram.readRaw p x.sbp x.sbw (windowCoord x.ssax (x.moved i).cx)
                (windowCoord x.ssay (x.moved i).cy)).getLsbD j)) ∧
          (t.xfer = none ↔ x.rrh * x.rrw ≤ x.passed + 64 / p.bits) ∧
          (∀ x', t.xfer = some x' → x' = x.moved (64 / p.bits))))

/-- The 24-bit local-to-host reads give the pixels' bytes as one stream, the least significant byte of each pixel first:
the bytes of the value and the new carry are the old carry and the bytes of the pixels passed, padded with 0 past the
region's last byte, and the transfer ends when no pixel and no byte is left (R500). -/
def Obligations.TransferRead24Stream : Prop :=
  ∀ (s : State) (x : TransferCursor) (p : Psm), s.xfer = some x → x.Ok → x.dir = .localToHost →
    Psm.ofCode x.spsm = some p → p.bits = 24 →
    ∃ (t : State) (v : Word) (n : Nat) (bytes : List Byte),
      exec .tr s = .next t ∧ t = { s with xfer := t.xfer, replies := s.replies ++ [v] } ∧
      x.passed + n ≤ x.rrh * x.rrw ∧ (8 ≤ x.carry.length + 3 * n ∨ x.passed + n = x.rrh * x.rrw) ∧
      bytes = x.carry ++ (List.range n).flatMap (fun i =>
        let q := s.lm.vram.readRaw p x.sbp x.sbw (windowCoord x.ssax (x.moved i).cx)
          (windowCoord x.ssay (x.moved i).cy)
        [q.extractLsb' 0 8, q.extractLsb' 8 8, q.extractLsb' 16 8]) ∧
      (∀ i, i < 8 → v.extractLsb' (8 * i) 8 = bytes.getD i 0#8) ∧
      (t.xfer = none ↔ x.passed + n = x.rrh * x.rrw ∧ bytes.length ≤ 8) ∧
      (∀ x', t.xfer = some x' → x' = { x.moved n with carry := bytes.drop 8 })

end
end

