-- ==== Sys2Proof/Laws/PerInstr.lean ====
section
/-! SUPPORT. For each command: its word decodes to it. One lemma per constructor of `Instr`. -/

namespace Sys2Proof.Laws.DecodeEncode

set_option Elab.async false

/-- The command's word, with zero bits wherever the rules ignore them, decodes to the command (R180 to R185). -/
def Statement (i : Instr) : Prop := decode (encode i) = .ok i

/-- The fields of an assembled command word. -/
theorem fields (k : BitVec 4) (a : BitVec 32) (d : Word) :
    cmdReserved (cmdWord k a d) = 0#28 ∧ cmdKind (cmdWord k a d) = k ∧ cmdAddr (cmdWord k a d) = a ∧
      cmdData (cmdWord k a d) = d := by
  refine ⟨?_, ?_, ?_, ?_⟩ <;>
  · apply BitVec.eq_of_getLsbD_eq
    intro i hi
    simp only [cmdReserved, cmdKind, cmdAddr, cmdData, cmdWord, BitVec.getLsbD_extractLsb', BitVec.getLsbD_append, hi,
      decide_true, Bool.true_and]
    split_ifs <;> first | omega | (congr 1; omega)

theorem wPrim (d : Word) : Statement (.wPrim d) := by
  simp [Statement, encode, decode, fields, generalWrite?, orNoSuchRegister]

theorem wRgbaq (d : Word) : Statement (.wRgbaq d) := by
  simp [Statement, encode, decode, fields, generalWrite?, orNoSuchRegister]

theorem wSt (d : Word) : Statement (.wSt d) := by
  simp [Statement, encode, decode, fields, generalWrite?, orNoSuchRegister]

theorem wUv (d : Word) : Statement (.wUv d) := by
  simp [Statement, encode, decode, fields, generalWrite?, orNoSuchRegister]

theorem wXyzf2 (d : Word) : Statement (.wXyzf2 d) := by
  simp [Statement, encode, decode, fields, generalWrite?, orNoSuchRegister]

theorem wXyz2 (d : Word) : Statement (.wXyz2 d) := by
  simp [Statement, encode, decode, fields, generalWrite?, orNoSuchRegister]

theorem wTex0_1 (d : Word) : Statement (.wTex0_1 d) := by
  simp [Statement, encode, decode, fields, generalWrite?, orNoSuchRegister]

theorem wTex0_2 (d : Word) : Statement (.wTex0_2 d) := by
  simp [Statement, encode, decode, fields, generalWrite?, orNoSuchRegister]

theorem wClamp_1 (d : Word) : Statement (.wClamp_1 d) := by
  simp [Statement, encode, decode, fields, generalWrite?, orNoSuchRegister]

theorem wClamp_2 (d : Word) : Statement (.wClamp_2 d) := by
  simp [Statement, encode, decode, fields, generalWrite?, orNoSuchRegister]

theorem wFog (d : Word) : Statement (.wFog d) := by
  simp [Statement, encode, decode, fields, generalWrite?, orNoSuchRegister]

theorem wXyzf3 (d : Word) : Statement (.wXyzf3 d) := by
  simp [Statement, encode, decode, fields, generalWrite?, orNoSuchRegister]

theorem wXyz3 (d : Word) : Statement (.wXyz3 d) := by
  simp [Statement, encode, decode, fields, generalWrite?, orNoSuchRegister]

theorem wTex1_1 (d : Word) : Statement (.wTex1_1 d) := by
  simp [Statement, encode, decode, fields, generalWrite?, orNoSuchRegister]

theorem wTex1_2 (d : Word) : Statement (.wTex1_2 d) := by
  simp [Statement, encode, decode, fields, generalWrite?, orNoSuchRegister]

theorem wTex2_1 (d : Word) : Statement (.wTex2_1 d) := by
  simp [Statement, encode, decode, fields, generalWrite?, orNoSuchRegister]

theorem wTex2_2 (d : Word) : Statement (.wTex2_2 d) := by
  simp [Statement, encode, decode, fields, generalWrite?, orNoSuchRegister]

theorem wXyoffset_1 (d : Word) : Statement (.wXyoffset_1 d) := by
  simp [Statement, encode, decode, fields, generalWrite?, orNoSuchRegister]

theorem wXyoffset_2 (d : Word) : Statement (.wXyoffset_2 d) := by
  simp [Statement, encode, decode, fields, generalWrite?, orNoSuchRegister]

theorem wPrmodecont (d : Word) : Statement (.wPrmodecont d) := by
  simp [Statement, encode, decode, fields, generalWrite?, orNoSuchRegister]

theorem wPrmode (d : Word) : Statement (.wPrmode d) := by
  simp [Statement, encode, decode, fields, generalWrite?, orNoSuchRegister]

theorem wTexclut (d : Word) : Statement (.wTexclut d) := by
  simp [Statement, encode, decode, fields, generalWrite?, orNoSuchRegister]

theorem wScanmsk (d : Word) : Statement (.wScanmsk d) := by
  simp [Statement, encode, decode, fields, generalWrite?, orNoSuchRegister]

theorem wMiptbp1_1 (d : Word) : Statement (.wMiptbp1_1 d) := by
  simp [Statement, encode, decode, fields, generalWrite?, orNoSuchRegister]

theorem wMiptbp1_2 (d : Word) : Statement (.wMiptbp1_2 d) := by
  simp [Statement, encode, decode, fields, generalWrite?, orNoSuchRegister]

theorem wMiptbp2_1 (d : Word) : Statement (.wMiptbp2_1 d) := by
  simp [Statement, encode, decode, fields, generalWrite?, orNoSuchRegister]

theorem wMiptbp2_2 (d : Word) : Statement (.wMiptbp2_2 d) := by
  simp [Statement, encode, decode, fields, generalWrite?, orNoSuchRegister]

theorem wTexa (d : Word) : Statement (.wTexa d) := by
  simp [Statement, encode, decode, fields, generalWrite?, orNoSuchRegister]

theorem wFogcol (d : Word) : Statement (.wFogcol d) := by
  simp [Statement, encode, decode, fields, generalWrite?, orNoSuchRegister]

theorem wTexflush (d : Word) : Statement (.wTexflush d) := by
  simp [Statement, encode, decode, fields, generalWrite?, orNoSuchRegister]

theorem wScissor_1 (d : Word) : Statement (.wScissor_1 d) := by
  simp [Statement, encode, decode, fields, generalWrite?, orNoSuchRegister]

theorem wScissor_2 (d : Word) : Statement (.wScissor_2 d) := by
  simp [Statement, encode, decode, fields, generalWrite?, orNoSuchRegister]

theorem wAlpha_1 (d : Word) : Statement (.wAlpha_1 d) := by
  simp [Statement, encode, decode, fields, generalWrite?, orNoSuchRegister]

theorem wAlpha_2 (d : Word) : Statement (.wAlpha_2 d) := by
  simp [Statement, encode, decode, fields, generalWrite?, orNoSuchRegister]

theorem wDimx (d : Word) : Statement (.wDimx d) := by
  simp [Statement, encode, decode, fields, generalWrite?, orNoSuchRegister]

theorem wDthe (d : Word) : Statement (.wDthe d) := by
  simp [Statement, encode, decode, fields, generalWrite?, orNoSuchRegister]

theorem wColclamp (d : Word) : Statement (.wColclamp d) := by
  simp [Statement, encode, decode, fields, generalWrite?, orNoSuchRegister]

theorem wTest_1 (d : Word) : Statement (.wTest_1 d) := by
  simp [Statement, encode, decode, fields, generalWrite?, orNoSuchRegister]

theorem wTest_2 (d : Word) : Statement (.wTest_2 d) := by
  simp [Statement, encode, decode, fields, generalWrite?, orNoSuchRegister]

theorem wPabe (d : Word) : Statement (.wPabe d) := by
  simp [Statement, encode, decode, fields, generalWrite?, orNoSuchRegister]

theorem wFba_1 (d : Word) : Statement (.wFba_1 d) := by
  simp [Statement, encode, decode, fields, generalWrite?, orNoSuchRegister]

theorem wFba_2 (d : Word) : Statement (.wFba_2 d) := by
  simp [Statement, encode, decode, fields, generalWrite?, orNoSuchRegister]

theorem wFrame_1 (d : Word) : Statement (.wFrame_1 d) := by
  simp [Statement, encode, decode, fields, generalWrite?, orNoSuchRegister]

theorem wFrame_2 (d : Word) : Statement (.wFrame_2 d) := by
  simp [Statement, encode, decode, fields, generalWrite?, orNoSuchRegister]

theorem wZbuf_1 (d : Word) : Statement (.wZbuf_1 d) := by
  simp [Statement, encode, decode, fields, generalWrite?, orNoSuchRegister]

theorem wZbuf_2 (d : Word) : Statement (.wZbuf_2 d) := by
  simp [Statement, encode, decode, fields, generalWrite?, orNoSuchRegister]

theorem wBitbltbuf (d : Word) : Statement (.wBitbltbuf d) := by
  simp [Statement, encode, decode, fields, generalWrite?, orNoSuchRegister]

theorem wTrxpos (d : Word) : Statement (.wTrxpos d) := by
  simp [Statement, encode, decode, fields, generalWrite?, orNoSuchRegister]

theorem wTrxreg (d : Word) : Statement (.wTrxreg d) := by
  simp [Statement, encode, decode, fields, generalWrite?, orNoSuchRegister]

theorem wTrxdir (d : Word) : Statement (.wTrxdir d) := by
  simp [Statement, encode, decode, fields, generalWrite?, orNoSuchRegister]

theorem wHwreg (d : Word) : Statement (.wHwreg d) := by
  simp [Statement, encode, decode, fields, generalWrite?, orNoSuchRegister]

theorem wSignal (d : Word) : Statement (.wSignal d) := by
  simp [Statement, encode, decode, fields, generalWrite?, orNoSuchRegister]

theorem wFinish (d : Word) : Statement (.wFinish d) := by
  simp [Statement, encode, decode, fields, generalWrite?, orNoSuchRegister]

theorem wLabel (d : Word) : Statement (.wLabel d) := by
  simp [Statement, encode, decode, fields, generalWrite?, orNoSuchRegister]

theorem rGeneral (a : BitVec 32) : Statement (.rGeneral a) := by
  simp [Statement, encode, decode, fields]

theorem pwPmode (d : Word) : Statement (.pwPmode d) := by
  simp [Statement, encode, decode, fields, privWrite?, orNoSuchRegister]

theorem pwSmode1 (d : Word) : Statement (.pwSmode1 d) := by
  simp [Statement, encode, decode, fields, privWrite?, orNoSuchRegister]

theorem pwSmode2 (d : Word) : Statement (.pwSmode2 d) := by
  simp [Statement, encode, decode, fields, privWrite?, orNoSuchRegister]

theorem pwSrfsh (d : Word) : Statement (.pwSrfsh d) := by
  simp [Statement, encode, decode, fields, privWrite?, orNoSuchRegister]

theorem pwSynch1 (d : Word) : Statement (.pwSynch1 d) := by
  simp [Statement, encode, decode, fields, privWrite?, orNoSuchRegister]

theorem pwSynch2 (d : Word) : Statement (.pwSynch2 d) := by
  simp [Statement, encode, decode, fields, privWrite?, orNoSuchRegister]

theorem pwSyncv (d : Word) : Statement (.pwSyncv d) := by
  simp [Statement, encode, decode, fields, privWrite?, orNoSuchRegister]

theorem pwDispfb1 (d : Word) : Statement (.pwDispfb1 d) := by
  simp [Statement, encode, decode, fields, privWrite?, orNoSuchRegister]

theorem pwDisplay1 (d : Word) : Statement (.pwDisplay1 d) := by
  simp [Statement, encode, decode, fields, privWrite?, orNoSuchRegister]

theorem pwDispfb2 (d : Word) : Statement (.pwDispfb2 d) := by
  simp [Statement, encode, decode, fields, privWrite?, orNoSuchRegister]

theorem pwDisplay2 (d : Word) : Statement (.pwDisplay2 d) := by
  simp [Statement, encode, decode, fields, privWrite?, orNoSuchRegister]

theorem pwExtbuf (d : Word) : Statement (.pwExtbuf d) := by
  simp [Statement, encode, decode, fields, privWrite?, orNoSuchRegister]

theorem pwExtdata (d : Word) : Statement (.pwExtdata d) := by
  simp [Statement, encode, decode, fields, privWrite?, orNoSuchRegister]

theorem pwExtwrite (d : Word) : Statement (.pwExtwrite d) := by
  simp [Statement, encode, decode, fields, privWrite?, orNoSuchRegister]

theorem pwBgcolor (d : Word) : Statement (.pwBgcolor d) := by
  simp [Statement, encode, decode, fields, privWrite?, orNoSuchRegister]

theorem pwCsr (d : Word) : Statement (.pwCsr d) := by
  simp [Statement, encode, decode, fields, privWrite?, orNoSuchRegister]

theorem pwImr (d : Word) : Statement (.pwImr d) := by
  simp [Statement, encode, decode, fields, privWrite?, orNoSuchRegister]

theorem pwBusdir (d : Word) : Statement (.pwBusdir d) := by
  simp [Statement, encode, decode, fields, privWrite?, orNoSuchRegister]

theorem pwSiglblid (d : Word) : Statement (.pwSiglblid d) := by
  simp [Statement, encode, decode, fields, privWrite?, orNoSuchRegister]

theorem rPriv (a : BitVec 32) : Statement (.rPriv a) := by
  simp [Statement, encode, decode, fields]

theorem tr : Statement .tr := by
  simp [Statement, encode, decode, fields]

theorem evVblankIn : Statement .evVblankIn := by
  simp [Statement, encode, decode, fields]

theorem evVblankOut : Statement .evVblankOut := by
  simp [Statement, encode, decode, fields]

theorem evHblank : Statement .evHblank := by
  simp [Statement, encode, decode, fields]

end Sys2Proof.Laws.DecodeEncode
end

