-- ==== Sys2Proof/Laws/Decode.lean ====
section
/-! SUPPORT. What an address lookup of the decoder gives is the command whose word has that address. -/

namespace Sys2Proof

theorem encode_of_lookup {kind : BitVec 4} {a k : BitVec 32} {d : Word} {x : Instr} {r : Option Instr}
    (hx : encode x = cmdWord kind k d) (hr : ∀ i, r = some i → encode i = cmdWord kind a d) :
    ∀ i, (if a = k then some x else r) = some i → encode i = cmdWord kind a d := by
  intro i hi
  split at hi
  · next h => cases hi; rw [hx, h]
  · exact hr i hi

theorem encode_generalWrite? (a : BitVec 32) (d : Word) :
    ∀ i, generalWrite? a d = some i → encode i = cmdWord 0#4 a d := by
  unfold generalWrite?
  iterate 54 refine encode_of_lookup rfl ?_
  intro i hi
  cases hi

theorem encode_privWrite? (a : BitVec 32) (d : Word) :
    ∀ i, privWrite? a d = some i → encode i = cmdWord 2#4 a d := by
  unfold privWrite?
  iterate 19 refine encode_of_lookup rfl ?_
  intro i hi
  cases hi

end Sys2Proof
end

