-- ==== Sys2Proof/Laws/Memory.lean ====
section
/-! SUPPORT. Bytes and words of VRAM: a read after a write, the canonical form every write keeps, and that canonical
memories which read the same are the same. -/

namespace Sys2Proof.Machine

/-! ## Bytes -/

theorem Memory.readByte_unlist (m : Memory) (a b : Nat) :
    (m.unlist a).readByte b = if b = a then Memory.unlisted else m.readByte b := by
  induction m with
  | nil => simp [Memory.unlist, Memory.readByte]
  | cons c m ih =>
    obtain ⟨k, v⟩ := c
    simp only [Memory.unlist] at ih
    by_cases hk : k = a
    · subst hk
      simp only [Memory.unlist, bne_self_eq_false, Bool.false_eq_true, not_false_eq_true, List.filter_cons_of_neg, ih,
        Memory.readByte]
      split <;> simp_all
    · simp only [Memory.unlist, bne_iff_ne, ne_eq, hk, not_false_eq_true, List.filter_cons_of_pos, Memory.readByte, ih]
      by_cases hb : b = k
      · subst hb; simp [hk]
      · simp [hb]

theorem Memory.readByte_listByte (m : Memory) (a b : Nat) (v : Byte) :
    (m.listByte a v).readByte b = if b = a then v else m.readByte b := by
  induction m with
  | nil => simp [Memory.listByte, Memory.readByte]
  | cons c m ih =>
    obtain ⟨k, w⟩ := c
    simp only [Memory.listByte]
    split
    · simp [Memory.readByte]
    · split
      · next h => subst h; simp only [Memory.readByte]; split <;> rfl
      · next h1 h2 =>
        simp only [Memory.readByte, ih]
        by_cases hb : b = k
        · subst hb; simp [Ne.symm h2]
        · simp [hb]

/-- A byte reads as what was last written to it, and a write leaves every other byte alone. -/
theorem Memory.readByte_writeByte (m : Memory) (a b : Nat) (v : Byte) :
    (m.writeByte a v).readByte b = if b = a then v else m.readByte b := by
  unfold Memory.writeByte
  split
  · next h => rw [Memory.readByte_unlist, h]
  · exact Memory.readByte_listByte m a b v

/-! ## Words -/

theorem Memory.readByte_writeWord (m : Memory) (w : Nat) (v : VWord) (b : Nat) :
    (m.writeWord w v).readByte b =
      if b = 4 * w + 3 then v.extractLsb' 24 8 else if b = 4 * w + 2 then v.extractLsb' 16 8
      else if b = 4 * w + 1 then v.extractLsb' 8 8 else if b = 4 * w then v.extractLsb' 0 8 else m.readByte b := by
  simp only [Memory.writeWord, Memory.readByte_writeByte]

/-- A word write leaves every byte outside its word alone. -/
theorem Memory.readByte_writeWord_ne (m : Memory) {w b : Nat} (v : VWord) (h : b / 4 ≠ w) :
    (m.writeWord w v).readByte b = m.readByte b := by
  rw [Memory.readByte_writeWord]
  have h0 : b ≠ 4 * w := by omega
  have h1 : b ≠ 4 * w + 1 := by omega
  have h2 : b ≠ 4 * w + 2 := by omega
  have h3 : b ≠ 4 * w + 3 := by omega
  simp [h0, h1, h2, h3]

@[simp] theorem Memory.readWord_writeWord_same (m : Memory) (w : Nat) (v : VWord) :
    (m.writeWord w v).readWord w = v := by
  simp only [Memory.readWord, Memory.readByte_writeWord]
  have h1 : 4 * w + 2 ≠ 4 * w + 3 := by omega
  have h2 : 4 * w + 1 ≠ 4 * w + 3 := by omega
  have h3 : 4 * w + 1 ≠ 4 * w + 2 := by omega
  have h4 : 4 * w ≠ 4 * w + 3 := by omega
  have h5 : 4 * w ≠ 4 * w + 2 := by omega
  have h6 : 4 * w ≠ 4 * w + 1 := by omega
  simp only [if_true, if_neg h1, if_neg h2, if_neg h3, if_neg h4, if_neg h5, if_neg h6]
  apply BitVec.eq_of_getLsbD_eq
  intro i hi
  simp only [BitVec.getLsbD_append, BitVec.getLsbD_extractLsb']
  by_cases a : i < 8
  · simp [a]
  · by_cases b : i < 16
    · have : i - 8 < 8 := by omega
      have e : 8 + (i - 8) = i := by omega
      simp [a, this, e]
    · by_cases c : i < 24
      · have n1 : ¬ i - 8 < 8 := by omega
        have n2 : i - 8 - 8 < 8 := by omega
        have e : 16 + (i - 8 - 8) = i := by omega
        simp [a, n1, n2, e]
      · have n1 : ¬ i - 8 < 8 := by omega
        have n2 : ¬ i - 8 - 8 < 8 := by omega
        have n3 : i - 8 - 8 - 8 < 8 := by omega
        have e : 24 + (i - 8 - 8 - 8) = i := by omega
        simp [a, n1, n2, n3, e]

theorem Memory.readWord_writeWord_ne (m : Memory) {w w' : Nat} (v : VWord) (h : w' ≠ w) :
    (m.writeWord w v).readWord w' = m.readWord w' := by
  simp only [Memory.readWord]
  rw [Memory.readByte_writeWord_ne, Memory.readByte_writeWord_ne, Memory.readByte_writeWord_ne,
    Memory.readByte_writeWord_ne] <;> omega

theorem Memory.readWord_writeWord (m : Memory) (w w' : Nat) (v : VWord) :
    (m.writeWord w v).readWord w' = if w' = w then v else m.readWord w' := by
  split
  · next h => subst h; simp
  · next h => exact Memory.readWord_writeWord_ne m v h

/-- Byte i of a word (R102). -/
theorem Memory.extractLsb'_readWord (m : Memory) (w : Nat) {i : Nat} (hi : i < 4) :
    (m.readWord w).extractLsb' (8 * i) 8 = m.readByte (4 * w + i) := by
  apply BitVec.eq_of_getLsbD_eq
  intro j hj
  simp only [Memory.readWord, BitVec.getLsbD_extractLsb', BitVec.getLsbD_append, hj, decide_true, Bool.true_and]
  have hc : i = 0 ∨ i = 1 ∨ i = 2 ∨ i = 3 := by omega
  rcases hc with rfl | rfl | rfl | rfl
  · simp [hj]
  · have n1 : ¬ 8 * 1 + j < 8 := by omega
    have e : 8 * 1 + j - 8 = j := by omega
    simp [n1, e, hj]
  · have n1 : ¬ 8 * 2 + j < 8 := by omega
    have n2 : ¬ 8 * 2 + j - 8 < 8 := by omega
    have e : 8 * 2 + j - 8 - 8 = j := by omega
    simp [n1, n2, e, hj]
  · have n1 : ¬ 8 * 3 + j < 8 := by omega
    have n2 : ¬ 8 * 3 + j - 8 < 8 := by omega
    have n3 : ¬ 8 * 3 + j - 8 - 8 < 8 := by omega
    have e : 8 * 3 + j - 8 - 8 - 8 = j := by omega
    simp [n1, n2, n3, e]

/-- Memories whose words read the same read the same everywhere. -/
theorem Memory.readByte_eq_of_readWord {m m' : Memory} {a : Nat} (h : m'.readWord (a / 4) = m.readWord (a / 4)) :
    m'.readByte a = m.readByte a := by
  have ha : a = 4 * (a / 4) + a % 4 := by omega
  have hi : a % 4 < 4 := by omega
  rw [ha, ← Memory.extractLsb'_readWord m' _ hi, ← Memory.extractLsb'_readWord m _ hi, h]

/-! ## The canonical form -/

/-- What the canonical form says of every entry. -/
theorem Memory.wf_iff (m : Memory) :
    m.wf = true ↔ m.Pairwise (fun c d => c.1 < d.1) ∧ ∀ c ∈ m, c.1 < Memory.size ∧ c.2 ≠ Memory.unlisted := by
  induction m with
  | nil => simp [Memory.wf]
  | cons c m ih =>
    cases m with
    | nil => simp [Memory.wf]
    | cons d m =>
      simp only [Memory.wf, Bool.and_eq_true, decide_eq_true_eq, ih, bne_iff_ne, ne_eq]
      constructor
      · rintro ⟨⟨h1, h2⟩, h3, h4⟩
        refine ⟨List.pairwise_cons.2 ⟨?_, h3⟩, ?_⟩
        · intro e he
          rcases List.mem_cons.1 he with rfl | he
          · exact h1
          · exact lt_trans h1 ((List.pairwise_cons.1 h3).1 e he)
        · intro e he
          rcases List.mem_cons.1 he with rfl | he
          · exact ⟨lt_trans h1 (h4 d (by simp)).1, h2⟩
          · exact h4 e he
      · rintro ⟨h1, h2⟩
        have h3 := List.pairwise_cons.1 h1
        exact ⟨⟨h3.1 d (by simp), (h2 c (by simp)).2⟩, h3.2, fun e he => h2 e (List.mem_cons_of_mem _ he)⟩

theorem Memory.wf_unlist {m : Memory} (a : Nat) (h : m.wf = true) : (m.unlist a).wf = true := by
  rw [Memory.wf_iff] at h ⊢
  exact ⟨h.1.filter _, fun c hc => h.2 c (List.mem_filter.1 hc).1⟩

theorem Memory.mem_listByte {m : Memory} {a : Nat} {v : Byte} {c : Host.Cell} (h : c ∈ m.listByte a v) :
    c = (a, v) ∨ c ∈ m := by
  induction m with
  | nil => simpa [Memory.listByte] using h
  | cons d m ih =>
    obtain ⟨k, w⟩ := d
    simp only [Memory.listByte] at h
    split at h
    · simpa using h
    · split at h
      · simp only [List.mem_cons] at h ⊢; tauto
      · simp only [List.mem_cons] at h ⊢
        rcases h with h | h
        · tauto
        · have := ih h; tauto

theorem Memory.wf_listByte {m : Memory} {a : Nat} {v : Byte} (h : m.wf = true) (ha : a < Memory.size)
    (hv : v ≠ Memory.unlisted) : (m.listByte a v).wf = true := by
  rw [Memory.wf_iff] at h ⊢
  refine ⟨?_, fun c hc => ?_⟩
  · obtain ⟨h, -⟩ := h
    induction m with
    | nil => simp [Memory.listByte]
    | cons d m ih =>
      obtain ⟨k, w⟩ := d
      have h' := List.pairwise_cons.1 h
      simp only [Memory.listByte]
      split
      · next hlt =>
        refine List.pairwise_cons.2 ⟨fun e he => ?_, h⟩
        rcases List.mem_cons.1 he with rfl | he
        · exact hlt
        · exact lt_trans hlt (h'.1 e he)
      · split
        · next heq => subst heq; exact List.pairwise_cons.2 ⟨h'.1, h'.2⟩
        · next h1 h2 =>
          refine List.pairwise_cons.2 ⟨fun e he => ?_, ih h'.2⟩
          rcases Memory.mem_listByte he with rfl | he
          · simp only; omega
          · exact h'.1 e he
  · rcases Memory.mem_listByte hc with rfl | hc
    · exact ⟨ha, hv⟩
    · exact h.2 c hc

theorem Memory.wf_writeByte {m : Memory} {a : Nat} (v : Byte) (h : m.wf = true) (ha : a < Memory.size) :
    (m.writeByte a v).wf = true := by
  unfold Memory.writeByte
  split
  · exact Memory.wf_unlist a h
  · next hv => exact Memory.wf_listByte h ha hv

theorem Memory.wf_writeWord {m : Memory} {w : Nat} (v : VWord) (h : m.wf = true) (hw : w < 2 ^ 20) :
    (m.writeWord w v).wf = true := by
  have hs : Memory.size = 4 * 2 ^ 20 := by decide
  unfold Memory.writeWord
  refine Memory.wf_writeByte _ (Memory.wf_writeByte _ (Memory.wf_writeByte _ (Memory.wf_writeByte _ h ?_) ?_) ?_) ?_ <;>
    omega

/-- A byte the canonical list names reads as a value the list holds for it. -/
theorem Memory.readByte_of_mem {m : Memory} (h : m.Pairwise (fun c d => c.1 < d.1)) {c : Host.Cell} (hc : c ∈ m) :
    m.readByte c.1 = c.2 := by
  induction m with
  | nil => simp at hc
  | cons d m ih =>
    obtain ⟨k, w⟩ := d
    have h' := List.pairwise_cons.1 h
    simp only [Memory.readByte]
    rcases List.mem_cons.1 hc with rfl | hc
    · simp
    · have := h'.1 c hc
      have hne : c.1 ≠ k := by simp only at this; omega
      simp [hne, ih h'.2 hc]

theorem Memory.readByte_of_notMem {m : Memory} {a : Nat} (h : ∀ c ∈ m, c.1 ≠ a) :
    m.readByte a = Memory.unlisted := by
  induction m with
  | nil => rfl
  | cons d m ih =>
    obtain ⟨k, w⟩ := d
    have hk : a ≠ k := fun e => h (k, w) (by simp) e.symm
    simp only [Memory.readByte, hk, if_false]
    exact ih (fun c hc => h c (List.mem_cons_of_mem _ hc))

/-- Canonical memories that read the same are the same. -/
theorem Memory.ext_readByte {m m' : Memory} (h : m.wf = true) (h' : m'.wf = true)
    (he : ∀ a, m.readByte a = m'.readByte a) : m = m' := by
  rw [Memory.wf_iff] at h h'
  have sub : ∀ {m m' : Memory}, m.Pairwise (fun c d => c.1 < d.1) →
      (∀ c ∈ m, c.1 < Memory.size ∧ c.2 ≠ Memory.unlisted) → m'.Pairwise (fun c d => c.1 < d.1) →
      (∀ a, m.readByte a = m'.readByte a) → ∀ c ∈ m, c ∈ m' := by
    intro m m' hp hv hp' he c hc
    have h1 := Memory.readByte_of_mem hp hc
    by_contra hn
    by_cases hex : ∃ d ∈ m', d.1 = c.1
    · obtain ⟨d, hd, hdc⟩ := hex
      have h2 := Memory.readByte_of_mem hp' hd
      have : d = c := Prod.ext hdc (by rw [← h2, hdc, ← he, h1])
      exact hn (this ▸ hd)
    · have h2 : m'.readByte c.1 = Memory.unlisted :=
        Memory.readByte_of_notMem (fun d hd e => hex ⟨d, hd, e⟩)
      exact (hv c hc).2 (by rw [← h1, he, h2])
  have hperm : m.Perm m' :=
    (List.perm_ext_iff_of_nodup (h.1.imp (fun hlt e => by subst e; exact lt_irrefl _ hlt))
      (h'.1.imp (fun hlt e => by subst e; exact lt_irrefl _ hlt))).2
      (fun c => ⟨sub h.1 h.2 h'.1 he c, sub h'.1 h'.2 h.1 (fun a => (he a).symm) c⟩)
  exact hperm.eq_of_pairwise (fun a b _ _ h1 h2 => by exfalso; omega) h.1 h'.1

/-! ## Elements -/

theorem elemCount_pos {n : Nat} (h : 0 < n) (h' : n ≤ 32) : 0 < elemCount n := by
  unfold elemCount
  exact Nat.mul_pos (by decide) (Nat.div_pos h' h)

/-- Every element index names a word of VRAM (R103). -/
theorem elemWord_lt (a : Nat) {n : Nat} (h : 0 < n) (h' : n ≤ 32) : elemWord a n < 2 ^ 20 := by
  have h1 : 0 < 32 / n := Nat.div_pos h' h
  have h2 : a % elemCount n < 2 ^ 20 * (32 / n) := Nat.mod_lt _ (elemCount_pos h h')
  exact (Nat.div_lt_iff_lt_mul h1).2 h2

/-- No element reaches beyond its word (R105). -/
theorem elemShift_add_le (a : Nat) {n : Nat} (h : 0 < n) (h' : n ≤ 32) : elemShift a n + n ≤ 32 := by
  have h1 : 0 < 32 / n := Nat.div_pos h' h
  have h2 : a % (32 / n) < 32 / n := Nat.mod_lt _ h1
  have h3 : (a % (32 / n) + 1) * n ≤ 32 / n * n := Nat.mul_le_mul_right _ h2
  have h4 := Nat.div_mul_le_self 32 n
  unfold elemShift
  rw [Nat.add_mul, Nat.one_mul] at h3
  omega

theorem Memory.wf_writeElem {m : Memory} (a : Nat) {n : Nat} (v : VWord) (hm : m.wf = true) (h : 0 < n)
    (h' : n ≤ 32) : (m.writeElem a n v).wf = true :=
  Memory.wf_writeWord _ hm (elemWord_lt a h h')

/-! ## Bits of words -/

@[simp] theorem getLsbD_lowMask (n i : Nat) : (lowMask n).getLsbD i = (decide (i < n) && decide (i < 32)) := by
  simp [lowMask, BitVec.getLsbD_ofNat, Nat.testBit_two_pow_sub_one, Bool.and_comm]

@[simp] theorem getElem_lowMask (n i : Nat) (h : i < 32) : (lowMask n)[i] = decide (i < n) := by
  have := getLsbD_lowMask n i
  simpa [h, BitVec.getLsbD_eq_getElem h] using this

/-- The bits of a word after an insertion: those of the inserted value in the window, the old ones elsewhere. -/
theorem getLsbD_insertBits (w v : VWord) (s n i : Nat) (hi : i < 32) :
    (insertBits w s n v).getLsbD i = if s ≤ i ∧ i < s + n then v.getLsbD (i - s) else w.getLsbD i := by
  simp only [insertBits, BitVec.getLsbD_or, BitVec.getLsbD_and, BitVec.getLsbD_not, BitVec.getLsbD_shiftLeft,
    getLsbD_lowMask, hi, decide_true, Bool.true_and]
  by_cases h1 : i < s
  · have : ¬ (s ≤ i ∧ i < s + n) := by omega
    simp [h1, this]
  · by_cases h2 : i - s < n
    · have : s ≤ i ∧ i < s + n := by omega
      have h3 : i - s < 32 := by omega
      simp [h1, h2, this, h3]
    · have : ¬ (s ≤ i ∧ i < s + n) := by omega
      simp [h1, h2, this]

/-! ## The dirty set -/

theorem mem_insertDirty {w x : Nat} {l : List Nat} : x ∈ insertDirty w l ↔ x = w ∨ x ∈ l := by
  induction l with
  | nil => simp [insertDirty]
  | cons b t ih =>
    simp only [insertDirty]
    split
    · simp
    · split
      · next h => subst h; simp
      · simp only [List.mem_cons, ih]; tauto

theorem pairwise_insertDirty {w : Nat} {l : List Nat} (h : l.Pairwise (· < ·)) : (insertDirty w l).Pairwise (· < ·) := by
  induction l with
  | nil => simp [insertDirty]
  | cons b t ih =>
    have h' := List.pairwise_cons.1 h
    simp only [insertDirty]
    split
    · next hlt =>
      refine List.pairwise_cons.2 ⟨fun x hx => ?_, h⟩
      rcases List.mem_cons.1 hx with rfl | hx
      · exact hlt
      · exact lt_trans hlt (h'.1 x hx)
    · split
      · exact h
      · next h1 h2 =>
        refine List.pairwise_cons.2 ⟨fun x hx => ?_, ih h'.2⟩
        rcases mem_insertDirty.1 hx with rfl | hx
        · omega
        · exact h'.1 x hx

/-- Reset memory is canonical: it lists nothing. -/
theorem Memory.wf_reset : State.reset.lm.vram.wf = true := rfl

end Sys2Proof.Machine
end

