-- ==== Sys2Proof/Laws/State.lean ====
section
/-! SUPPORT. One lemma for each field of the state under each shared update, so that no proof unfolds one. -/

namespace Sys2Proof.Machine

/-! ## `State.setReg` -/

@[simp] theorem State.setReg_regs (s : State) (r : RegName) (v : Word) : (s.setReg r v).regs = s.regs.write r v := rfl

@[simp] theorem State.setReg_vq (s : State) (r : RegName) (v : Word) : (s.setReg r v).vq = s.vq := rfl

@[simp] theorem State.setReg_xfer (s : State) (r : RegName) (v : Word) : (s.setReg r v).xfer = s.xfer := rfl

@[simp] theorem State.setReg_lm (s : State) (r : RegName) (v : Word) : (s.setReg r v).lm = s.lm := rfl

@[simp] theorem State.setReg_csr (s : State) (r : RegName) (v : Word) : (s.setReg r v).csr = s.csr := rfl

@[simp] theorem State.setReg_sig (s : State) (r : RegName) (v : Word) : (s.setReg r v).sig = s.sig := rfl

@[simp] theorem State.setReg_out (s : State) (r : RegName) (v : Word) : (s.setReg r v).out = s.out := rfl

@[simp] theorem State.setReg_refused (s : State) (r : RegName) (v : Word) : (s.setReg r v).refused = s.refused := rfl

@[simp] theorem State.setReg_reasons (s : State) (r : RegName) (v : Word) : (s.setReg r v).reasons = s.reasons := rfl

@[simp] theorem State.setReg_replies (s : State) (r : RegName) (v : Word) : (s.setReg r v).replies = s.replies := rfl

@[simp] theorem State.setReg_cmds (s : State) (r : RegName) (v : Word) : (s.setReg r v).cmds = s.cmds := rfl

@[simp] theorem State.setReg_cfg (s : State) (r : RegName) (v : Word) : (s.setReg r v).cfg = s.cfg := rfl

/-! ## `State.refuse` -/

@[simp] theorem State.refuse_regs (s : State) (r : RefuseReason) : (s.refuse r).regs = s.regs := rfl

@[simp] theorem State.refuse_vq (s : State) (r : RefuseReason) : (s.refuse r).vq = s.vq := rfl

@[simp] theorem State.refuse_xfer (s : State) (r : RefuseReason) : (s.refuse r).xfer = s.xfer := rfl

@[simp] theorem State.refuse_lm (s : State) (r : RefuseReason) : (s.refuse r).lm = s.lm := rfl

@[simp] theorem State.refuse_csr (s : State) (r : RefuseReason) : (s.refuse r).csr = s.csr := rfl

@[simp] theorem State.refuse_sig (s : State) (r : RefuseReason) : (s.refuse r).sig = s.sig := rfl

@[simp] theorem State.refuse_out (s : State) (r : RefuseReason) : (s.refuse r).out = s.out := rfl

@[simp] theorem State.refuse_refused (s : State) (r : RefuseReason) : (s.refuse r).refused = true := rfl

@[simp] theorem State.refuse_reasons (s : State) (r : RefuseReason) : (s.refuse r).reasons = s.reasons ++ [r] := rfl

@[simp] theorem State.refuse_replies (s : State) (r : RefuseReason) : (s.refuse r).replies = s.replies := rfl

@[simp] theorem State.refuse_cmds (s : State) (r : RefuseReason) : (s.refuse r).cmds = s.cmds := rfl

@[simp] theorem State.refuse_cfg (s : State) (r : RefuseReason) : (s.refuse r).cfg = s.cfg := rfl

/-! ## `State.emit` -/

@[simp] theorem State.emit_regs (s : State) (src : IrqSource) : (s.emit src).regs = s.regs := rfl

@[simp] theorem State.emit_vq (s : State) (src : IrqSource) : (s.emit src).vq = s.vq := rfl

@[simp] theorem State.emit_xfer (s : State) (src : IrqSource) : (s.emit src).xfer = s.xfer := rfl

@[simp] theorem State.emit_lm (s : State) (src : IrqSource) : (s.emit src).lm = s.lm := rfl

@[simp] theorem State.emit_csr (s : State) (src : IrqSource) : (s.emit src).csr = s.csr := rfl

@[simp] theorem State.emit_sig (s : State) (src : IrqSource) : (s.emit src).sig = s.sig := rfl

@[simp] theorem State.emit_out (s : State) (src : IrqSource) : (s.emit src).out = s.out ++ [.gsIrq src] := rfl

@[simp] theorem State.emit_refused (s : State) (src : IrqSource) : (s.emit src).refused = s.refused := rfl

@[simp] theorem State.emit_reasons (s : State) (src : IrqSource) : (s.emit src).reasons = s.reasons := rfl

@[simp] theorem State.emit_replies (s : State) (src : IrqSource) : (s.emit src).replies = s.replies := rfl

@[simp] theorem State.emit_cmds (s : State) (src : IrqSource) : (s.emit src).cmds = s.cmds := rfl

@[simp] theorem State.emit_cfg (s : State) (src : IrqSource) : (s.emit src).cfg = s.cfg := rfl

/-! ## `State.reply` -/

@[simp] theorem State.reply_regs (s : State) (v : Word) : (s.reply v).regs = s.regs := rfl

@[simp] theorem State.reply_vq (s : State) (v : Word) : (s.reply v).vq = s.vq := rfl

@[simp] theorem State.reply_xfer (s : State) (v : Word) : (s.reply v).xfer = s.xfer := rfl

@[simp] theorem State.reply_lm (s : State) (v : Word) : (s.reply v).lm = s.lm := rfl

@[simp] theorem State.reply_csr (s : State) (v : Word) : (s.reply v).csr = s.csr := rfl

@[simp] theorem State.reply_sig (s : State) (v : Word) : (s.reply v).sig = s.sig := rfl

@[simp] theorem State.reply_out (s : State) (v : Word) : (s.reply v).out = s.out := rfl

@[simp] theorem State.reply_refused (s : State) (v : Word) : (s.reply v).refused = s.refused := rfl

@[simp] theorem State.reply_reasons (s : State) (v : Word) : (s.reply v).reasons = s.reasons := rfl

@[simp] theorem State.reply_replies (s : State) (v : Word) : (s.reply v).replies = s.replies ++ [v] := rfl

@[simp] theorem State.reply_cmds (s : State) (v : Word) : (s.reply v).cmds = s.cmds := rfl

@[simp] theorem State.reply_cfg (s : State) (v : Word) : (s.reply v).cfg = s.cfg := rfl

/-! ## `State.replyAny` -/

@[simp] theorem State.replyAny_regs (s : State) : (s.replyAny).regs = s.regs := rfl

@[simp] theorem State.replyAny_vq (s : State) : (s.replyAny).vq = s.vq := rfl

@[simp] theorem State.replyAny_xfer (s : State) : (s.replyAny).xfer = s.xfer := rfl

@[simp] theorem State.replyAny_lm (s : State) : (s.replyAny).lm = s.lm.useFree := rfl

@[simp] theorem State.replyAny_csr (s : State) : (s.replyAny).csr = s.csr := rfl

@[simp] theorem State.replyAny_sig (s : State) : (s.replyAny).sig = s.sig := rfl

@[simp] theorem State.replyAny_out (s : State) : (s.replyAny).out = s.out := rfl

@[simp] theorem State.replyAny_refused (s : State) : (s.replyAny).refused = s.refused := rfl

@[simp] theorem State.replyAny_reasons (s : State) : (s.replyAny).reasons = s.reasons := rfl

@[simp] theorem State.replyAny_replies (s : State) : (s.replyAny).replies = s.replies ++ [Config.freeWord s.lm.free] := rfl

@[simp] theorem State.replyAny_cmds (s : State) : (s.replyAny).cmds = s.cmds := rfl

@[simp] theorem State.replyAny_cfg (s : State) : (s.replyAny).cfg = s.cfg := rfl

/-! ## `State.setXfer` -/

@[simp] theorem State.setXfer_regs (s : State) (x : Option TransferCursor) : (s.setXfer x).regs = s.regs := rfl

@[simp] theorem State.setXfer_vq (s : State) (x : Option TransferCursor) : (s.setXfer x).vq = s.vq := rfl

@[simp] theorem State.setXfer_xfer (s : State) (x : Option TransferCursor) : (s.setXfer x).xfer = x := rfl

@[simp] theorem State.setXfer_lm (s : State) (x : Option TransferCursor) : (s.setXfer x).lm = s.lm := rfl

@[simp] theorem State.setXfer_csr (s : State) (x : Option TransferCursor) : (s.setXfer x).csr = s.csr := rfl

@[simp] theorem State.setXfer_sig (s : State) (x : Option TransferCursor) : (s.setXfer x).sig = s.sig := rfl

@[simp] theorem State.setXfer_out (s : State) (x : Option TransferCursor) : (s.setXfer x).out = s.out := rfl

@[simp] theorem State.setXfer_refused (s : State) (x : Option TransferCursor) : (s.setXfer x).refused = s.refused := rfl

@[simp] theorem State.setXfer_reasons (s : State) (x : Option TransferCursor) : (s.setXfer x).reasons = s.reasons := rfl

@[simp] theorem State.setXfer_replies (s : State) (x : Option TransferCursor) : (s.setXfer x).replies = s.replies := rfl

@[simp] theorem State.setXfer_cmds (s : State) (x : Option TransferCursor) : (s.setXfer x).cmds = s.cmds := rfl

@[simp] theorem State.setXfer_cfg (s : State) (x : Option TransferCursor) : (s.setXfer x).cfg = s.cfg := rfl

/-! ## `State.gsReset` -/

@[simp] theorem State.gsReset_regs (s : State) : (s.gsReset).regs = Regs.reset := rfl

@[simp] theorem State.gsReset_vq (s : State) : (s.gsReset).vq = { s.vq with k := 0 } := rfl

@[simp] theorem State.gsReset_xfer (s : State) : (s.gsReset).xfer = none := rfl

@[simp] theorem State.gsReset_lm (s : State) : (s.gsReset).lm = { s.lm with dirty := [] } := rfl

@[simp] theorem State.gsReset_csr (s : State) : (s.gsReset).csr = Csr.reset := rfl

@[simp] theorem State.gsReset_sig (s : State) : (s.gsReset).sig = 0#64 := rfl

@[simp] theorem State.gsReset_out (s : State) : (s.gsReset).out = s.out := rfl

@[simp] theorem State.gsReset_refused (s : State) : (s.gsReset).refused = s.refused := rfl

@[simp] theorem State.gsReset_reasons (s : State) : (s.gsReset).reasons = s.reasons := rfl

@[simp] theorem State.gsReset_replies (s : State) : (s.gsReset).replies = s.replies := rfl

@[simp] theorem State.gsReset_cmds (s : State) : (s.gsReset).cmds = s.cmds := rfl

@[simp] theorem State.gsReset_cfg (s : State) : (s.gsReset).cfg = s.cfg := rfl

/-! ## `State.withFetchWord` -/

@[simp] theorem State.withFetchWord_regs (s : State) (nbits w : Nat) : (s.withFetchWord nbits w).regs = s.regs := rfl

@[simp] theorem State.withFetchWord_vq (s : State) (nbits w : Nat) : (s.withFetchWord nbits w).vq = s.vq := rfl

@[simp] theorem State.withFetchWord_xfer (s : State) (nbits w : Nat) : (s.withFetchWord nbits w).xfer = s.xfer := rfl

@[simp] theorem State.withFetchWord_lm (s : State) (nbits w : Nat) : (s.withFetchWord nbits w).lm = s.lm := rfl

@[simp] theorem State.withFetchWord_csr (s : State) (nbits w : Nat) : (s.withFetchWord nbits w).csr = s.csr := rfl

@[simp] theorem State.withFetchWord_sig (s : State) (nbits w : Nat) : (s.withFetchWord nbits w).sig = s.sig := rfl

@[simp] theorem State.withFetchWord_out (s : State) (nbits w : Nat) : (s.withFetchWord nbits w).out = s.out := rfl

@[simp] theorem State.withFetchWord_refused (s : State) (nbits w : Nat) : (s.withFetchWord nbits w).refused = s.refused := rfl

@[simp] theorem State.withFetchWord_reasons (s : State) (nbits w : Nat) : (s.withFetchWord nbits w).reasons = s.reasons := rfl

@[simp] theorem State.withFetchWord_replies (s : State) (nbits w : Nat) : (s.withFetchWord nbits w).replies = s.replies := rfl

@[simp] theorem State.withFetchWord_cmds (s : State) (nbits w : Nat) : (s.withFetchWord nbits w).cmds = tableWord nbits w :: s.cmds := rfl

@[simp] theorem State.withFetchWord_cfg (s : State) (nbits w : Nat) : (s.withFetchWord nbits w).cfg = s.cfg := rfl

/-! ## `LocalMem` and `VertexQueue` -/

@[simp] theorem LocalMem.useFree_vram (lm : LocalMem) : lm.useFree.vram = lm.vram := rfl

@[simp] theorem LocalMem.useFree_dirty (lm : LocalMem) : lm.useFree.dirty = lm.dirty := rfl

@[simp] theorem LocalMem.useFree_free (lm : LocalMem) : lm.useFree.free = lm.free + 1 := rfl

@[simp] theorem LocalMem.writePixel_vram (lm : LocalMem) (p : Psm) (bp bw x y : Nat) (v : VWord) :
    (lm.writePixel p bp bw x y v).vram = lm.vram.writeRaw p bp bw x y v := rfl

@[simp] theorem LocalMem.writePixel_dirty (lm : LocalMem) (p : Psm) (bp bw x y : Nat) (v : VWord) :
    (lm.writePixel p bp bw x y v).dirty = insertDirty (p.wordAt bp bw x y) lm.dirty := rfl

@[simp] theorem LocalMem.writePixel_free (lm : LocalMem) (p : Psm) (bp bw x y : Nat) (v : VWord) :
    (lm.writePixel p bp bw x y v).free = lm.free := rfl

@[simp] theorem VertexQueue.push_k (q : VertexQueue) (v : Vertex) : (q.push v).k = q.k + 1 := rfl

/-! ## `State.powerOn` -/

@[simp] theorem State.powerOn_regs (c : Config) (m : Memory) : (State.powerOn c m).regs = Regs.reset := rfl

@[simp] theorem State.powerOn_vq (c : Config) (m : Memory) : (State.powerOn c m).vq = ⟨0, Vector.replicate 4 Vertex.zero⟩ := rfl

@[simp] theorem State.powerOn_xfer (c : Config) (m : Memory) : (State.powerOn c m).xfer = none := rfl

@[simp] theorem State.powerOn_lm (c : Config) (m : Memory) : (State.powerOn c m).lm = ⟨m, [], 0⟩ := rfl

@[simp] theorem State.powerOn_csr (c : Config) (m : Memory) : (State.powerOn c m).csr = Csr.reset := rfl

@[simp] theorem State.powerOn_sig (c : Config) (m : Memory) : (State.powerOn c m).sig = 0#64 := rfl

@[simp] theorem State.powerOn_out (c : Config) (m : Memory) : (State.powerOn c m).out = [] := rfl

@[simp] theorem State.powerOn_refused (c : Config) (m : Memory) : (State.powerOn c m).refused = false := rfl

@[simp] theorem State.powerOn_reasons (c : Config) (m : Memory) : (State.powerOn c m).reasons = [] := rfl

@[simp] theorem State.powerOn_replies (c : Config) (m : Memory) : (State.powerOn c m).replies = [] := rfl

@[simp] theorem State.powerOn_cmds (c : Config) (m : Memory) : (State.powerOn c m).cmds = [] := rfl

@[simp] theorem State.powerOn_cfg (c : Config) (m : Memory) : (State.powerOn c m).cfg = c := rfl

end Sys2Proof.Machine
end

