-- ==== Sys2Proof/Laws/RawPixel.lean ====
section
/-! SUPPORT. The raw pixel access: where a pixel lies, what its bits are, and what a pixel write leaves alone. -/

namespace Sys2Proof.Machine

theorem Psm.elem_pos (p : Psm) : 0 < p.elem := by cases p <;> decide

theorem Psm.elem_le (p : Psm) : p.elem ≤ 32 := by cases p <;> decide

theorem Psm.bits_pos (p : Psm) : 0 < p.bits := by cases p <;> decide

theorem Psm.bits_le (p : Psm) : p.bits ≤ 32 := by cases p <;> decide

theorem Psm.low_add_bits_le (p : Psm) : p.low + p.bits ≤ p.elem := by cases p <;> decide

/-- A swizzled address is an element index of VRAM (R103). -/
theorem Psm.swz_lt (p : Psm) (bp bw x y : Nat) : p.swz bp bw x y < elemCount p.elem :=
  Nat.mod_lt _ (elemCount_pos p.elem_pos p.elem_le)

/-- The word of a pixel is a word of VRAM. -/
theorem Psm.wordAt_lt (p : Psm) (bp bw x y : Nat) : p.wordAt bp bw x y < 2 ^ 20 :=
  elemWord_lt _ p.elem_pos p.elem_le

/-- A pixel lies in one word. -/
theorem Psm.bitAt_add_bits_le (p : Psm) (bp bw x y : Nat) : p.bitAt bp bw x y + p.bits ≤ 32 := by
  have h1 := elemShift_add_le (p.swz bp bw x y) p.elem_pos p.elem_le
  have h2 := p.low_add_bits_le
  unfold Psm.bitAt
  omega

/-- A pixel's bits, one by one (R131). -/
theorem Memory.getLsbD_readRaw (m : Memory) (p : Psm) (bp bw x y i : Nat) :
    (m.readRaw p bp bw x y).getLsbD i =
      (decide (i < p.bits) && (m.readWord (p.wordAt bp bw x y)).getLsbD (p.bitAt bp bw x y + i)) := by
  have h1 := p.low_add_bits_le
  have h2 := p.bits_le
  have h3 := p.elem_le
  by_cases hi : i < p.bits
  · have e : elemShift (p.swz bp bw x y) p.elem + (p.low + i) = p.bitAt bp bw x y + i := by
      unfold Psm.bitAt; omega
    have h4 : p.low + i < p.elem := by omega
    have h5 : i < 32 := by omega
    have h6 : p.low + i < 32 := by omega
    simp [Memory.readRaw, Memory.readElem, Psm.wordAt, hi, h4, h5, h6, e]
  · simp [Memory.readRaw, hi]

/-- A pixel value fits the width of its format. -/
theorem Memory.readRaw_toNat_lt (m : Memory) (p : Psm) (bp bw x y : Nat) :
    (m.readRaw p bp bw x y).toNat < 2 ^ p.bits := by
  apply Nat.lt_pow_two_of_testBit
  intro i hi
  have := Memory.getLsbD_readRaw m p bp bw x y i
  simpa [BitVec.getLsbD, Nat.not_lt.2 hi] using this

/-- The word of a pixel after a write of that pixel: the pixel's bits replaced, the others kept (R132). -/
theorem Memory.getLsbD_readWord_writeRaw_same (m : Memory) (p : Psm) (bp bw x y : Nat) (v : VWord) {i : Nat}
    (hi : i < 32) :
    ((m.writeRaw p bp bw x y v).readWord (p.wordAt bp bw x y)).getLsbD i =
      if p.bitAt bp bw x y ≤ i ∧ i < p.bitAt bp bw x y + p.bits then v.getLsbD (i - p.bitAt bp bw x y)
      else (m.readWord (p.wordAt bp bw x y)).getLsbD i := by
  have h1 := p.low_add_bits_le
  have h3 := p.elem_le
  have h4 := elemShift_add_le (p.swz bp bw x y) p.elem_pos p.elem_le
  simp only [Memory.writeRaw, Memory.writeElem, Psm.wordAt, Memory.readWord_writeWord_same,
    getLsbD_insertBits _ _ _ _ _ hi]
  unfold Psm.bitAt
  set sh := elemShift (p.swz bp bw x y) p.elem
  by_cases hc : sh ≤ i ∧ i < sh + p.elem
  · rw [if_pos hc, getLsbD_insertBits _ _ _ _ _ (by omega)]
    have e1 : (p.low ≤ i - sh ∧ i - sh < p.low + p.bits) ↔ (sh + p.low ≤ i ∧ i < sh + p.low + p.bits) := by omega
    have e2 : i - sh - p.low = i - (sh + p.low) := by omega
    have h5 : i - sh < p.elem := by omega
    have h6 : i - sh < 32 := by omega
    have e3 : sh + (i - sh) = i := by omega
    simp [e1, e2, h5, h6, Memory.readElem, sh, e3]
  · rw [if_neg hc, if_neg (by omega)]

/-- A pixel write leaves every other word alone. -/
theorem Memory.readWord_writeRaw_ne (m : Memory) {p : Psm} {bp bw x y w : Nat} (v : VWord)
    (h : w ≠ p.wordAt bp bw x y) : (m.writeRaw p bp bw x y v).readWord w = m.readWord w :=
  Memory.readWord_writeWord_ne m _ h

/-- A pixel write leaves every byte outside its word alone. -/
theorem Memory.readByte_writeRaw_ne (m : Memory) {p : Psm} {bp bw x y a : Nat} (v : VWord)
    (h : a / 4 ≠ p.wordAt bp bw x y) : (m.writeRaw p bp bw x y v).readByte a = m.readByte a :=
  Memory.readByte_writeWord_ne m _ h

/-- A pixel reads as the low bits of what was last written to it (R131, R132). -/
theorem Memory.readRaw_writeRaw_same (m : Memory) (p : Psm) (bp bw x y : Nat) (v : VWord) :
    (m.writeRaw p bp bw x y v).readRaw p bp bw x y = v &&& lowMask p.bits := by
  have h2 := p.bitAt_add_bits_le bp bw x y
  apply BitVec.eq_of_getLsbD_eq
  intro i hi
  rw [Memory.getLsbD_readRaw]
  by_cases hb : i < p.bits
  · have h3 : p.bitAt bp bw x y + i < 32 := by omega
    rw [Memory.getLsbD_readWord_writeRaw_same _ _ _ _ _ _ _ h3]
    have e : p.bitAt bp bw x y + i - p.bitAt bp bw x y = i := by omega
    simp [hb, e, hi]
  · simp [hb]

/-- A pixel in another word is not changed by a pixel write. -/
theorem Memory.readRaw_writeRaw_ne (m : Memory) {p q : Psm} {bp bw x y bp' bw' x' y' : Nat} (v : VWord)
    (h : q.wordAt bp' bw' x' y' ≠ p.wordAt bp bw x y) :
    (m.writeRaw p bp bw x y v).readRaw q bp' bw' x' y' = m.readRaw q bp' bw' x' y' := by
  apply BitVec.eq_of_getLsbD_eq
  intro i _
  rw [Memory.getLsbD_readRaw, Memory.getLsbD_readRaw, Memory.readWord_writeRaw_ne _ _ h]

/-- A pixel of the same format at another element is not changed by a pixel write, even in the same word. -/
theorem Memory.readRaw_writeRaw_swz_ne (m : Memory) {p : Psm} {bp bw x y x' y' : Nat} (v : VWord)
    (h : p.swz bp bw x' y' ≠ p.swz bp bw x y) :
    (m.writeRaw p bp bw x y v).readRaw p bp bw x' y' = m.readRaw p bp bw x' y' := by
  by_cases hw : p.wordAt bp bw x' y' = p.wordAt bp bw x y
  · have hb := p.bitAt_add_bits_le bp bw x' y'
    have hl := p.low_add_bits_le
    have hd : p.bitAt bp bw x' y' + p.bits ≤ p.bitAt bp bw x y ∨ p.bitAt bp bw x y + p.bits ≤ p.bitAt bp bw x' y' := by
      have h1 := p.swz_lt bp bw x y
      have h2 := p.swz_lt bp bw x' y'
      have hk : 0 < 32 / p.elem := Nat.div_pos p.elem_le p.elem_pos
      unfold Psm.wordAt elemWord at hw
      rw [Nat.mod_eq_of_lt h1, Nat.mod_eq_of_lt h2] at hw
      have e1 := Nat.div_add_mod (p.swz bp bw x y) (32 / p.elem)
      have e2 := Nat.div_add_mod (p.swz bp bw x' y') (32 / p.elem)
      rw [hw] at e2
      have hne : p.swz bp bw x' y' % (32 / p.elem) ≠ p.swz bp bw x y % (32 / p.elem) := fun e => h (by omega)
      unfold Psm.bitAt elemShift
      rcases Nat.lt_or_gt_of_ne hne with hlt | hlt
      · have := Nat.mul_le_mul_right p.elem (Nat.succ_le_of_lt hlt)
        rw [Nat.succ_mul] at this
        left; omega
      · have := Nat.mul_le_mul_right p.elem (Nat.succ_le_of_lt hlt)
        rw [Nat.succ_mul] at this
        right; omega
    apply BitVec.eq_of_getLsbD_eq
    intro i hi
    rw [Memory.getLsbD_readRaw, Memory.getLsbD_readRaw, hw]
    by_cases hi' : i < p.bits
    · rw [Memory.getLsbD_readWord_writeRaw_same _ _ _ _ _ _ _ (by omega), if_neg (by omega)]
    · simp [hi']
  · exact Memory.readRaw_writeRaw_ne m v hw

theorem Memory.wf_writeRaw {m : Memory} (p : Psm) (bp bw x y : Nat) (v : VWord) (h : m.wf = true) :
    (m.writeRaw p bp bw x y v).wf = true :=
  Memory.wf_writeElem _ _ h p.elem_pos p.elem_le

/-! ## The local memory -/

/-- What every change of the local memory keeps: VRAM canonical, the dirty set rising and inside VRAM. -/
structure LocalMem.Ok (lm : LocalMem) : Prop where
  vramWf : lm.vram.wf = true
  dirtyRising : lm.dirty.Pairwise (· < ·)
  dirtyInVram : ∀ w ∈ lm.dirty, w < 2 ^ 20

theorem LocalMem.Ok.writePixel {lm : LocalMem} (h : lm.Ok) (p : Psm) (bp bw x y : Nat) (v : VWord) :
    (lm.writePixel p bp bw x y v).Ok where
  vramWf := Memory.wf_writeRaw p bp bw x y v h.vramWf
  dirtyRising := pairwise_insertDirty h.dirtyRising
  dirtyInVram w hw := by
    rcases mem_insertDirty.1 hw with rfl | hw
    · exact p.wordAt_lt bp bw x y
    · exact h.dirtyInVram w hw

theorem LocalMem.Ok.useFree {lm : LocalMem} (h : lm.Ok) : lm.useFree.Ok := ⟨h.1, h.2, h.3⟩

theorem LocalMem.Ok.flush {lm : LocalMem} (h : lm.Ok) : ({ lm with dirty := [] } : LocalMem).Ok :=
  ⟨h.1, List.Pairwise.nil, by simp⟩

end Sys2Proof.Machine
end

