-- ==== Sys2Proof/Laws/Draw.lean ====
section
/-! SUPPORT. What drawing can change: the words of its fragments in the frame buffer and the depth buffer, the dirty set,
the counter of free values, the refusal mark, and the vertex queue. -/

namespace Sys2Proof.Machine

/-! ## One fragment -/

theorem LocalMem.Ok.writeFragment {lm : LocalMem} (h : lm.Ok) (e : Env) (x y zf : Nat) (c : Colour) (o : WriteKind) :
    (writeFragment e lm x y zf c o).Ok := by
  unfold Machine.writeFragment
  have h1 : (if o = .zbOnly then lm else writeFrame e lm x y c o).Ok := by
    split
    · exact h
    · exact h.writePixel _ _ _ _ _ _
  dsimp only
  split
  · exact h1.writePixel _ _ _ _ _ _
  · exact h1

theorem LocalMem.Ok.testAndWrite {lm : LocalMem} (h : lm.Ok) (e : Env) (x y z : Nat) (s : Colour) :
    (testAndWrite e lm x y z s).Ok := by
  unfold Machine.testAndWrite
  split
  · exact h
  · exact h.writeFragment _ _ _ _ _ _

theorem LocalMem.Ok.processFragment {lm : LocalMem} (h : lm.Ok) (e : Env) (fr : Frag) :
    (processFragment e lm fr).Ok := by
  unfold Machine.processFragment
  split
  · apply LocalMem.Ok.testAndWrite
    split
    · exact h.useFree
    · exact h
  · exact h

theorem LocalMem.Ok.drawFrags {lm : LocalMem} (h : lm.Ok) (e : Env) (frs : List Frag) : (drawFrags e lm frs).Ok := by
  unfold Machine.drawFrags
  induction frs generalizing lm with
  | nil => exact h
  | cons f frs ih => exact ih (h.processFragment e f)

theorem writeFrame_readByte (e : Env) (lm : LocalMem) (x y : Nat) (c : Colour) (o : WriteKind) {a : Nat}
    (h : a / 4 ≠ e.fbFmt.wordAt e.K.fbBase e.K.fbWidth x y) :
    (writeFrame e lm x y c o).vram.readByte a = lm.vram.readByte a :=
  Memory.readByte_writeRaw_ne _ _ h

theorem writeDepth_readByte (e : Env) (lm : LocalMem) (x y zf : Nat) {a : Nat}
    (h : a / 4 ≠ e.zFmt.wordAt e.K.zBase e.K.fbWidth x y) :
    (writeDepth e lm x y zf).vram.readByte a = lm.vram.readByte a :=
  Memory.readByte_writeRaw_ne _ _ h

/-- A fragment's writes leave every byte outside its own words alone. -/
theorem writeFragment_readByte (e : Env) (lm : LocalMem) (x y zf : Nat) (c : Colour) (o : WriteKind) {a : Nat}
    (h : a / 4 ∉ e.fragWords x y) :
    (writeFragment e lm x y zf c o).vram.readByte a = lm.vram.readByte a := by
  simp only [Env.fragWords, List.mem_cons, not_or] at h
  have h1 : (if o = .zbOnly then lm else writeFrame e lm x y c o).vram.readByte a = lm.vram.readByte a := by
    split
    · rfl
    · exact writeFrame_readByte e lm x y c o h.1
  unfold writeFragment
  dsimp only
  split
  · next hc =>
    rw [writeDepth_readByte, h1]
    simpa [hc.2] using h.2
  · exact h1

theorem testAndWrite_readByte (e : Env) (lm : LocalMem) (x y z : Nat) (s : Colour) {a : Nat}
    (h : a / 4 ∉ e.fragWords x y) : (testAndWrite e lm x y z s).vram.readByte a = lm.vram.readByte a := by
  unfold testAndWrite
  split
  · rfl
  · exact writeFragment_readByte e lm x y _ _ _ h

theorem processFragment_readByte (e : Env) (lm : LocalMem) (fr : Frag) {a : Nat}
    (h : a / 4 ∉ e.fragWords fr.x.toNat fr.y.toNat) :
    (processFragment e lm fr).vram.readByte a = lm.vram.readByte a := by
  unfold processFragment
  split
  · rw [testAndWrite_readByte e _ _ _ _ _ h]
    split <;> rfl
  · rfl

/-- Drawing leaves every byte outside its fragments' words alone. -/
theorem drawFrags_readByte (e : Env) (lm : LocalMem) (frs : List Frag) {a : Nat}
    (h : ∀ fr ∈ frs, a / 4 ∉ e.fragWords fr.x.toNat fr.y.toNat) :
    (drawFrags e lm frs).vram.readByte a = lm.vram.readByte a := by
  unfold drawFrags
  induction frs generalizing lm with
  | nil => rfl
  | cons f frs ih =>
    rw [List.foldl_cons, ih _ (fun fr hfr => h fr (List.mem_cons_of_mem _ hfr)),
      processFragment_readByte e lm f (h f (by simp))]

/-! ## A primitive -/

@[simp] theorem State.queued_k (s : State) (p : KickFields) : (s.queued p).k = s.vq.k + 1 := rfl

/-- A kick that does not complete a primitive only queues its vertex. -/
theorem State.kick_incomplete (s : State) (p : KickFields) (discard : Bool)
    (h : s.vq.k + 1 ≠ s.regs.primType.count) : s.kick p discard = { s with vq := s.queued p } :=
  if_neg h

/-- A discarding kick that completes a primitive only rotates the queue (R311). -/
theorem State.kick_discarded (s : State) (p : KickFields) (h : s.vq.k + 1 = s.regs.primType.count) :
    s.kick p true = { s with vq := (s.queued p).rotate s.regs.primType } :=
  if_pos h

/-- A drawing kick that completes a primitive which is refused (R315). -/
theorem State.kick_refused (s : State) (p : KickFields) {r : RefuseReason} (h : s.vq.k + 1 = s.regs.primType.count)
    (hr : refusalReason s.env s.regs.primType (s.queued p).slot = some r) :
    s.kick p false =
      { s with vq := (s.queued p).rotate s.regs.primType, refused := true, reasons := s.reasons ++ [r] } := by
  simp [State.kick, h, State.draw, hr]

/-- A drawing kick that completes a primitive which is drawn (R310, R314). -/
theorem State.kick_drawn (s : State) (p : KickFields) (h : s.vq.k + 1 = s.regs.primType.count)
    (hr : refusalReason s.env s.regs.primType (s.queued p).slot = none) :
    s.kick p false =
      { s with
        vq := (s.queued p).rotate s.regs.primType
        lm := drawFrags s.env s.lm (primFrags s.env s.regs.primType (s.queued p).slot) } := by
  simp [State.kick, h, State.draw, hr]

/-- Everything a kick can do: queue its vertex, rotate the queue, refuse the primitive, or draw it. -/
theorem State.kick_cases (s : State) (p : KickFields) (discard : Bool) :
    (s.vq.k + 1 ≠ s.regs.primType.count ∧ s.kick p discard = { s with vq := s.queued p }) ∨
    (s.vq.k + 1 = s.regs.primType.count ∧
      ((discard = true ∧ s.kick p discard = { s with vq := (s.queued p).rotate s.regs.primType }) ∨
       (∃ r, discard = false ∧ refusalReason s.env s.regs.primType (s.queued p).slot = some r ∧
          s.kick p discard =
            { s with vq := (s.queued p).rotate s.regs.primType, refused := true, reasons := s.reasons ++ [r] }) ∨
       (discard = false ∧ refusalReason s.env s.regs.primType (s.queued p).slot = none ∧
          s.kick p discard =
            { s with
              vq := (s.queued p).rotate s.regs.primType
              lm := drawFrags s.env s.lm (primFrags s.env s.regs.primType (s.queued p).slot) }))) := by
  by_cases h : s.vq.k + 1 = s.regs.primType.count
  · refine .inr ⟨h, ?_⟩
    cases discard with
    | true => exact .inl ⟨rfl, State.kick_discarded s p h⟩
    | false =>
      cases hr : refusalReason s.env s.regs.primType (s.queued p).slot with
      | some r => exact .inr (.inl ⟨r, rfl, rfl, State.kick_refused s p h hr⟩)
      | none => exact .inr (.inr ⟨rfl, rfl, State.kick_drawn s p h hr⟩)
  · exact .inl ⟨h, State.kick_incomplete s p discard h⟩

/-- The vertex count left by a rotation is below the type's count (R312, R313). -/
theorem VertexQueue.rotate_k_lt (q : VertexQueue) (t : PrimType) : (q.rotate t).k < t.count := by
  cases t <;> simp [VertexQueue.rotate, PrimType.count]

/-- A kick keeps the queue below the type's count (R312). -/
theorem State.kick_k_lt {s : State} (p : KickFields) (discard : Bool) (h : s.vq.k < s.regs.primType.count) :
    (s.kick p discard).vq.k < s.regs.primType.count := by
  rcases State.kick_cases s p discard with ⟨hk, e⟩ | ⟨hk, ⟨-, e⟩ | ⟨r, -, -, e⟩ | ⟨-, -, e⟩⟩
  · rw [e]; simp only [State.queued_k]; omega
  · rw [e]; exact VertexQueue.rotate_k_lt _ _
  · rw [e]; exact VertexQueue.rotate_k_lt _ _
  · rw [e]; exact VertexQueue.rotate_k_lt _ _

/-- The fields a kick never changes. -/
theorem State.kick_frame (s : State) (p : KickFields) (discard : Bool) :
    s.kick p discard =
      { s with
        vq := (s.kick p discard).vq
        lm := (s.kick p discard).lm
        refused := (s.kick p discard).refused
        reasons := (s.kick p discard).reasons } := by
  rcases State.kick_cases s p discard with ⟨-, e⟩ | ⟨-, ⟨-, e⟩ | ⟨r, -, -, e⟩ | ⟨-, -, e⟩⟩ <;> rw [e]

@[simp] theorem State.kick_regs (s : State) (p : KickFields) (discard : Bool) : (s.kick p discard).regs = s.regs := by
  rw [State.kick_frame]

@[simp] theorem State.kick_reg (s : State) (p : KickFields) (discard : Bool) (r : RegName) :
    (s.kick p discard).reg r = s.reg r := by
  simp [State.reg]

@[simp] theorem State.kick_xfer (s : State) (p : KickFields) (discard : Bool) : (s.kick p discard).xfer = s.xfer := by
  rw [State.kick_frame]

@[simp] theorem State.kick_csr (s : State) (p : KickFields) (discard : Bool) : (s.kick p discard).csr = s.csr := by
  rw [State.kick_frame]

@[simp] theorem State.kick_sig (s : State) (p : KickFields) (discard : Bool) : (s.kick p discard).sig = s.sig := by
  rw [State.kick_frame]

@[simp] theorem State.kick_out (s : State) (p : KickFields) (discard : Bool) : (s.kick p discard).out = s.out := by
  rw [State.kick_frame]

@[simp] theorem State.kick_replies (s : State) (p : KickFields) (discard : Bool) :
    (s.kick p discard).replies = s.replies := by
  rw [State.kick_frame]

@[simp] theorem State.kick_cmds (s : State) (p : KickFields) (discard : Bool) : (s.kick p discard).cmds = s.cmds := by
  rw [State.kick_frame]

@[simp] theorem State.kick_cfg (s : State) (p : KickFields) (discard : Bool) : (s.kick p discard).cfg = s.cfg := by
  rw [State.kick_frame]

theorem State.kick_lm_ok {s : State} (p : KickFields) (discard : Bool) (h : s.lm.Ok) : (s.kick p discard).lm.Ok := by
  rcases State.kick_cases s p discard with ⟨-, e⟩ | ⟨-, ⟨-, e⟩ | ⟨r, -, -, e⟩ | ⟨-, -, e⟩⟩ <;> rw [e]
  · exact h
  · exact h
  · exact h
  · exact h.drawFrags _ _

end Sys2Proof.Machine
end

