-- ==== Sys2Proof/Laws/Regs.lean ====
section
/-! SUPPORT. The register bank: reading after writing, the reset values, and the registers only stored. -/

namespace Sys2Proof.Machine

theorem RegName.ofNat_index (r : RegName) : RegName.ofNat r.index = r := by cases r <;> rfl

theorem RegName.index_injective {r r' : RegName} (h : r.index = r'.index) : r = r' := by
  rw [← RegName.ofNat_index r, h, RegName.ofNat_index]

@[simp] theorem Regs.read_write_same (rs : Regs) (r : RegName) (v : Word) : (rs.write r v).read r = v := by
  simp [Regs.read, Regs.write, Vector.get_eq_getElem]

theorem Regs.read_write_ne (rs : Regs) {r r' : RegName} (v : Word) (h : r' ≠ r) :
    (rs.write r v).read r' = rs.read r' := by
  have hi : (r.index : Nat) ≠ r'.index := fun e => h (RegName.index_injective (Fin.ext e)).symm
  simp [Regs.read, Regs.write, Vector.get_eq_getElem, hi]

theorem Regs.read_write (rs : Regs) (r r' : RegName) (v : Word) :
    (rs.write r v).read r' = if r' = r then v else rs.read r' := by
  split
  · next h => subst h; simp
  · next h => exact Regs.read_write_ne rs v h

/-- Two banks that read the same everywhere are the same bank. -/
theorem Regs.ext_read {rs rs' : Regs} (h : ∀ r, rs.read r = rs'.read r) : rs = rs' := by
  have surj : ∀ i : Fin 71, ∃ r : RegName, r.index = i := by
    intro i
    have : ∀ i : Fin 71, (RegName.ofNat i).index = i := by decide
    exact ⟨_, this i⟩
  apply Vector.ext
  intro i hi
  obtain ⟨r, hr⟩ := surj ⟨i, hi⟩
  have := h r
  simpa [Regs.read, Vector.get_eq_getElem, hr] using this

/-- The bank after a reset (R560). -/
theorem Regs.read_reset (r : RegName) :
    Regs.reset.read r = if r = .prmodecont then 1#64 else if r = .imr then 0x7F00#64 else 0#64 := by
  cases r <;> decide

@[simp] theorem State.reg_setReg_same (s : State) (r : RegName) (v : Word) : (s.setReg r v).reg r = v :=
  Regs.read_write_same _ _ _

theorem State.reg_setReg_ne (s : State) {r r' : RegName} (v : Word) (h : r' ≠ r) : (s.setReg r v).reg r' = s.reg r' :=
  Regs.read_write_ne _ _ h

theorem State.reg_setReg (s : State) (r r' : RegName) (v : Word) :
    (s.setReg r v).reg r' = if r' = r then v else s.reg r' := Regs.read_write _ _ _ _

/-- What a plain register write does. -/
theorem storesOnly_setReg (s : State) (r : RegName) (d : Word) : StoresOnly r d s (s.setReg r d) :=
  ⟨State.reg_setReg_same s r d, fun _ h => State.reg_setReg_ne s d h, rfl⟩

/-- A write to a register other than PRIM leaves the primitive type in force. -/
theorem Regs.primType_write_ne (rs : Regs) {r : RegName} (v : Word) (h : r ≠ .prim) :
    (rs.write r v).primType = rs.primType := by
  simp [Regs.primType, Regs.read_write_ne rs v (Ne.symm h)]

@[simp] theorem Regs.primType_reset : Regs.reset.primType = .point := by decide

end Sys2Proof.Machine
end

