-- ==== Sys2Proof/Laws/Flags.lean ====
section
/-! SUPPORT. The status flags and the masked registers: what an interrupt source's occurrence does, CSR as it reads, and
the bits of a masked merge. -/

namespace Sys2Proof.Machine

/-- Everything an occurrence of an interrupt source does (R530, R531). -/
theorem State.raise_eq (s : State) (src : IrqSource) :
    s.raise src =
      { s with
        csr := csrSet s.csr src
        out := if bit (s.reg .imr) (imrMaskBit src) then s.out else s.out ++ [.gsIrq src] } := by
  unfold State.raise
  dsimp only
  split <;> rfl

/-- EDWINT and FIELD are set by no interrupt source (R506, R530). -/
theorem csrSet_edwint (csr : Csr) (src : IrqSource) :
    (csrSet csr src).edwint = csr.edwint ∧ (csrSet csr src).field = csr.field := by
  cases src <;> exact ⟨rfl, rfl⟩

@[simp] theorem getLsbD_flagBit (b : Bool) (i j : Nat) :
    (flagBit b i).getLsbD j = (decide (j < 64) && (decide (j = i) && b)) := by
  unfold flagBit
  simp only [BitVec.getLsbD_shiftLeft, BitVec.getLsbD_setWidth, BitVec.getLsbD_ofBool]
  by_cases h : j < i
  · have : j ≠ i := by omega
    simp [h, this]
  · by_cases h2 : j = i
    · subst h2; cases b <;> simp
    · have h3 : j - i ≠ 0 := by omega
      cases b <;> simp [h, h2, h3]

/-! ## Masked merges -/

theorem getLsbD_mergeBits {n : Nat} (old new mask : BitVec n) (i : Nat) :
    (mergeBits old new mask).getLsbD i = if mask.getLsbD i then new.getLsbD i else old.getLsbD i := by
  simp only [mergeBits, BitVec.getLsbD_or, BitVec.getLsbD_and, BitVec.getLsbD_not]
  by_cases h : i < n <;> cases hm : mask.getLsbD i <;> simp [h, BitVec.getLsbD_of_ge, Nat.le_of_not_lt]

/-- The bits of SIGLBLID after SIGID has been updated under a mask (R280). -/
theorem getLsbD_mergeSigId (sig : Word) (id m : BitVec 32) (i : Nat) :
    (mergeSigId sig id m).getLsbD i = if i < 32 ∧ m.getLsbD i then id.getLsbD i else sig.getLsbD i := by
  show (sig.extractLsb' 32 32 ++ mergeBits (sig.extractLsb' 0 32) id m : BitVec (32 + 32)).getLsbD i = _
  rw [BitVec.getLsbD_append]
  by_cases h : i < 32
  · rw [if_pos h, getLsbD_mergeBits]
    simp [h]
  · rw [if_neg h, if_neg (by simp [h])]
    by_cases h2 : i < 64
    · rw [BitVec.getLsbD_extractLsb', show 32 + (i - 32) = i by omega]
      simp [show i - 32 < 32 by omega]
    · simp [show ¬ i - 32 < 32 by omega, BitVec.getLsbD_of_ge _ _ (Nat.le_of_not_lt h2)]

/-- The bits of SIGLBLID after LBLID has been updated under a mask (R282). -/
theorem getLsbD_mergeLblId (sig : Word) (id m : BitVec 32) (i : Nat) :
    (mergeLblId sig id m).getLsbD i = if 32 ≤ i ∧ m.getLsbD (i - 32) then id.getLsbD (i - 32) else sig.getLsbD i := by
  show (mergeBits (sig.extractLsb' 32 32) id m ++ sig.extractLsb' 0 32 : BitVec (32 + 32)).getLsbD i = _
  rw [BitVec.getLsbD_append]
  by_cases h : i < 32
  · rw [if_pos h, if_neg (by simp [h]), BitVec.getLsbD_extractLsb']
    simp [h]
  · rw [if_neg h, getLsbD_mergeBits]
    simp only [Nat.le_of_not_lt h, true_and]
    split
    · rfl
    · by_cases h2 : i < 64
      · rw [BitVec.getLsbD_extractLsb', show 32 + (i - 32) = i by omega]
        simp [show i - 32 < 32 by omega]
      · simp [show ¬ i - 32 < 32 by omega, BitVec.getLsbD_of_ge _ _ (Nat.le_of_not_lt h2)]

/-- The bits of TEX0 that a TEX2 write replaces are [25:20] and [63:37] (R232). -/
theorem getLsbD_tex2Mask {i : Nat} (h : i < 64) : tex2Mask.getLsbD i = decide ((20 ≤ i ∧ i ≤ 25) ∨ 37 ≤ i) := by
  have : ∀ i : Fin 64, tex2Mask.getLsbD i = decide ((20 ≤ i.1 ∧ i.1 ≤ 25) ∨ 37 ≤ i.1) := by decide
  exact this ⟨i, h⟩

end Sys2Proof.Machine
end

