-- ==== Sys2Proof/Laws/Raster.lean ====
section
/-! SUPPORT. The rasterizer: the pixels of a range, a rectangle and a triangle, and what interpolation stays between. -/

namespace Sys2Proof.Machine

/-! ## Rectangles -/

@[simp] theorem mem_intRange {lo hi x : Int} : x ∈ intRange lo hi ↔ lo ≤ x ∧ x ≤ hi := by
  simp only [intRange, List.mem_map, List.mem_range]
  constructor
  · rintro ⟨i, hi, rfl⟩; omega
  · intro h; exact ⟨(x - lo).toNat, by omega, by omega⟩

theorem pairwise_intRange (lo hi : Int) : (intRange lo hi).Pairwise (· < ·) := by
  unfold intRange
  rw [List.pairwise_map]
  exact List.pairwise_lt_range.imp (by omega)

@[simp] theorem mem_rectPixels {x0 x1 y0 y1 : Int} {p : Pixel} :
    p ∈ rectPixels x0 x1 y0 y1 ↔ (x0 ≤ p.1 ∧ p.1 ≤ x1) ∧ y0 ≤ p.2 ∧ p.2 ≤ y1 := by
  obtain ⟨x, y⟩ := p
  simp only [rectPixels, List.mem_flatMap, List.mem_map, mem_intRange, Prod.mk.injEq]
  constructor
  · rintro ⟨y', hy, x', hx, rfl, rfl⟩; exact ⟨hx, hy⟩
  · rintro ⟨hx, hy⟩; exact ⟨y, hy, x, hx, rfl, rfl⟩

/-- The pixels of a rectangle come by rows of rising y and in a row by rising x (R335). -/
theorem pairwise_rectPixels (x0 x1 y0 y1 : Int) :
    (rectPixels x0 x1 y0 y1).Pairwise (fun p q => p.2 < q.2 ∨ (p.2 = q.2 ∧ p.1 < q.1)) := by
  unfold rectPixels
  rw [List.pairwise_flatMap]
  constructor
  · intro y _
    rw [List.pairwise_map]
    exact (pairwise_intRange x0 x1).imp (fun h => .inr ⟨rfl, h⟩)
  · refine (pairwise_intRange y0 y1).imp (fun {a b} hab p hp q hq => ?_)
    obtain ⟨_, _, rfl⟩ := List.mem_map.1 hp
    obtain ⟨_, _, rfl⟩ := List.mem_map.1 hq
    exact .inl hab

@[simp] theorem inScissor_iff {K : Context} {p : Pixel} :
    inScissor K p = true ↔
      ((K.scax0 : Int) ≤ p.1 ∧ p.1 ≤ K.scax1) ∧ (K.scay0 : Int) ≤ p.2 ∧ p.2 ≤ K.scay1 := by
  simp only [inScissor, Bool.and_eq_true, decide_eq_true_eq, and_assoc]

/-! ## Edge functions -/

/-- The three weights of a pixel add up to the area (R350, R352). -/
theorem edge_sum (a b c p : Pixel) : edge b c p + edge c a p + edge a b p = edge a b c := by
  simp only [edge]; ring

theorem edge_swap (a b p : Pixel) : edge a b p = -edge b a p := by simp only [edge]; ring

theorem edge_rotate (a b c : Pixel) : edge a b c = edge b c a := by simp only [edge]; ring

/-- A pixel whose weights are none negative lies in the bounding box of a triangle with positive area (R351, R352). -/
theorem edge_box {a b c p : Pixel} (h : 0 < edge a b c) (h0 : 0 ≤ edge b c p) (h1 : 0 ≤ edge c a p)
    (h2 : 0 ≤ edge a b p) :
    (min3 a.1 b.1 c.1 ≤ p.1 ∧ p.1 ≤ max3 a.1 b.1 c.1) ∧ min3 a.2 b.2 c.2 ≤ p.2 ∧ p.2 ≤ max3 a.2 b.2 c.2 := by
  have hs := edge_sum a b c p
  have hx : edge b c p * (a.1 - p.1) + edge c a p * (b.1 - p.1) + edge a b p * (c.1 - p.1) = 0 := by
    simp only [edge]; ring
  have hy : edge b c p * (a.2 - p.2) + edge c a p * (b.2 - p.2) + edge a b p * (c.2 - p.2) = 0 := by
    simp only [edge]; ring
  have key : ∀ (u v w : Int), edge b c p * u + edge c a p * v + edge a b p * w = 0 → ¬ (0 < u ∧ 0 < v ∧ 0 < w) := by
    rintro u v w he ⟨hu, hv, hw⟩
    have := mul_nonneg h0 (show (0 : Int) ≤ u - 1 by omega)
    have := mul_nonneg h1 (show (0 : Int) ≤ v - 1 by omega)
    have := mul_nonneg h2 (show (0 : Int) ≤ w - 1 by omega)
    nlinarith
  have key' : ∀ (u v w : Int), edge b c p * u + edge c a p * v + edge a b p * w = 0 → ¬ (u < 0 ∧ v < 0 ∧ w < 0) := by
    rintro u v w he ⟨hu, hv, hw⟩
    exact key (-u) (-v) (-w) (by linarith) ⟨by omega, by omega, by omega⟩
  have k1 := key _ _ _ hx
  have k2 := key' _ _ _ hx
  have k3 := key _ _ _ hy
  have k4 := key' _ _ _ hy
  simp only [min3, max3]
  omega

theorem Tri.covers_iff (t : Tri) (p : Pixel) :
    t.covers p = true ↔ 0 ≤ edge t.p1 t.p2 p ∧ 0 ≤ edge t.p2 t.p0 p ∧ 0 ≤ edge t.p0 t.p1 p := by
  unfold Tri.covers
  rw [Bool.and_eq_true, Bool.and_eq_true, decide_eq_true_iff, decide_eq_true_iff, decide_eq_true_iff, and_assoc]
  rfl

/-- What the set-up of a triangle gives (R350): the vertices in one of two orders, their window pixels, an area that is
never negative, and the kick vertex. -/
theorem triSetup_cases (K : Context) (v0 v1 v2 : Vertex) :
    (edge (win K v0) (win K v1) (win K v2) < 0 ∧
      triSetup K v0 v1 v2 =
        ⟨v0, v2, v1, win K v0, win K v2, win K v1, -edge (win K v0) (win K v1) (win K v2), v2⟩) ∨
    (0 ≤ edge (win K v0) (win K v1) (win K v2) ∧
      triSetup K v0 v1 v2 =
        ⟨v0, v1, v2, win K v0, win K v1, win K v2, edge (win K v0) (win K v1) (win K v2), v2⟩) := by
  by_cases h : edge (win K v0) (win K v1) (win K v2) < 0
  · exact .inl ⟨h, if_pos h⟩
  · exact .inr ⟨by omega, if_neg h⟩

theorem triSetup_area (K : Context) (v0 v1 v2 : Vertex) :
    let t := triSetup K v0 v1 v2
    0 ≤ t.area ∧ t.area = edge t.p0 t.p1 t.p2 ∧ (t.area = 0 ↔ edge (win K v0) (win K v1) (win K v2) = 0) := by
  rcases triSetup_cases K v0 v1 v2 with ⟨h, e⟩ | ⟨h, e⟩ <;> dsimp only <;> rw [e]
  · exact ⟨by dsimp only; omega, by simp only [edge]; ring, by dsimp only; omega⟩
  · exact ⟨h, rfl, Iff.rfl⟩

/-- Coverage of a triangle by the sides of its own edges, whichever way it winds (R350, R352). -/
theorem triSetup_covers (K : Context) (v0 v1 v2 : Vertex) (p : Pixel)
    (h : edge (win K v0) (win K v1) (win K v2) ≠ 0) :
    (triSetup K v0 v1 v2).covers p = true ↔
      0 ≤ (edge (win K v0) (win K v1) (win K v2)).sign * edge (win K v1) (win K v2) p ∧
      0 ≤ (edge (win K v0) (win K v1) (win K v2)).sign * edge (win K v2) (win K v0) p ∧
      0 ≤ (edge (win K v0) (win K v1) (win K v2)).sign * edge (win K v0) (win K v1) p := by
  rw [Tri.covers_iff]
  rcases triSetup_cases K v0 v1 v2 with ⟨h', e⟩ | ⟨h', e⟩ <;> rw [e] <;> dsimp only
  · rw [Int.sign_eq_neg_one_of_neg h', edge_swap (win K v2) (win K v1), edge_swap (win K v1) (win K v0),
      edge_swap (win K v0) (win K v2)]
    omega
  · rw [Int.sign_eq_one_of_pos (by omega)]
    omega

/-! ## Interpolation -/

/-- A floored weighted mean with weights that are none negative stays between its values (R333). -/
theorem bary_between {a0 a1 a2 w0 w1 w2 area lo hi : Int} (ha : 0 < area) (hs : w0 + w1 + w2 = area) (h0 : 0 ≤ w0)
    (h1 : 0 ≤ w1) (h2 : 0 ≤ w2) (l0 : lo ≤ a0) (l1 : lo ≤ a1) (l2 : lo ≤ a2) (u0 : a0 ≤ hi) (u1 : a1 ≤ hi)
    (u2 : a2 ≤ hi) : lo ≤ bary a0 a1 a2 w0 w1 w2 area ∧ bary a0 a1 a2 w0 w1 w2 area ≤ hi := by
  have e : bary a0 a1 a2 w0 w1 w2 area = (w0 * a0 + w1 * a1 + w2 * a2) / area := by
    unfold bary floorDiv; exact Int.fdiv_eq_ediv_of_nonneg _ ha.le
  subst hs
  rw [e]
  constructor
  · rw [Int.le_ediv_iff_mul_le ha]
    nlinarith [mul_le_mul_of_nonneg_left l0 h0, mul_le_mul_of_nonneg_left l1 h1, mul_le_mul_of_nonneg_left l2 h2]
  · refine Int.le_of_lt_add_one ?_
    rw [Int.ediv_lt_iff_lt_mul ha]
    nlinarith [mul_le_mul_of_nonneg_left u0 h0, mul_le_mul_of_nonneg_left u1 h1, mul_le_mul_of_nonneg_left u2 h2]

theorem lerpFloor_neg (a0 a1 num den : Int) : lerpFloor a0 a1 (-num) (-den) = lerpFloor a0 a1 num den := by
  simp [lerpFloor, floorDiv]

/-- A floored linear interpolation at 0 ≤ num ≤ den stays between its ends (R333). -/
theorem lerpFloor_between {a0 a1 num den lo hi : Int} (hd : 0 < den) (h0 : 0 ≤ num) (h1 : num ≤ den) (l0 : lo ≤ a0)
    (l1 : lo ≤ a1) (u0 : a0 ≤ hi) (u1 : a1 ≤ hi) :
    lo ≤ lerpFloor a0 a1 num den ∧ lerpFloor a0 a1 num den ≤ hi := by
  have e : lerpFloor a0 a1 num den = a0 + (a1 - a0) * num / den := by
    unfold lerpFloor floorDiv; rw [Int.fdiv_eq_ediv_of_nonneg _ hd.le]
  have m : ∀ u v : Int, 0 ≤ u → 0 ≤ v → 0 ≤ u * (den - num) + v * num := fun u v hu hv =>
    add_nonneg (mul_nonneg hu (by omega)) (mul_nonneg hv h0)
  rw [e]
  constructor
  · have : lo - a0 ≤ (a1 - a0) * num / den := by
      rw [Int.le_ediv_iff_mul_le hd]
      nlinarith [m (a0 - lo) (a1 - lo) (by omega) (by omega)]
    omega
  · have : (a1 - a0) * num / den < hi - a0 + 1 := by
      rw [Int.ediv_lt_iff_lt_mul hd]
      nlinarith [m (hi - a0) (hi - a1) (by omega) (by omega)]
    omega

/-- The same with both signs turned. -/
theorem lerpFloor_between_neg {a0 a1 num den lo hi : Int} (hd : den < 0) (h0 : num ≤ 0) (h1 : den ≤ num) (l0 : lo ≤ a0)
    (l1 : lo ≤ a1) (u0 : a0 ≤ hi) (u1 : a1 ≤ hi) :
    lo ≤ lerpFloor a0 a1 num den ∧ lerpFloor a0 a1 num den ≤ hi := by
  rw [← lerpFloor_neg]
  exact lerpFloor_between (by omega) (by omega) (by omega) l0 l1 u0 u1

/-- Interpolation between two equal values gives that value (R333). -/
theorem lerpFloor_self (a num den : Int) : lerpFloor a a num den = a := by simp [lerpFloor, floorDiv]

/-- A floored attribute of a triangle by the signed area and weights of its vertices in queue order (R350, R353). -/
theorem triSetup_interp (K : Context) (v0 v1 v2 : Vertex) (a : Vertex → Int) (p : Pixel) :
    (triSetup K v0 v1 v2).interp a p =
      Int.fdiv
        (edge (win K v1) (win K v2) p * a v0 + edge (win K v2) (win K v0) p * a v1 +
          edge (win K v0) (win K v1) p * a v2)
        (edge (win K v0) (win K v1) (win K v2)) := by
  rcases triSetup_cases K v0 v1 v2 with ⟨-, e⟩ | ⟨-, e⟩ <;> rw [e]
  · simp only [Tri.interp, Tri.w0, Tri.w1, Tri.w2, bary, floorDiv]
    rw [← Int.neg_fdiv_neg]; congr 1
    · rw [edge_swap (win K v2) (win K v1), edge_swap (win K v1) (win K v0), edge_swap (win K v0) (win K v2)]; ring
    · ring
  · rfl

/-- An exact attribute of a triangle, likewise. -/
theorem triSetup_interpRat (K : Context) (v0 v1 v2 : Vertex) (a : Vertex → Rat) (p : Pixel) :
    (triSetup K v0 v1 v2).interpRat a p =
      ((edge (win K v1) (win K v2) p : Rat) * a v0 + (edge (win K v2) (win K v0) p : Rat) * a v1 +
        (edge (win K v0) (win K v1) p : Rat) * a v2) /
        (edge (win K v0) (win K v1) (win K v2) : Rat) := by
  rcases triSetup_cases K v0 v1 v2 with ⟨-, e⟩ | ⟨-, e⟩ <;> rw [e]
  · simp only [Tri.interpRat, Tri.w0, Tri.w1, Tri.w2, baryRat]
    rw [edge_swap (win K v2) (win K v1), edge_swap (win K v1) (win K v0), edge_swap (win K v0) (win K v2)]
    push_cast
    rw [div_neg, ← neg_div]; congr 1; ring
  · rfl

/-- `lerpFloor` over one denominator (R333). -/
theorem lerpFloor_eq (a b num den : Int) (h : den ≠ 0) : lerpFloor a b num den = Int.fdiv (a * den + (b - a) * num) den := by
  unfold lerpFloor floorDiv
  rw [Int.add_comm (a * den), Int.add_mul_fdiv_right _ _ h, Int.add_comm]

end Sys2Proof.Machine
end

