-- ==== Sys2Proof/Laws/Transfer.lean ====
section
/-! SUPPORT. The transfer engine: how a cursor moves, what a transfer command can change, and that a cursor between two
commands is as `TransferCursor.Ok` says. -/

namespace Sys2Proof.Machine

/-! ## The cursor -/

/-- A cursor inside its region or just past its end. -/
structure TransferCursor.InRegion (x : TransferCursor) : Prop where
  width : x.cx < x.rrw
  height : 0 < x.rrh
  inside : x.cy < x.rrh ∨ (x.cy = x.rrh ∧ x.cx = 0)

theorem TransferCursor.Ok.inRegion' {x : TransferCursor} (h : x.Ok) : x.InRegion :=
  ⟨h.width, h.height, h.inRegion.imp id (fun h => ⟨h.1, h.2.1⟩)⟩

/-- Cursors of one transfer: the latched buffers, window, direction and region are the same. -/
def TransferCursor.Same (x y : TransferCursor) : Prop := y = { x with cx := y.cx, cy := y.cy, carry := y.carry }

theorem TransferCursor.Same.refl (x : TransferCursor) : x.Same x := rfl

theorem TransferCursor.Same.trans {x y z : TransferCursor} (h1 : x.Same y) (h2 : y.Same z) : x.Same z := by
  obtain ⟨⟩ := x; obtain ⟨⟩ := y; obtain ⟨⟩ := z
  simp only [TransferCursor.Same, TransferCursor.mk.injEq, and_true] at *
  simp_all

/-- Moving on changes the position only. -/
theorem TransferCursor.advance_same (x : TransferCursor) : x.Same x.advance ∧ x.advance.carry = x.carry := by
  unfold TransferCursor.advance; split <;> exact ⟨rfl, rfl⟩

theorem TransferCursor.full_eq_false {x : TransferCursor} : x.full = false ↔ x.cy < x.rrh := by
  simp [TransferCursor.full]

theorem TransferCursor.full_eq_true {x : TransferCursor} : x.full = true ↔ x.rrh ≤ x.cy := by
  simp [TransferCursor.full]

theorem TransferCursor.InRegion.advance {x : TransferCursor} (h : x.InRegion) (hf : x.full = false) :
    x.advance.InRegion := by
  rw [TransferCursor.full_eq_false] at hf
  have h1 := h.width
  have h2 := h.height
  unfold TransferCursor.advance
  split
  · exact ⟨by show 0 < x.rrw; omega, h2, by show x.cy + 1 < x.rrh ∨ (x.cy + 1 = x.rrh ∧ 0 = 0); omega⟩
  · next hc => exact ⟨by show x.cx + 1 < x.rrw; omega, h2, .inl hf⟩

theorem TransferCursor.passed_advance {x : TransferCursor} : x.advance.passed = x.passed + 1 := by
  unfold TransferCursor.advance TransferCursor.passed
  split
  · next h => simp only [Nat.add_mul, Nat.one_mul, ← h]; omega
  · simp only; omega

theorem TransferCursor.InRegion.full_iff {x : TransferCursor} (h : x.InRegion) :
    x.full = true ↔ x.passed = x.rrh * x.rrw := by
  rw [TransferCursor.full_eq_true]
  have h1 := h.width
  unfold TransferCursor.passed
  rcases h.inside with hc | ⟨hc, hx⟩
  · constructor
    · intro h'; omega
    · intro h'
      have : (x.cy + 1) * x.rrw ≤ x.rrh * x.rrw := Nat.mul_le_mul_right _ hc
      rw [Nat.add_mul, Nat.one_mul] at this
      omega
  · simp [hc, hx]

/-! ## Host to local -/

/-- Putting a pixel changes the cursor's position only. -/
theorem putPixel_snd (p : Psm) (st : LocalMem × TransferCursor) (v : VWord) :
    (putPixel p st v).2 = if st.2.full then st.2 else st.2.advance := by
  unfold putPixel; dsimp only; split <;> rfl

theorem LocalMem.Ok.putPixel {st : LocalMem × TransferCursor} (h : st.1.Ok) (p : Psm) (v : VWord) :
    (putPixel p st v).1.Ok := by
  unfold Machine.putPixel; dsimp only; split
  · exact h
  · exact h.writePixel _ _ _ _ _ _

theorem LocalMem.Ok.putPixels {st : LocalMem × TransferCursor} (h : st.1.Ok) (p : Psm) (l : List VWord) :
    (l.foldl (Machine.putPixel p) st).1.Ok := by
  induction l generalizing st with
  | nil => exact h
  | cons v l ih => exact ih (h.putPixel p v)

theorem putPixels_same (p : Psm) (st : LocalMem × TransferCursor) (l : List VWord) :
    st.2.Same (l.foldl (putPixel p) st).2 ∧ (l.foldl (putPixel p) st).2.carry = st.2.carry := by
  induction l generalizing st with
  | nil => exact ⟨rfl, rfl⟩
  | cons v l ih =>
    have h2 : st.2.Same (putPixel p st v).2 ∧ (putPixel p st v).2.carry = st.2.carry := by
      rw [putPixel_snd]
      split
      · exact ⟨rfl, rfl⟩
      · exact st.2.advance_same
    exact ⟨h2.1.trans (ih _).1, (ih _).2.trans h2.2⟩

theorem putPixels_inRegion (p : Psm) {st : LocalMem × TransferCursor} (h : st.2.InRegion) (l : List VWord) :
    (l.foldl (putPixel p) st).2.InRegion := by
  induction l generalizing st with
  | nil => exact h
  | cons v l ih =>
    apply ih
    rw [putPixel_snd]
    split
    · exact h
    · next hf => exact h.advance (by simpa using hf)

/-- Each pixel moves the cursor on by one until the region is full (R490). -/
theorem putPixels_passed (p : Psm) {st : LocalMem × TransferCursor} (h : st.2.InRegion) (l : List VWord) :
    (l.foldl (putPixel p) st).2.passed = min (st.2.passed + l.length) (st.2.rrh * st.2.rrw) := by
  induction l generalizing st with
  | nil =>
    have hle : st.2.passed ≤ st.2.rrh * st.2.rrw := by
      by_cases hf : st.2.full = true
      · exact le_of_eq (h.full_iff.1 hf)
      · have h1 := TransferCursor.full_eq_false.1 (by simpa using hf)
        have h2 : (st.2.cy + 1) * st.2.rrw ≤ st.2.rrh * st.2.rrw := Nat.mul_le_mul_right _ h1
        rw [Nat.add_mul, Nat.one_mul] at h2
        have h3 := h.width
        unfold TransferCursor.passed
        omega
    simp only [List.foldl_nil, List.length_nil, Nat.add_zero]
    omega
  | cons v l ih =>
    rw [List.foldl_cons]
    by_cases hf : st.2.full = true
    · have e : putPixel p st v = st := by simp [putPixel, hf]
      rw [e, ih h, h.full_iff.1 hf]
      simp only [List.length_cons]
      omega
    · have hf' : st.2.full = false := by simpa using hf
      have e : (putPixel p st v).2 = st.2.advance := by rw [putPixel_snd, if_neg hf]
      rw [ih (e ▸ h.advance hf'), e, TransferCursor.passed_advance, st.2.advance_same.1]
      simp only [List.length_cons]
      omega

/-- What is left of a byte stream cut into 24-bit pixels is no whole pixel (R491). -/
theorem cut24_left_length (l : List Byte) : (cut24 l).2.length = l.length % 3 := by
  induction l using cut24.induct with
  | case1 b0 b1 b2 rest ih => simp only [cut24, ih, List.length_cons]; omega
  | case2 rest h =>
    match rest, h with
    | [], _ => rfl
    | [_], _ => rfl
    | [_, _], _ => rfl
    | b0 :: b1 :: b2 :: r, h => exact absurd rfl (h b0 b1 b2 r)

/-- How many pixels a byte stream gives (R491). -/
theorem cut24_length (l : List Byte) : (cut24 l).1.length = l.length / 3 := by
  induction l using cut24.induct with
  | case1 b0 b1 b2 rest ih => simp only [cut24, ih, List.length_cons]; omega
  | case2 rest h =>
    match rest, h with
    | [], _ => rfl
    | [_], _ => simp [cut24]
    | [_, _], _ => simp [cut24]
    | b0 :: b1 :: b2 :: r, h => exact absurd rfl (h b0 b1 b2 r)

@[simp] theorem dataBytes_length (d : Word) : (dataBytes d).length = 8 := by simp [dataBytes]

/-- A data word changes the cursor's position and carry only. -/
theorem putData_same (p : Psm) (lm : LocalMem) (x : TransferCursor) (d : Word) :
    x.Same (putData p lm x d).2 ∧ (putData p lm x d).2.carry = (unpackData p x.carry d).2 :=
  have h := putPixels_same p (lm, { x with carry := (unpackData p x.carry d).2 }) (unpackData p x.carry d).1
  ⟨TransferCursor.Same.trans (y := { x with carry := (unpackData p x.carry d).2 }) rfl h.1, h.2⟩

theorem putData_inRegion (p : Psm) (lm : LocalMem) {x : TransferCursor} (h : x.InRegion) (d : Word) :
    (putData p lm x d).2.InRegion :=
  putPixels_inRegion p (st := (lm, { x with carry := (unpackData p x.carry d).2 })) ⟨h.1, h.2, h.3⟩ _

theorem unpackData_carry_length (p : Psm) (carry : List Byte) (d : Word) (h : carry.length ≤ 2) :
    (unpackData p carry d).2.length ≤ 2 := by
  unfold unpackData
  split
  · rw [cut24_left_length]; omega
  · exact h

/-- What an HWREG write can do: nothing, or move an active host-to-local transfer on. -/
theorem State.transferWrite_cases (s : State) (d : Word) :
    ((∀ x, s.xfer = some x → x.dir ≠ .hostToLocal) ∧ s.transferWrite d = s) ∨
    (∃ x, s.xfer = some x ∧ x.dir = .hostToLocal ∧
      s.transferWrite d =
        { s with
          lm := (putData ((Psm.ofCode x.dpsm).getD .ct32) s.lm x d).1
          xfer :=
            if (putData ((Psm.ofCode x.dpsm).getD .ct32) s.lm x d).2.full then none
            else some (putData ((Psm.ofCode x.dpsm).getD .ct32) s.lm x d).2 }) := by
  unfold State.transferWrite
  cases hx : s.xfer with
  | none => exact .inl ⟨by simp, rfl⟩
  | some x =>
    by_cases hd : x.dir = .hostToLocal
    · refine .inr ⟨x, rfl, hd, ?_⟩
      simp [hd]
    · refine .inl ⟨?_, ?_⟩
      · intro y hy; cases hy; exact hd
      · simp [hd]

theorem State.transferWrite_frame (s : State) (d : Word) :
    s.transferWrite d = { s with lm := (s.transferWrite d).lm, xfer := (s.transferWrite d).xfer } := by
  rcases State.transferWrite_cases s d with ⟨-, e⟩ | ⟨x, -, -, e⟩ <;> rw [e]

theorem State.transferWrite_lm_ok {s : State} (d : Word) (h : s.lm.Ok) : (s.transferWrite d).lm.Ok := by
  rcases State.transferWrite_cases s d with ⟨-, e⟩ | ⟨x, -, -, e⟩ <;> rw [e]
  · exact h
  · exact LocalMem.Ok.putPixels (st := (s.lm, _)) h _ _

theorem State.transferWrite_cursor_ok {s : State} (d : Word) (h : ∀ x, s.xfer = some x → x.Ok) :
    ∀ x, (s.transferWrite d).xfer = some x → x.Ok := by
  rcases State.transferWrite_cases s d with ⟨-, e⟩ | ⟨x, hx, hd, e⟩
  · rw [e]; exact h
  · rw [e]
    intro y hy
    have hok := h x hx
    obtain ⟨p, hp, hc⟩ := hok.format
    have hr := putData_inRegion ((Psm.ofCode x.dpsm).getD .ct32) s.lm hok.inRegion' d
    obtain ⟨he, hcar⟩ := putData_same ((Psm.ofCode x.dpsm).getD .ct32) s.lm x d
    dsimp only at hy
    split at hy
    · cases hy
    · next hf =>
      cases hy
      have hp' : Psm.ofCode x.dpsm = some p := by rw [hd] at hp; exact hp
      have hlt := TransferCursor.full_eq_false.1 (by simpa using hf)
      refine ⟨hr.width, hr.height, .inl hlt, ⟨p, ?_, fun h24 => ?_⟩, ?_⟩
      · rw [he]
        simp only [hd, hp']
      · rw [hcar, hp', Option.getD_some]
        simp only [unpackData, h24, if_false]
        exact hc h24
      · rw [hcar]
        exact unpackData_carry_length _ _ _ hok.carry

/-! ## Local to host -/

theorem takePixel_snd (p : Psm) (m : Memory) (x : TransferCursor) :
    (takePixel p m x).2 = if x.full then x else x.advance := by
  unfold takePixel; split <;> rfl

theorem takePixel_same (p : Psm) (m : Memory) (x : TransferCursor) :
    x.Same (takePixel p m x).2 ∧ (takePixel p m x).2.carry = x.carry := by
  rw [takePixel_snd]
  split
  · exact ⟨rfl, rfl⟩
  · exact x.advance_same

theorem takePixel_inRegion (p : Psm) (m : Memory) {x : TransferCursor} (h : x.InRegion) :
    (takePixel p m x).2.InRegion := by
  rw [takePixel_snd]
  split
  · exact h
  · next hf => exact h.advance (by simpa using hf)

theorem takePacked_same (p : Psm) (m : Memory) (n i : Nat) (x : TransferCursor) :
    x.Same (takePacked p m n i x).2 ∧ (takePacked p m n i x).2.carry = x.carry := by
  induction n generalizing i x with
  | zero => exact ⟨rfl, rfl⟩
  | succ n ih =>
    have h := takePixel_same p m x
    exact ⟨h.1.trans (ih (i + 1) _).1, (ih (i + 1) _).2.trans h.2⟩

theorem takePacked_inRegion (p : Psm) (m : Memory) (n i : Nat) {x : TransferCursor} (h : x.InRegion) :
    (takePacked p m n i x).2.InRegion := by
  induction n generalizing i x with
  | zero => exact h
  | succ n ih => exact ih (i + 1) (takePixel_inRegion p m h)

@[simp] theorem pixelBytes_length (v : VWord) : (pixelBytes v).length = 3 := rfl

theorem fillCarry_same (p : Psm) (m : Memory) (n : Nat) (x : TransferCursor) : x.Same (fillCarry p m n x) := by
  induction n generalizing x with
  | zero => rfl
  | succ n ih =>
    unfold fillCarry
    dsimp only
    split
    · exact TransferCursor.Same.trans
        (y := { (takePixel p m x).2 with carry := x.carry ++ pixelBytes (takePixel p m x).1 })
        ((takePixel_same p m x).1.trans rfl) (ih _)
    · rfl

theorem fillCarry_inRegion (p : Psm) (m : Memory) (n : Nat) {x : TransferCursor} (h : x.InRegion) :
    (fillCarry p m n x).InRegion := by
  induction n generalizing x with
  | zero => exact h
  | succ n ih =>
    unfold fillCarry
    dsimp only
    split
    · have h' := takePixel_inRegion p m h
      exact ih ⟨h'.1, h'.2, h'.3⟩
    · exact h

theorem fillCarry_length_le (p : Psm) (m : Memory) (n : Nat) {x : TransferCursor} (h : x.carry.length ≤ 10) :
    (fillCarry p m n x).carry.length ≤ 10 := by
  induction n generalizing x with
  | zero => exact h
  | succ n ih =>
    unfold fillCarry
    dsimp only
    split
    · next hc => apply ih; simp only [List.length_append, pixelBytes_length]; omega
    · exact h

theorem fillCarry_done (p : Psm) (m : Memory) (n : Nat) {x : TransferCursor} (h : 8 ≤ x.carry.length + 3 * n) :
    8 ≤ (fillCarry p m n x).carry.length ∨ (fillCarry p m n x).full = true := by
  induction n generalizing x with
  | zero => exact .inl h
  | succ n ih =>
    unfold fillCarry
    dsimp only
    split
    · apply ih; simp only [List.length_append, pixelBytes_length]; omega
    · next hc =>
      by_cases h8 : 8 ≤ x.carry.length
      · exact .inl h8
      · right
        by_contra hf
        exact hc ⟨by omega, by simpa using hf⟩

/-- A read changes the cursor's position and carry only. -/
theorem takeData_same (p : Psm) (m : Memory) (x : TransferCursor) : x.Same (takeData p m x).2 := by
  unfold takeData
  dsimp only
  split
  · exact (fillCarry_same p m 3 x).trans rfl
  · exact (takePacked_same p m _ 0 x).1

/-- What TR can do: return a free value, or the next data of an active local-to-host transfer. -/
theorem State.transferRead_cases (s : State) :
    ((∀ x, s.xfer = some x → x.dir ≠ .localToHost) ∧ s.transferRead = s.replyAny) ∨
    (∃ x, s.xfer = some x ∧ x.dir = .localToHost ∧
      s.transferRead =
        { s with
          xfer :=
            if (takeData ((Psm.ofCode x.spsm).getD .ct32) s.lm.vram x).2.full &&
              (takeData ((Psm.ofCode x.spsm).getD .ct32) s.lm.vram x).2.carry.isEmpty then none
            else some (takeData ((Psm.ofCode x.spsm).getD .ct32) s.lm.vram x).2
          replies := s.replies ++ [(takeData ((Psm.ofCode x.spsm).getD .ct32) s.lm.vram x).1] }) := by
  unfold State.transferRead
  cases hx : s.xfer with
  | none => exact .inl ⟨by simp, rfl⟩
  | some x =>
    by_cases hd : x.dir = .localToHost
    · refine .inr ⟨x, rfl, hd, ?_⟩
      simp only [hd, if_true]
      rfl
    · refine .inl ⟨?_, ?_⟩
      · intro y hy; cases hy; exact hd
      · simp [hd]

theorem State.transferRead_cursor_ok {s : State} (h : ∀ x, s.xfer = some x → x.Ok) :
    ∀ x, s.transferRead.xfer = some x → x.Ok := by
  rcases State.transferRead_cases s with ⟨-, e⟩ | ⟨x, hx, hd, e⟩
  · rw [e]; exact h
  · rw [e]
    intro y hy
    have hok := h x hx
    obtain ⟨p, hp, hc⟩ := hok.format
    have hp' : Psm.ofCode x.spsm = some p := by rw [hd] at hp; exact hp
    dsimp only at hy
    rw [hp', Option.getD_some] at hy
    have he := takeData_same p s.lm.vram x
    split at hy
    · cases hy
    · next hf =>
      cases hy
      simp only [Bool.and_eq_true, not_and, Bool.not_eq_true] at hf
      by_cases h24 : p.bits = 24
      · have ht : (takeData p s.lm.vram x).2 =
            { fillCarry p s.lm.vram 3 x with carry := (fillCarry p s.lm.vram 3 x).carry.drop 8 } := by
          simp [takeData, h24]
        have hr := fillCarry_inRegion p s.lm.vram 3 hok.inRegion'
        have hl := fillCarry_length_le p s.lm.vram 3 (x := x) (by have := hok.carry; omega)
        have hdir : (takeData p s.lm.vram x).2.dir = .localToHost := by rw [he]; exact hd
        have hps : (takeData p s.lm.vram x).2.spsm = x.spsm := by rw [he]
        refine ⟨by rw [ht]; exact hr.width, by rw [ht]; exact hr.height, ?_, ?_, ?_⟩
        · by_cases hfull : (takeData p s.lm.vram x).2.full = true
          · right
            have hcar := hf hfull
            have hfull' : (fillCarry p s.lm.vram 3 x).full = true := by rw [ht] at hfull; exact hfull
            have hge := TransferCursor.full_eq_true.1 hfull'
            refine ⟨?_, ?_, hdir, by simpa using hcar⟩
            · rw [ht]; show (fillCarry p s.lm.vram 3 x).cy = (fillCarry p s.lm.vram 3 x).rrh
              rcases hr.inside with h | h <;> omega
            · rw [ht]; show (fillCarry p s.lm.vram 3 x).cx = 0
              rcases hr.inside with h | h <;> omega
          · exact .inl (TransferCursor.full_eq_false.1 (by simpa using hfull))
        · rw [hdir]
          exact ⟨p, by rw [← hp', ← hps], fun h => absurd h24 h⟩
        · rw [ht]
          simp only [List.length_drop]
          omega
      · have ht : (takeData p s.lm.vram x).2 = (takePacked p s.lm.vram (64 / p.bits) 0 x).2 := by
          simp [takeData, h24]
        have hr := takePacked_inRegion p s.lm.vram (64 / p.bits) 0 hok.inRegion'
        have hcar : (takeData p s.lm.vram x).2.carry = [] := by rw [ht, (takePacked_same _ _ _ _ _).2]; exact hc h24
        have hdir : (takeData p s.lm.vram x).2.dir = .localToHost := by rw [he]; exact hd
        have hps : (takeData p s.lm.vram x).2.spsm = x.spsm := by rw [he]
        have hnf : (takeData p s.lm.vram x).2.full = false := by
          by_contra hfull
          have := hf (by simpa using hfull)
          rw [hcar] at this
          exact absurd this (by decide)
        refine ⟨by rw [ht]; exact hr.width, by rw [ht]; exact hr.height,
          .inl (TransferCursor.full_eq_false.1 hnf), ?_, by rw [hcar]; decide⟩
        rw [hdir]
        exact ⟨p, by rw [← hp', ← hps], fun _ => hcar⟩

/-! ## Starting -/

theorem LocalMem.Ok.copyLocal {lm : LocalMem} (h : lm.Ok) (sp dp : Psm) (b p g : Word) :
    (copyLocal sp dp b p g lm).Ok := by
  unfold Machine.copyLocal
  generalize regionPixels (regRrw g) (regRrh g) = l
  induction l generalizing lm with
  | nil => exact h
  | cons xy l ih => exact ih (h.writePixel _ _ _ _ _ _)

/-- The cursor a TRXDIR write latches is as a cursor between two commands, for a region that is not empty. -/
theorem latchCursor_ok {dir : TransferDir} {b p g : Word} {q : Psm}
    (hq : Psm.ofCode (match dir with | .hostToLocal => bltDpsm b | .localToHost => bltSpsm b) = some q)
    (hw : regRrw g ≠ 0) (hh : regRrh g ≠ 0) : (latchCursor dir b p g).Ok where
  width := by show 0 < regRrw g; omega
  height := by show 0 < regRrh g; omega
  inRegion := .inl (by show 0 < regRrh g; omega)
  format := ⟨q, hq, fun _ => rfl⟩
  carry := by show 0 ≤ 2; omega

/-- What starting a transfer can do, besides abandoning the old one: nothing, refuse, leave a cursor, or copy. -/
theorem State.startTransfer_cases (s : State) (xdir : Nat) :
    s.startTransfer xdir = { s with xfer := none } ∨
    (∃ r, s.startTransfer xdir = { s with xfer := none, refused := true, reasons := s.reasons ++ [r] }) ∨
    (∃ x, x.Ok ∧ s.startTransfer xdir = { s with xfer := some x }) ∨
    (∃ sp dp, xdir = 2 ∧ s.startTransfer xdir =
      { s with
        xfer := none
        lm := copyLocal sp dp (s.reg .bitbltbuf) (s.reg .trxpos) (s.reg .trxreg) s.lm }) := by
  unfold State.startTransfer
  dsimp only
  split
  · unfold State.startCursor
    split
    · exact .inr (.inl ⟨_, rfl⟩)
    · next hs =>
      split
      · exact .inl rfl
      · next hz =>
        obtain ⟨q, hq⟩ := Option.ne_none_iff_exists'.1 (by simpa using hs)
        exact .inr (.inr (.inl ⟨_, latchCursor_ok (dir := .hostToLocal) (q := q) hq (fun e => hz (.inl e)) (fun e => hz (.inr e)), rfl⟩))
  · unfold State.startCursor
    split
    · exact .inr (.inl ⟨_, rfl⟩)
    · next hs =>
      split
      · exact .inl rfl
      · next hz =>
        obtain ⟨q, hq⟩ := Option.ne_none_iff_exists'.1 (by simpa using hs)
        exact .inr (.inr (.inl ⟨_, latchCursor_ok (dir := .localToHost) (q := q) hq (fun e => hz (.inl e)) (fun e => hz (.inr e)), rfl⟩))
  · unfold State.startCopy
    split
    · split
      · exact .inr (.inl ⟨_, rfl⟩)
      · exact .inr (.inr (.inr ⟨_, _, rfl, rfl⟩))
    · exact .inr (.inl ⟨_, rfl⟩)
  · exact .inl rfl

theorem State.startTransfer_frame (s : State) (xdir : Nat) :
    s.startTransfer xdir =
      { s with
        xfer := (s.startTransfer xdir).xfer
        lm := (s.startTransfer xdir).lm
        refused := (s.startTransfer xdir).refused
        reasons := (s.startTransfer xdir).reasons } := by
  rcases State.startTransfer_cases s xdir with e | ⟨r, e⟩ | ⟨x, -, e⟩ | ⟨sp, dp, -, e⟩ <;> rw [e]

theorem State.startTransfer_cursor_ok (s : State) (xdir : Nat) : ∀ x, (s.startTransfer xdir).xfer = some x → x.Ok := by
  rcases State.startTransfer_cases s xdir with e | ⟨r, e⟩ | ⟨x, hx, e⟩ | ⟨sp, dp, -, e⟩ <;> rw [e] <;> intro y hy
  · cases hy
  · cases hy
  · cases hy; exact hx
  · cases hy

theorem State.startTransfer_lm_ok {s : State} (xdir : Nat) (h : s.lm.Ok) : (s.startTransfer xdir).lm.Ok := by
  rcases State.startTransfer_cases s xdir with e | ⟨r, e⟩ | ⟨x, -, e⟩ | ⟨sp, dp, -, e⟩ <;> rw [e]
  · exact h
  · exact h
  · exact h
  · exact h.copyLocal _ _ _ _ _

/-! ## Every effect of a stretch of pixels -/

theorem TransferCursor.moved_advance (x : TransferCursor) (n : Nat) : x.advance.moved n = x.moved (n + 1) := by
  induction n with
  | zero => rfl
  | succ n ih => show (x.advance.moved n).advance = _; rw [ih]; rfl

/-- Moving on changes the cursor's position only. -/
theorem TransferCursor.moved_same (x : TransferCursor) (n : Nat) :
    x.Same (x.moved n) ∧ (x.moved n).carry = x.carry := by
  induction n with
  | zero => exact ⟨rfl, rfl⟩
  | succ n ih => exact ⟨ih.1.trans (TransferCursor.advance_same _).1, (TransferCursor.advance_same _).2.trans ih.2⟩

theorem TransferCursor.passed_moved (x : TransferCursor) (n : Nat) : (x.moved n).passed = x.passed + n := by
  induction n with
  | zero => rfl
  | succ n ih => simp only [TransferCursor.moved, TransferCursor.passed_advance, ih]; omega

/-- The carry has no part in moving on. -/
theorem TransferCursor.moved_carry (x : TransferCursor) (c : List Byte) (n : Nat) :
    ({ x with carry := c } : TransferCursor).moved n = { x.moved n with carry := c } := by
  induction n with
  | zero => rfl
  | succ n ih => simp only [TransferCursor.moved, ih]; unfold TransferCursor.advance; dsimp only; split <;> rfl

/-- How many pixels of a list still fit in the region of a cursor (R490). -/
def TransferCursor.fits (x : TransferCursor) (l : List VWord) : Nat := min l.length (x.rrh * x.rrw - x.passed)

theorem TransferCursor.fits_of_full {x : TransferCursor} (h : x.InRegion) (l : List VWord) (hf : x.full = true) :
    x.fits l = 0 := by
  simp [TransferCursor.fits, h.full_iff.1 hf]

theorem TransferCursor.fits_cons {x : TransferCursor} (h : x.InRegion) (v : VWord) (l : List VWord) :
    x.fits (v :: l) = if x.full then 0 else x.advance.fits l + 1 := by
  split
  · next hf => exact TransferCursor.fits_of_full h _ hf
  · next hf =>
    have h2 := TransferCursor.passed_advance (x := x)
    have h3 : x.advance.rrh = x.rrh ∧ x.advance.rrw = x.rrw := by
      rw [(TransferCursor.advance_same x).1]; exact ⟨rfl, rfl⟩
    have h4 : x.passed < x.rrh * x.rrw := by
      have hc := TransferCursor.full_eq_false.1 (by simpa using hf : x.full = false)
      have := h.width
      unfold TransferCursor.passed
      calc x.cy * x.rrw + x.cx < x.cy * x.rrw + x.rrw := by omega
        _ = (x.cy + 1) * x.rrw := by ring
        _ ≤ _ := Nat.mul_le_mul_right _ hc
    simp only [TransferCursor.fits, List.length_cons, h2, h3.1, h3.2]; omega

/-- The element of the destination pixel of a cursor's i-th pixel from here on (R490). -/
def TransferCursor.destElem (p : Psm) (x : TransferCursor) (i : Nat) : Nat :=
  p.swz x.dbp x.dbw (windowCoord x.dsax (x.moved i).cx) (windowCoord x.dsay (x.moved i).cy)

/-- What a stretch of pixels put at a cursor does: the cursor moves past those that fit; a pixel's place then holds the last
pixel put there and every other place its old bits; other bytes, the counter of free values and the order of the dirty set
are kept, and the dirty set gains the words written (R490). -/
theorem putPixels_effects (p : Psm) (l : List VWord) (lm : LocalMem) {x : TransferCursor} (h : x.InRegion) :
    let r := l.foldl (putPixel p) (lm, x)
    r.2 = x.moved (x.fits l) ∧
    (∀ i v, i < x.fits l → l[i]? = some v →
      (∀ j, i < j → j < x.fits l → x.destElem p j ≠
        x.destElem p i) →
      r.1.vram.readRaw p x.dbp x.dbw (windowCoord x.dsax (x.moved i).cx) (windowCoord x.dsay (x.moved i).cy) =
        v &&& lowMask p.bits) ∧
    (∀ cx cy, (∀ j, j < x.fits l → x.destElem p j ≠
        p.swz x.dbp x.dbw cx cy) → r.1.vram.readRaw p x.dbp x.dbw cx cy = lm.vram.readRaw p x.dbp x.dbw cx cy) ∧
    (∀ a, (∀ i, i < x.fits l → a / 4 ≠ (x.moved i).destWord p) → r.1.vram.readByte a = lm.vram.readByte a) ∧
    (∀ a, a ∈ r.1.dirty ↔ a ∈ lm.dirty ∨ ∃ i, i < x.fits l ∧ a = (x.moved i).destWord p) ∧
    (lm.dirty.Pairwise (· < ·) → r.1.dirty.Pairwise (· < ·)) ∧ r.1.free = lm.free := by
  induction l generalizing lm x with
  | nil => simp [TransferCursor.fits, TransferCursor.moved]
  | cons v l ih =>
    rw [TransferCursor.fits_cons h, List.foldl_cons]
    by_cases hf : x.full = true
    · have e : putPixel p (lm, x) v = (lm, x) := by simp [putPixel, hf]
      have := ih lm h
      rw [TransferCursor.fits_of_full h l hf] at this
      rw [e, if_pos hf]
      obtain ⟨a1, a2, a3, a4, a5, a6⟩ := this
      refine ⟨a1, ?_, a3, a4, a5, a6⟩
      intro i v hi; omega
    · have hf' : x.full = false := by simpa using hf
      have e : putPixel p (lm, x) v =
          (lm.writePixel p x.dbp x.dbw (windowCoord x.dsax x.cx) (windowCoord x.dsay x.cy) v, x.advance) := by
        simp [putPixel, hf']
      have hs := (TransferCursor.advance_same x).1
      have s1 : x.advance.dbp = x.dbp := by rw [hs]
      have s2 : x.advance.dbw = x.dbw := by rw [hs]
      have s3 : x.advance.dsax = x.dsax := by rw [hs]
      have s4 : x.advance.dsay = x.dsay := by rw [hs]
      have := ih (lm.writePixel p x.dbp x.dbw (windowCoord x.dsax x.cx) (windowCoord x.dsay x.cy) v) (h.advance hf')
      simp only [TransferCursor.destElem, s1, s2, s3, s4, TransferCursor.moved_advance] at this
      rw [e, if_neg hf]
      obtain ⟨a1, a2, a3, a4, a5, a6, a7⟩ := this
      refine ⟨a1, ?_, ?_, ?_, ?_, fun h => a6 (pairwise_insertDirty h), a7⟩
      · intro i u hi hu hj
        cases i with
        | zero =>
          simp only [List.getElem?_cons_zero, Option.some.injEq] at hu; subst hu
          refine (a3 _ _ (fun j hj' => hj (j + 1) (by omega) (by omega))).trans ?_
          exact Memory.readRaw_writeRaw_same _ _ _ _ _ _ _
        | succ i =>
          exact a2 i u (by omega) (by simpa using hu) (fun j h1 h2 => hj (j + 1) (by omega) (by omega))
      · intro cx cy hj
        refine (a3 _ _ (fun j hj' => hj (j + 1) (by omega))).trans ?_
        exact Memory.readRaw_writeRaw_swz_ne _ _ (fun e => hj 0 (by omega) e.symm)
      · intro a ha
        refine (a4 a (fun i hi => ha (i + 1) (by omega))).trans ?_
        exact Memory.readByte_writeRaw_ne _ _ (ha 0 (by omega))
      · intro a
        refine (a5 a).trans ?_
        show (a ∈ insertDirty _ _ ∨ _) ↔ _
        rw [mem_insertDirty]
        constructor
        · rintro ((rfl | h) | ⟨i, h1, h2⟩)
          · exact .inr ⟨0, by omega, rfl⟩
          · exact .inl h
          · exact .inr ⟨i + 1, by omega, h2⟩
        · rintro (h | ⟨i, h1, h2⟩)
          · exact .inl (.inr h)
          · cases i with
            | zero => exact .inl (.inl h2)
            | succ i => exact .inr ⟨i, by omega, h2⟩

/-! ## The pixels of a local copy -/

/-- A fold goes through one state for each element. -/
theorem foldl_steps {α β : Type} (f : α → β → α) (a : α) (l : List β) :
    ∃ m : Nat → α, m 0 = a ∧ l.foldl f a = m l.length ∧ ∀ i b, l[i]? = some b → m (i + 1) = f (m i) b := by
  refine ⟨fun i => (l.take i).foldl f a, rfl, by simp, ?_⟩
  intro i b h
  obtain ⟨hi, rfl⟩ := List.getElem?_eq_some_iff.1 h
  show (l.take (i + 1)).foldl f a = _
  rw [List.take_add_one, List.getElem?_eq_getElem hi, List.foldl_append]; rfl

theorem length_regionPixels (w h : Nat) : (regionPixels w h).length = w * h := by
  simp [regionPixels, List.length_flatMap, Nat.mul_comm]

/-- The pixels of a region are its offsets. -/
theorem mem_regionPixels {w h : Nat} {q : Nat × Nat} : q ∈ regionPixels w h ↔ q.1 < w ∧ q.2 < h := by
  obtain ⟨x, y⟩ := q
  simp only [regionPixels, List.mem_flatMap, List.mem_map, List.mem_range, Prod.mk.injEq]
  constructor
  · rintro ⟨b, hb, c, hc, rfl, rfl⟩; exact ⟨hc, hb⟩
  · rintro ⟨h1, h2⟩; exact ⟨y, h2, x, h1, rfl, rfl⟩

/-- They come row by row. -/
theorem getElem?_regionPixels (w h i : Nat) (hi : i < w * h) : (regionPixels w h)[i]? = some (i % w, i / w) := by
  induction h generalizing i with
  | zero => simp at hi
  | succ h ih =>
    have hs : regionPixels w (h + 1) = regionPixels w h ++ (List.range w).map (fun x => (x, h)) := by
      simp [regionPixels, List.range_succ]
    rw [hs, List.getElem?_append, length_regionPixels]
    split
    · next hlt => exact ih i hlt
    · next hge =>
      have hw : 0 < w := by rcases Nat.eq_zero_or_pos w with rfl | h'; · simp at hi
                            · exact h'
      have h1 : i - w * h < w := by rw [Nat.mul_add] at hi; omega
      have h2 : i / w = h := Nat.div_eq_of_lt_le (by rw [Nat.mul_comm]; omega) (by rw [Nat.mul_comm]; omega)
      have h3 : i % w = i - w * h := by rw [Nat.mod_def, h2]
      rw [h2, h3]
      simp [List.getElem?_map, List.getElem?_range h1]

theorem nodup_regionPixels (w h : Nat) : (regionPixels w h).Nodup := by
  unfold regionPixels
  rw [List.nodup_flatMap]
  refine ⟨fun y _ => List.Nodup.map (fun a b h => (Prod.mk.inj h).1) List.nodup_range, ?_⟩
  refine List.pairwise_lt_range.imp ?_
  intro a b hab q h1 h2
  simp only [List.mem_map] at h1 h2
  obtain ⟨_, _, rfl⟩ := h1
  obtain ⟨_, _, h2⟩ := h2
  simp only [Prod.mk.injEq] at h2
  omega

/-- The word a local copy writes for an offset (R485). -/
abbrev copyWord (dp : Psm) (b p : Word) (q : Nat × Nat) : Nat :=
  dp.wordAt (bltDbp b) (bltDbw b) (windowCoord (posDsax p) q.1) (windowCoord (posDsay p) q.2)

/-- A copy acts on VRAM whatever the dirty set and the counter are. -/
theorem copyPixels_vram (sp dp : Psm) (b p : Word) (l : List (Nat × Nat)) (lm : LocalMem) :
    (l.foldl (copyPixel sp dp b p) lm).vram = l.foldl (fun m xy => (copyPixel sp dp b p ⟨m, [], 0⟩ xy).vram) lm.vram := by
  induction l generalizing lm with
  | nil => rfl
  | cons q l ih => exact ih _

/-- The dirty set gains the words written and stays in order; the counter of free values is kept (R485, R575). -/
theorem copyPixels_dirty (sp dp : Psm) (b p : Word) (l : List (Nat × Nat)) (lm : LocalMem) :
    let t := l.foldl (copyPixel sp dp b p) lm
    (∀ a, a ∈ t.dirty ↔ a ∈ lm.dirty ∨ ∃ q ∈ l, a = copyWord dp b p q) ∧
    (lm.dirty.Pairwise (· < ·) → t.dirty.Pairwise (· < ·)) ∧ t.free = lm.free := by
  induction l generalizing lm with
  | nil => simp
  | cons q l ih =>
    obtain ⟨h1, h2, h3⟩ := ih (copyPixel sp dp b p lm q)
    refine ⟨?_, fun h => h2 (pairwise_insertDirty h), h3⟩
    intro a
    refine (h1 a).trans ?_
    show (a ∈ insertDirty _ _ ∨ _) ↔ _
    rw [mem_insertDirty]; simp only [List.mem_cons, exists_eq_or_imp]; tauto

/-- Bytes outside the words written are kept. -/
theorem copyPixels_byte (sp dp : Psm) (b p : Word) (l : List (Nat × Nat)) (lm : LocalMem) (a : Nat)
    (h : ∀ q ∈ l, a / 4 ≠ copyWord dp b p q) :
    (l.foldl (copyPixel sp dp b p) lm).vram.readByte a = lm.vram.readByte a := by
  induction l generalizing lm with
  | nil => rfl
  | cons q l ih =>
    refine (ih _ (fun r hr => h r (.tail _ hr))).trans ?_
    exact Memory.readByte_writeRaw_ne _ _ (h q (.head _))

/-- A source pixel whose word is not written is kept. -/
theorem copyPixels_source (sp dp : Psm) (b p : Word) (l : List (Nat × Nat)) (lm : LocalMem) {bp bw x y : Nat}
    (h : ∀ q ∈ l, sp.wordAt bp bw x y ≠ copyWord dp b p q) :
    (l.foldl (copyPixel sp dp b p) lm).vram.readRaw sp bp bw x y = lm.vram.readRaw sp bp bw x y := by
  induction l generalizing lm with
  | nil => rfl
  | cons q l ih =>
    refine (ih _ (fun r hr => h r (.tail _ hr))).trans ?_
    exact Memory.readRaw_writeRaw_ne _ _ (h q (.head _))

/-- A destination pixel whose place no offset takes is kept. -/
theorem copyPixels_place (sp dp : Psm) (b p : Word) (l : List (Nat × Nat)) (lm : LocalMem) {x y : Nat}
    (h : ∀ q ∈ l, dp.swz (bltDbp b) (bltDbw b) x y ≠
      dp.swz (bltDbp b) (bltDbw b) (windowCoord (posDsax p) q.1) (windowCoord (posDsay p) q.2)) :
    (l.foldl (copyPixel sp dp b p) lm).vram.readRaw dp (bltDbp b) (bltDbw b) x y =
      lm.vram.readRaw dp (bltDbp b) (bltDbw b) x y := by
  induction l generalizing lm with
  | nil => rfl
  | cons q l ih =>
    refine (ih _ (fun r hr => h r (.tail _ hr))).trans ?_
    exact Memory.readRaw_writeRaw_swz_ne _ _ (h q (.head _))

/-- A TRXDIR write with XDIR = 2 starts a copy from the registers as they were. -/
theorem State.startTransfer_copy (s : State) (d : Word) :
    (s.setReg .trxdir d).startTransfer 2 =
      ((s.setReg .trxdir d).setXfer none).startCopy (s.reg .bitbltbuf) (s.reg .trxpos) (s.reg .trxreg) := by
  have h1 : (s.setReg .trxdir d).reg .bitbltbuf = s.reg .bitbltbuf := Regs.read_write_ne _ _ (by decide)
  have h2 : (s.setReg .trxdir d).reg .trxpos = s.reg .trxpos := Regs.read_write_ne _ _ (by decide)
  have h3 : (s.setReg .trxdir d).reg .trxreg = s.reg .trxreg := Regs.read_write_ne _ _ (by decide)
  simp only [State.startTransfer, h1, h2, h3]

end Sys2Proof.Machine
end

