-- ==== Sys2Proof/Tests/Slice0.lean ====
section
/-! SUPPORT. The model's own tests: the WellFormed smoke, a word of every row of the opcode table, the tables of 20_memory.md,
worked vectors of 95_test_vectors.md in single steps, and for every statement with hypotheses a witness that meets them. The
expected values are those the cited rule, table or vector prints. -/

set_option Elab.async false

namespace Sys2Proof.Tests

open Sys2Proof.Machine

/-! ## Small states -/

/-- The state after one command. -/
def after (i : Instr) (s : State) : State :=
  match exec i s with
  | .next t => t
  | _ => s

/-- The reset state with some registers set. -/
def withRegs (l : List (RegName × Word)) : State :=
  { State.reset with regs := l.foldl (fun rs e => rs.write e.1 e.2) Regs.reset }

/-- A state with some words of VRAM set. -/
def State.words (s : State) (l : List (Nat × VWord)) : State :=
  { s with lm := { s.lm with vram := l.foldl (fun m e => m.writeWord e.1 e.2) s.lm.vram } }

/-- A state with a transfer cursor. -/
def State.cursor (s : State) (x : TransferCursor) : State := { s with xfer := some x }

/-- A state with the host's next command. -/
def State.issue (s : State) (w : CmdWord) : State := { s with cmds := [w] }

/-- A vertex at a window pixel with a colour (r, g, b, a). -/
def vert (x y z r g b a : Nat) : Vertex :=
  { Vertex.zero with
    x := BitVec.ofNat 16 (16 * x), y := BitVec.ofNat 16 (16 * y), z := BitVec.ofNat 32 z
    r := BitVec.ofNat 8 r, g := BitVec.ofNat 8 g, b := BitVec.ofNat 8 b, a := BitVec.ofNat 8 a }

/-- A state with queued vertices. -/
def State.queue (s : State) (l : List Vertex) : State :=
  { s with vq := ⟨l.length, ⟨(l ++ List.replicate 4 Vertex.zero).take 4 |>.toArray, by simp⟩⟩ }

/-- The XYZ2 data of a vertex at a window pixel. -/
def xyz (x y z : Nat) : Word := BitVec.ofNat 64 (16 * x + 16 * y * 2 ^ 16 + z * 2 ^ 32)

/-- The standard frame of 95_test_vectors.md section 0, with more registers set. -/
def std (l : List (RegName × Word)) : State :=
  withRegs ([(.frame_1, 0x10000#64), (.zbuf_1, 0x100000010#64), (.scissor_1, 0x003F0000003F0000#64)] ++ l)

/-- The draw state of a state. -/
def envOf (s : State) : Env := Env.of s.regs s.cfg

/-- The pixels of some fragments, in order. -/
def at' (l : List Frag) : List (Int × Int) := l.map (fun f => (f.x, f.y))

/-! ## WellFormed: each check refuses an ill-formed term -/

theorem test_wellFormed_refuses_general_address : (Instr.rGeneral 0x100#32).wellFormed = false := by decide

theorem test_wellFormed_takes_general_addresses :
    ((Instr.rGeneral 0xFF#32).wellFormed && (Instr.rGeneral 0#32).wellFormed && (Instr.rPriv 0x12001000#32).wellFormed &&
      (Instr.wPrim 0#64).wellFormed) = true := by decide

/-! ## Decoding -/

/-- Words of GW rows, written from KIND and ADDR of R180 to R183 and R32 or R67. -/
theorem test_decode_gw_1 :
    ([(0x00000000000000000123456789ABCDEF#128, .wPrim 0x0123456789ABCDEF#64),
      (0x00000000000000010123456789ABCDEF#128, .wRgbaq 0x0123456789ABCDEF#64),
      (0x00000000000000020123456789ABCDEF#128, .wSt 0x0123456789ABCDEF#64),
      (0x00000000000000030123456789ABCDEF#128, .wUv 0x0123456789ABCDEF#64),
      (0x00000000000000040123456789ABCDEF#128, .wXyzf2 0x0123456789ABCDEF#64),
      (0x00000000000000050123456789ABCDEF#128, .wXyz2 0x0123456789ABCDEF#64),
      (0x00000000000000060123456789ABCDEF#128, .wTex0_1 0x0123456789ABCDEF#64),
      (0x00000000000000070123456789ABCDEF#128, .wTex0_2 0x0123456789ABCDEF#64),
      (0x00000000000000080123456789ABCDEF#128, .wClamp_1 0x0123456789ABCDEF#64),
      (0x00000000000000090123456789ABCDEF#128, .wClamp_2 0x0123456789ABCDEF#64),
      (0x000000000000000A0123456789ABCDEF#128, .wFog 0x0123456789ABCDEF#64),
      (0x000000000000000C0123456789ABCDEF#128, .wXyzf3 0x0123456789ABCDEF#64),
      (0x000000000000000D0123456789ABCDEF#128, .wXyz3 0x0123456789ABCDEF#64),
      (0x00000000000000140123456789ABCDEF#128, .wTex1_1 0x0123456789ABCDEF#64),
      (0x00000000000000150123456789ABCDEF#128, .wTex1_2 0x0123456789ABCDEF#64),
      (0x00000000000000160123456789ABCDEF#128, .wTex2_1 0x0123456789ABCDEF#64),
      (0x00000000000000170123456789ABCDEF#128, .wTex2_2 0x0123456789ABCDEF#64),
      (0x00000000000000180123456789ABCDEF#128, .wXyoffset_1 0x0123456789ABCDEF#64)] : List (CmdWord × Instr)).all (fun e => decode e.1 = .ok e.2) = true := by decide +kernel

/-- Words of GW rows, written from KIND and ADDR of R180 to R183 and R32 or R67. -/
theorem test_decode_gw_2 :
    ([(0x00000000000000190123456789ABCDEF#128, .wXyoffset_2 0x0123456789ABCDEF#64),
      (0x000000000000001A0123456789ABCDEF#128, .wPrmodecont 0x0123456789ABCDEF#64),
      (0x000000000000001B0123456789ABCDEF#128, .wPrmode 0x0123456789ABCDEF#64),
      (0x000000000000001C0123456789ABCDEF#128, .wTexclut 0x0123456789ABCDEF#64),
      (0x00000000000000220123456789ABCDEF#128, .wScanmsk 0x0123456789ABCDEF#64),
      (0x00000000000000340123456789ABCDEF#128, .wMiptbp1_1 0x0123456789ABCDEF#64),
      (0x00000000000000350123456789ABCDEF#128, .wMiptbp1_2 0x0123456789ABCDEF#64),
      (0x00000000000000360123456789ABCDEF#128, .wMiptbp2_1 0x0123456789ABCDEF#64),
      (0x00000000000000370123456789ABCDEF#128, .wMiptbp2_2 0x0123456789ABCDEF#64),
      (0x000000000000003B0123456789ABCDEF#128, .wTexa 0x0123456789ABCDEF#64),
      (0x000000000000003D0123456789ABCDEF#128, .wFogcol 0x0123456789ABCDEF#64),
      (0x000000000000003F0123456789ABCDEF#128, .wTexflush 0x0123456789ABCDEF#64),
      (0x00000000000000400123456789ABCDEF#128, .wScissor_1 0x0123456789ABCDEF#64),
      (0x00000000000000410123456789ABCDEF#128, .wScissor_2 0x0123456789ABCDEF#64),
      (0x00000000000000420123456789ABCDEF#128, .wAlpha_1 0x0123456789ABCDEF#64),
      (0x00000000000000430123456789ABCDEF#128, .wAlpha_2 0x0123456789ABCDEF#64),
      (0x00000000000000440123456789ABCDEF#128, .wDimx 0x0123456789ABCDEF#64),
      (0x00000000000000450123456789ABCDEF#128, .wDthe 0x0123456789ABCDEF#64)] : List (CmdWord × Instr)).all (fun e => decode e.1 = .ok e.2) = true := by decide +kernel

/-- Words of GW rows, written from KIND and ADDR of R180 to R183 and R32 or R67. -/
theorem test_decode_gw_3 :
    ([(0x00000000000000460123456789ABCDEF#128, .wColclamp 0x0123456789ABCDEF#64),
      (0x00000000000000470123456789ABCDEF#128, .wTest_1 0x0123456789ABCDEF#64),
      (0x00000000000000480123456789ABCDEF#128, .wTest_2 0x0123456789ABCDEF#64),
      (0x00000000000000490123456789ABCDEF#128, .wPabe 0x0123456789ABCDEF#64),
      (0x000000000000004A0123456789ABCDEF#128, .wFba_1 0x0123456789ABCDEF#64),
      (0x000000000000004B0123456789ABCDEF#128, .wFba_2 0x0123456789ABCDEF#64),
      (0x000000000000004C0123456789ABCDEF#128, .wFrame_1 0x0123456789ABCDEF#64),
      (0x000000000000004D0123456789ABCDEF#128, .wFrame_2 0x0123456789ABCDEF#64),
      (0x000000000000004E0123456789ABCDEF#128, .wZbuf_1 0x0123456789ABCDEF#64),
      (0x000000000000004F0123456789ABCDEF#128, .wZbuf_2 0x0123456789ABCDEF#64),
      (0x00000000000000500123456789ABCDEF#128, .wBitbltbuf 0x0123456789ABCDEF#64),
      (0x00000000000000510123456789ABCDEF#128, .wTrxpos 0x0123456789ABCDEF#64),
      (0x00000000000000520123456789ABCDEF#128, .wTrxreg 0x0123456789ABCDEF#64),
      (0x00000000000000530123456789ABCDEF#128, .wTrxdir 0x0123456789ABCDEF#64),
      (0x00000000000000540123456789ABCDEF#128, .wHwreg 0x0123456789ABCDEF#64),
      (0x00000000000000600123456789ABCDEF#128, .wSignal 0x0123456789ABCDEF#64),
      (0x00000000000000610123456789ABCDEF#128, .wFinish 0x0123456789ABCDEF#64),
      (0x00000000000000620123456789ABCDEF#128, .wLabel 0x0123456789ABCDEF#64)] : List (CmdWord × Instr)).all (fun e => decode e.1 = .ok e.2) = true := by decide +kernel

/-- Words of PW rows, written from KIND and ADDR of R180 to R183 and R32 or R67. -/
theorem test_decode_pw_1 :
    ([(0x00000002120000000123456789ABCDEF#128, .pwPmode 0x0123456789ABCDEF#64),
      (0x00000002120000100123456789ABCDEF#128, .pwSmode1 0x0123456789ABCDEF#64),
      (0x00000002120000200123456789ABCDEF#128, .pwSmode2 0x0123456789ABCDEF#64),
      (0x00000002120000300123456789ABCDEF#128, .pwSrfsh 0x0123456789ABCDEF#64),
      (0x00000002120000400123456789ABCDEF#128, .pwSynch1 0x0123456789ABCDEF#64),
      (0x00000002120000500123456789ABCDEF#128, .pwSynch2 0x0123456789ABCDEF#64),
      (0x00000002120000600123456789ABCDEF#128, .pwSyncv 0x0123456789ABCDEF#64),
      (0x00000002120000700123456789ABCDEF#128, .pwDispfb1 0x0123456789ABCDEF#64),
      (0x00000002120000800123456789ABCDEF#128, .pwDisplay1 0x0123456789ABCDEF#64),
      (0x00000002120000900123456789ABCDEF#128, .pwDispfb2 0x0123456789ABCDEF#64),
      (0x00000002120000A00123456789ABCDEF#128, .pwDisplay2 0x0123456789ABCDEF#64),
      (0x00000002120000B00123456789ABCDEF#128, .pwExtbuf 0x0123456789ABCDEF#64),
      (0x00000002120000C00123456789ABCDEF#128, .pwExtdata 0x0123456789ABCDEF#64),
      (0x00000002120000D00123456789ABCDEF#128, .pwExtwrite 0x0123456789ABCDEF#64),
      (0x00000002120000E00123456789ABCDEF#128, .pwBgcolor 0x0123456789ABCDEF#64),
      (0x00000002120010000123456789ABCDEF#128, .pwCsr 0x0123456789ABCDEF#64),
      (0x00000002120010100123456789ABCDEF#128, .pwImr 0x0123456789ABCDEF#64),
      (0x00000002120010400123456789ABCDEF#128, .pwBusdir 0x0123456789ABCDEF#64)] : List (CmdWord × Instr)).all (fun e => decode e.1 = .ok e.2) = true := by decide +kernel

/-- Words of PW rows, written from KIND and ADDR of R180 to R183 and R32 or R67. -/
theorem test_decode_pw_2 :
    ([(0x00000002120010800123456789ABCDEF#128, .pwSiglblid 0x0123456789ABCDEF#64)] : List (CmdWord × Instr)).all (fun e => decode e.1 = .ok e.2) = true := by decide +kernel

/-- Words of GR, PR, TR and the three events (R180 to R185), with bits the rules ignore set where R184 and R185 say so. -/
theorem test_decode_reads_events :
    ([(0x000000010000004C0000000000000000#128, .rGeneral 0x4C#32),
      (0x00000003120010800000000000000000#128, .rPriv 0x12001080#32),
      (0x00000004000000000000000000000000#128, .tr),
      (0x00000005000000000000000000000000#128, .evVblankIn),
      (0x00000006000000000000000000000000#128, .evVblankOut),
      (0x00000007000000000000000000000000#128, .evHblank),
      (0x00000004FFFFFFFF0123456789ABCDEF#128, .tr),
      (0x00000007FFFFFFFF0123456789ABCDEF#128, .evHblank),
      (0x00000001FFFFFFFF0123456789ABCDEF#128, .rGeneral 0xFFFFFFFF#32)] : List (CmdWord × Instr)).all (fun e => decode e.1 = .ok e.2) = true := by decide +kernel

/-- Reserved commands and addresses that name no register (vectors E6 to E9; R181, R182, R190, R191). -/
theorem test_decode_rejects :
    decode 0x00000010000000000000000000000001#128 = .error .badCommand ∧
    decode 0x00000008000000000000000000000000#128 = .error .badCommand ∧
    decode 0x80000000000000000000000000000000#128 = .error .badCommand ∧
    decode 0x00000000000001000000000000000001#128 = .error .noSuchRegister ∧
    decode 0x000000000000000B0000000000000005#128 = .error .noSuchRegister ∧
    decode 0x00000002120010010000000000000005#128 = .error .noSuchRegister := by decide +kernel

/-- The table word of W_PRIM with DATA 3, placed and run as the first instruction after reset. -/
theorem test_withFetchWord :
    decodeTableWord 128 3 = some (.wPrim 3#64) ∧
    (match step (State.reset.withFetchWord 128 3) with
      | .next t => t.reg .prim == 3#64 && t.cmds.isEmpty
      | _ => false) = true := by decide +kernel

/-! ## Tables and the swizzle -/

/-- BT32 as R113 prints it, row by row. -/
theorem test_table_BT32 :
    (List.range 4).map (fun y => (List.range 8).map (fun x => blockTable32 y x)) =
     [[0, 1, 4, 5, 16, 17, 20, 21],
      [2, 3, 6, 7, 18, 19, 22, 23],
      [8, 9, 12, 13, 24, 25, 28, 29],
      [10, 11, 14, 15, 26, 27, 30, 31]] := by decide +kernel

/-- BT16 as R113 prints it, row by row. -/
theorem test_table_BT16 :
    (List.range 8).map (fun y => (List.range 4).map (fun x => blockTable16 y x)) =
     [[0, 2, 8, 10],
      [1, 3, 9, 11],
      [4, 6, 12, 14],
      [5, 7, 13, 15],
      [16, 18, 24, 26],
      [17, 19, 25, 27],
      [20, 22, 28, 30],
      [21, 23, 29, 31]] := by decide +kernel

/-- BT16S as R113 prints it, row by row. -/
theorem test_table_BT16S :
    (List.range 8).map (fun y => (List.range 4).map (fun x => blockTable16S y x)) =
     [[0, 2, 16, 18],
      [1, 3, 17, 19],
      [8, 10, 24, 26],
      [9, 11, 25, 27],
      [4, 6, 20, 22],
      [5, 7, 21, 23],
      [12, 14, 28, 30],
      [13, 15, 29, 31]] := by decide +kernel

/-- COL32 as R115 prints it, row by row. -/
theorem test_table_COL32 :
    (List.range 8).map (fun y => (List.range 8).map (fun x => colTable32 y x)) =
     [[0, 1, 4, 5, 8, 9, 12, 13],
      [2, 3, 6, 7, 10, 11, 14, 15],
      [16, 17, 20, 21, 24, 25, 28, 29],
      [18, 19, 22, 23, 26, 27, 30, 31],
      [32, 33, 36, 37, 40, 41, 44, 45],
      [34, 35, 38, 39, 42, 43, 46, 47],
      [48, 49, 52, 53, 56, 57, 60, 61],
      [50, 51, 54, 55, 58, 59, 62, 63]] := by decide +kernel

/-- COL16 as R115 prints it, row by row. -/
theorem test_table_COL16 :
    (List.range 8).map (fun y => (List.range 16).map (fun x => colTable16 y x)) =
     [[0, 2, 8, 10, 16, 18, 24, 26, 1, 3, 9, 11, 17, 19, 25, 27],
      [4, 6, 12, 14, 20, 22, 28, 30, 5, 7, 13, 15, 21, 23, 29, 31],
      [32, 34, 40, 42, 48, 50, 56, 58, 33, 35, 41, 43, 49, 51, 57, 59],
      [36, 38, 44, 46, 52, 54, 60, 62, 37, 39, 45, 47, 53, 55, 61, 63],
      [64, 66, 72, 74, 80, 82, 88, 90, 65, 67, 73, 75, 81, 83, 89, 91],
      [68, 70, 76, 78, 84, 86, 92, 94, 69, 71, 77, 79, 85, 87, 93, 95],
      [96, 98, 104, 106, 112, 114, 120, 122, 97, 99, 105, 107, 113, 115, 121, 123],
      [100, 102, 108, 110, 116, 118, 124, 126, 101, 103, 109, 111, 117, 119, 125, 127]] := by decide +kernel

/-- COL8 as R115 prints it, row by row. -/
theorem test_table_COL8 :
    (List.range 16).map (fun y => (List.range 16).map (fun x => colTable8 y x)) =
     [[0, 4, 16, 20, 32, 36, 48, 52, 2, 6, 18, 22, 34, 38, 50, 54],
      [8, 12, 24, 28, 40, 44, 56, 60, 10, 14, 26, 30, 42, 46, 58, 62],
      [33, 37, 49, 53, 1, 5, 17, 21, 35, 39, 51, 55, 3, 7, 19, 23],
      [41, 45, 57, 61, 9, 13, 25, 29, 43, 47, 59, 63, 11, 15, 27, 31],
      [96, 100, 112, 116, 64, 68, 80, 84, 98, 102, 114, 118, 66, 70, 82, 86],
      [104, 108, 120, 124, 72, 76, 88, 92, 106, 110, 122, 126, 74, 78, 90, 94],
      [65, 69, 81, 85, 97, 101, 113, 117, 67, 71, 83, 87, 99, 103, 115, 119],
      [73, 77, 89, 93, 105, 109, 121, 125, 75, 79, 91, 95, 107, 111, 123, 127],
      [128, 132, 144, 148, 160, 164, 176, 180, 130, 134, 146, 150, 162, 166, 178, 182],
      [136, 140, 152, 156, 168, 172, 184, 188, 138, 142, 154, 158, 170, 174, 186, 190],
      [161, 165, 177, 181, 129, 133, 145, 149, 163, 167, 179, 183, 131, 135, 147, 151],
      [169, 173, 185, 189, 137, 141, 153, 157, 171, 175, 187, 191, 139, 143, 155, 159],
      [224, 228, 240, 244, 192, 196, 208, 212, 226, 230, 242, 246, 194, 198, 210, 214],
      [232, 236, 248, 252, 200, 204, 216, 220, 234, 238, 250, 254, 202, 206, 218, 222],
      [193, 197, 209, 213, 225, 229, 241, 245, 195, 199, 211, 215, 227, 231, 243, 247],
      [201, 205, 217, 221, 233, 237, 249, 253, 203, 207, 219, 223, 235, 239, 251, 255]] := by decide +kernel

/-- COL4 as R115 prints it, row by row. -/
theorem test_table_COL4 :
    (List.range 16).map (fun y => (List.range 32).map (fun x => colTable4 y x)) =
     [[0, 8, 32, 40, 64, 72, 96, 104, 2, 10, 34, 42, 66, 74, 98, 106, 4, 12, 36, 44, 68, 76, 100, 108, 6, 14, 38, 46, 70, 78, 102, 110],
      [16, 24, 48, 56, 80, 88, 112, 120, 18, 26, 50, 58, 82, 90, 114, 122, 20, 28, 52, 60, 84, 92, 116, 124, 22, 30, 54, 62, 86, 94, 118, 126],
      [65, 73, 97, 105, 1, 9, 33, 41, 67, 75, 99, 107, 3, 11, 35, 43, 69, 77, 101, 109, 5, 13, 37, 45, 71, 79, 103, 111, 7, 15, 39, 47],
      [81, 89, 113, 121, 17, 25, 49, 57, 83, 91, 115, 123, 19, 27, 51, 59, 85, 93, 117, 125, 21, 29, 53, 61, 87, 95, 119, 127, 23, 31, 55, 63],
      [192, 200, 224, 232, 128, 136, 160, 168, 194, 202, 226, 234, 130, 138, 162, 170, 196, 204, 228, 236, 132, 140, 164, 172, 198, 206, 230, 238, 134, 142, 166, 174],
      [208, 216, 240, 248, 144, 152, 176, 184, 210, 218, 242, 250, 146, 154, 178, 186, 212, 220, 244, 252, 148, 156, 180, 188, 214, 222, 246, 254, 150, 158, 182, 190],
      [129, 137, 161, 169, 193, 201, 225, 233, 131, 139, 163, 171, 195, 203, 227, 235, 133, 141, 165, 173, 197, 205, 229, 237, 135, 143, 167, 175, 199, 207, 231, 239],
      [145, 153, 177, 185, 209, 217, 241, 249, 147, 155, 179, 187, 211, 219, 243, 251, 149, 157, 181, 189, 213, 221, 245, 253, 151, 159, 183, 191, 215, 223, 247, 255],
      [256, 264, 288, 296, 320, 328, 352, 360, 258, 266, 290, 298, 322, 330, 354, 362, 260, 268, 292, 300, 324, 332, 356, 364, 262, 270, 294, 302, 326, 334, 358, 366],
      [272, 280, 304, 312, 336, 344, 368, 376, 274, 282, 306, 314, 338, 346, 370, 378, 276, 284, 308, 316, 340, 348, 372, 380, 278, 286, 310, 318, 342, 350, 374, 382],
      [321, 329, 353, 361, 257, 265, 289, 297, 323, 331, 355, 363, 259, 267, 291, 299, 325, 333, 357, 365, 261, 269, 293, 301, 327, 335, 359, 367, 263, 271, 295, 303],
      [337, 345, 369, 377, 273, 281, 305, 313, 339, 347, 371, 379, 275, 283, 307, 315, 341, 349, 373, 381, 277, 285, 309, 317, 343, 351, 375, 383, 279, 287, 311, 319],
      [448, 456, 480, 488, 384, 392, 416, 424, 450, 458, 482, 490, 386, 394, 418, 426, 452, 460, 484, 492, 388, 396, 420, 428, 454, 462, 486, 494, 390, 398, 422, 430],
      [464, 472, 496, 504, 400, 408, 432, 440, 466, 474, 498, 506, 402, 410, 434, 442, 468, 476, 500, 508, 404, 412, 436, 444, 470, 478, 502, 510, 406, 414, 438, 446],
      [385, 393, 417, 425, 449, 457, 481, 489, 387, 395, 419, 427, 451, 459, 483, 491, 389, 397, 421, 429, 453, 461, 485, 493, 391, 399, 423, 431, 455, 463, 487, 495],
      [401, 409, 433, 441, 465, 473, 497, 505, 403, 411, 435, 443, 467, 475, 499, 507, 405, 413, 437, 445, 469, 477, 501, 509, 407, 415, 439, 447, 471, 479, 503, 511]] := by decide +kernel

/-- Vectors S1 to S30 but S8 to S11 (20_memory.md R110 to R124). -/
theorem test_swizzle :
    ([(Psm.ct32, 0, 1, 9, 3, 83), (.z32, 0, 1, 0, 0, 1536), (.ct16, 0, 1, 8, 0, 1), (.ct16s, 0, 1, 32, 0, 2048),
      (.ct16, 0, 1, 32, 0, 1024), (.t8, 0, 2, 0, 2, 33), (.t4, 0, 2, 8, 0, 2), (.ct32, 0, 1, 63, 31, 2047),
      (.ct32, 1, 1, 0, 0, 64), (.ct32, 31, 1, 8, 0, 2048), (.ct32, 16383, 1, 8, 0, 0), (.ct32, 0, 1, 0, 8, 128),
      (.z16, 0, 1, 0, 0, 3072), (.z16s, 0, 1, 32, 0, 1024), (.ct16, 0, 1, 0, 8, 128), (.ct16, 0, 1, 63, 63, 4095),
      (.t8, 0, 1, 128, 0, 8192), (.t8, 0, 1, 0, 64, 0), (.t8, 0, 2, 0, 64, 8192), (.t8, 0, 2, 16, 0, 256),
      (.t8, 0, 2, 127, 63, 8191), (.t4, 0, 2, 0, 128, 16384), (.t4, 0, 2, 32, 0, 1024), (.t4, 0, 2, 1, 0, 8),
      (.t4, 0, 2, 0, 2, 65), (.t4, 0, 2, 127, 127, 16383)] :
      List (Psm × Nat × Nat × Nat × Nat × Nat)).all
      (fun e => e.1.swz e.2.1 e.2.2.1 e.2.2.2.1 e.2.2.2.2.1 == e.2.2.2.2.2) = true := by decide +kernel

/-- Vectors M1 to M4: a 24-bit write keeps bits [31:24], the H formats write part of the word (R104, R122, R132). -/
theorem test_raw_write :
    (Memory.writeRaw (Memory.writeWord [] 83 0xAABBCCDD#32) .ct24 0 1 9 3 0x112233#32).readWord 83 = 0xAA112233#32 ∧
    (Memory.writeRaw (Memory.writeWord [] 0 0x11223344#32) .t8h 0 1 0 0 0x9A#32).readWord 0 = 0x9A223344#32 ∧
    (Memory.writeRaw (Memory.writeWord [] 0 0x9A223344#32) .t4hl 0 1 0 0 5#32).readWord 0 = 0x95223344#32 ∧
    (Memory.writeRaw (Memory.writeWord [] 0 0x95223344#32) .t4hh 0 1 0 0 0xC#32).readWord 0 = 0xC5223344#32 := by
  decide +kernel

/-- A byte written as what an unlisted byte reads as is not listed. -/
theorem test_canonical_write : Memory.writeByte [(5, 1#8), (9, 2#8)] 5 0#8 = [(9, 2#8)] := by decide

/-! ## Register writes and reads -/

/-- Every write that only stores: the register of its address holds DATA (R221 and the rules of each). -/
theorem test_store_writes :
    ([(.wRgbaq 7#64, .rgbaq), (.wSt 7#64, .st), (.wUv 7#64, .uv), (.wTex0_2 7#64, .tex0_2), (.wClamp_1 7#64, .clamp_1),
      (.wFog 7#64, .fog), (.wTex1_2 7#64, .tex1_2), (.wXyoffset_1 7#64, .xyoffset_1), (.wPrmodecont 7#64, .prmodecont),
      (.wPrmode 7#64, .prmode), (.wTexclut 7#64, .texclut), (.wScanmsk 7#64, .scanmsk), (.wMiptbp1_1 7#64, .miptbp1_1),
      (.wMiptbp2_2 7#64, .miptbp2_2), (.wTexa 7#64, .texa), (.wFogcol 7#64, .fogcol), (.wScissor_2 7#64, .scissor_2),
      (.wAlpha_1 7#64, .alpha_1), (.wDimx 7#64, .dimx), (.wDthe 7#64, .dthe), (.wColclamp 7#64, .colclamp),
      (.wTest_2 7#64, .test_2), (.wPabe 7#64, .pabe), (.wFba_1 7#64, .fba_1), (.wFrame_2 7#64, .frame_2),
      (.wZbuf_1 7#64, .zbuf_1), (.wBitbltbuf 7#64, .bitbltbuf), (.wTrxpos 7#64, .trxpos), (.wTrxreg 7#64, .trxreg),
      (.pwPmode 7#64, .pmode), (.pwSmode1 7#64, .smode1), (.pwSmode2 7#64, .smode2), (.pwSrfsh 7#64, .srfsh),
      (.pwSynch1 7#64, .synch1), (.pwSynch2 7#64, .synch2), (.pwSyncv 7#64, .syncv), (.pwDispfb1 7#64, .dispfb1),
      (.pwDisplay2 7#64, .display2), (.pwExtbuf 7#64, .extbuf), (.pwExtdata 7#64, .extdata),
      (.pwExtwrite 7#64, .extwrite), (.pwBgcolor 7#64, .bgcolor), (.pwImr 7#64, .imr), (.pwBusdir 7#64, .busdir)] :
      List (Instr × RegName)).all (fun e => (after e.1 State.reset).reg e.2 == 7#64) = true := by decide +kernel

/-- Vector G2: TEX2 replaces PSM and the CLUT fields of TEX0 (R232). -/
theorem test_tex2_merges :
    (after (.wTex2_1 0x409000A001400000#64) (withRegs [(.tex0_1, 0x200000ECCC008123#64)])).reg .tex0_1 =
      0x409000ACCD408123#64 := by decide +kernel

/-- A PRIM write empties the queue (vector Q5, R220). -/
theorem test_prim_empties_queue :
    (after (.wPrim 3#64) (State.queue (withRegs [(.prim, 3#64)]) [vert 0 0 0 0 0 0 0, vert 8 0 0 0 0 0 0])).vq.k = 0 := by
  decide +kernel

/-- Vector X14: TEXFLUSH empties the dirty set (R255, R575). -/
theorem test_texflush :
    (after (.wTexflush 0#64) { State.reset with lm := ⟨[], [0, 1], 0⟩ }).lm.dirty = [] := by decide

/-- Vector G4: SIGID under its mask, CSR.SIGNAL and a second event (R280). -/
theorem test_signal :
    (let t := after (.wSignal 0x000000FF00005678#64)
        { withRegs [(.imr, 0x7E00#64)] with csr := { Csr.reset with signal := true }, out := [.gsIrq .signal] };
      t.sig == 0x78#64 && t.csr.signal && t.out == [.gsIrq .signal, .gsIrq .signal]) = true := by decide +kernel

/-- Vector G6: FINISH masked sends nothing (R281). -/
theorem test_finish_masked :
    (let t := after (.wFinish 0#64) State.reset;
      t.csr.finish && t.out == []) = true := by decide +kernel

/-- Vector G5: LABEL (R282). -/
theorem test_label : (after (.wLabel 0x0000FFFF00000042#64) { State.reset with sig := 0x78#64 }).sig =
    0x0000004200000078#64 := by decide +kernel

/-- SIGLBLID is written whole (R303). -/
theorem test_siglblid : (after (.pwSiglblid 0x123456789ABCDEF0#64) State.reset).sig = 0x123456789ABCDEF0#64 := by decide

/-- Vector T6: a CSR write clears the bits written as 1 and keeps FIELD (R300). -/
theorem test_csr_clear :
    (after (.pwCsr 0xF#64) { State.reset with csr := ⟨true, true, true, true, false, true⟩ }).csr =
      ⟨false, false, false, false, false, true⟩ := by decide +kernel

/-- Vector Y2: CSR.RESET resets the registers and the queue and keeps VRAM and the events (R562). -/
theorem test_csr_reset :
    (let t := after (.pwCsr 0x200#64)
        { State.words (withRegs [(.prim, 4#64), (.imr, 0#64)]) [(5, 7#32)] with out := [.gsIrq .finish] };
      t.regs == Regs.reset && t.vq.k == 0 && t.lm.vram.readWord 5 == 7#32 && t.out == [.gsIrq .finish]) = true := by
  decide +kernel

/-- Vector G9: what CSR, IMR and PRMODECONT read after reset (R290, R306, R560). -/
theorem test_reads :
    (after (.rPriv 0x12001000#32) State.reset).replies = [0x551B4000#64] ∧
    (after (.rPriv 0x12001010#32) State.reset).replies = [0x7F00#64] ∧
    (after (.rGeneral 0x1A#32) State.reset).replies = [1#64] := by decide +kernel

/-- Vectors T1, T4 and T5: the timing events (R540 to R542). -/
theorem test_events :
    (let t := after .evVblankIn State.reset;
      csrValue t.csr t.cfg == 0x551B6008#64 && t.out == []) = true ∧
    (let t := after .evHblank { withRegs [(.imr, 0x7B00#64)] with csr := ⟨false, false, false, true, false, true⟩ };
      csrValue t.csr t.cfg == 0x551B600C#64 && t.out == [.gsIrq .hsint]) = true ∧
    after .evVblankOut State.reset = State.reset := by decide +kernel

/-! ## Kicks and the rasterizer -/

/-- Vector L1: XYZF2 draws a point at (5, 3) (R226, R340, R459). -/
theorem test_xyzf2_point :
    (let t := after (.wXyzf2 0x8000000700300050#64) (std [(.rgbaq, 0x04030201#64)]);
      t.lm.vram.readRaw .ct32 0 1 5 3 == 0x04030201#32 && t.vq.k == 0 && !t.refused) = true := by decide +kernel

/-- Vector P6: XYZ2 completes a sprite; red is interpolated, alpha is that of the second vertex (R227, R366). -/
theorem test_xyz2_sprite :
    (let t := after (.wXyz2 (xyz 4 2 0)) (State.queue (std [(.prim, 6#64), (.rgbaq, 0x700064C8#64)]) [vert 0 0 0 0 100 0 0x10]);
      t.lm.vram.readRaw .ct32 0 1 3 0 == 0x7000644B#32 && t.lm.vram.readRaw .ct32 0 1 3 1 == 0x7000647D#32 &&
        t.lm.vram.readRaw .ct32 0 1 4 0 == 0#32) = true := by decide +kernel

/-- Vector R8: a discarded triangle is not checked and empties the queue (R228, R229, R311). -/
theorem test_discarding_kicks :
    (let s := State.queue (std [(.prim, 0x83#64)]) [vert 0 0 0 0 0 0 0, vert 1 0 0 0 0 0 0];
      let t := after (.wXyz3 (xyz 0 1 0)) s;
      let u := after (.wXyzf3 (xyz 0 1 0)) s;
      !t.refused && t.vq.k == 0 && t.lm == s.lm && !u.refused && u.vq.k == 0 && u.lm == s.lm) = true := by decide +kernel

/-- Vector Q3: a fan keeps its first and last vertex (R313). -/
theorem test_fan_rotation :
    (let t := after (.wXyz2 (xyz 8 8 0)) (State.queue (std [(.prim, 5#64), (.scissor_1, 0#64)]) [vert 0 0 0 0 0 0 0, vert 0 8 0 0 0 0 0]);
      t.vq.k == 2 && t.vq.slot[0].x == 0#16 && t.vq.slot[1].x == 128#16 && t.vq.slot[1].y == 128#16) = true := by
  decide +kernel

/-- Vectors L4, L5, L6, L8 and L9 (R345). -/
theorem test_lines :
    linePixels (0, 0) (3, 1) = [(0, 0), (1, 0), (2, 1), (3, 1)] ∧
    linePixels (3, 1) (0, 0) = [(3, 1), (2, 1), (1, 0), (0, 0)] ∧
    linePixels (0, 0) (1, 3) = [(0, 0), (0, 1), (1, 2), (1, 3)] ∧
    linePixels (0, 0) (0, 5) = [(0, 0), (0, 1), (0, 2), (0, 3), (0, 4), (0, 5)] ∧
    linePixels (5, 0) (0, 2) = [(5, 0), (4, 0), (3, 1), (2, 1), (1, 2), (0, 2)] := by decide +kernel

/-- Vectors T2 and T7: no fragment of a zero area; a scissored triangle (R350, R351, R331). -/
theorem test_triangle_coverage :
    triFrags (envOf (std [])) (vert 0 0 0 0 0 0 0) (vert 5 5 0 0 0 0 0) (vert 10 10 0 0 0 0 0) = [] ∧
    at' (triFrags (envOf (std [(.scissor_1, 0x0003000100040002#64)])) (vert 0 0 0 0 0 0 0) (vert 10 0 0 0 0 0 0)
      (vert 0 10 0 0 0 0 0)) = [(2, 1), (3, 1), (4, 1), (2, 2), (3, 2), (4, 2), (2, 3), (3, 3), (4, 3)] := by decide +kernel

/-- Vector T5 at (3, 2), and T6: interpolated red and depth; flat colour is that of the kick vertex (R353). -/
theorem test_triangle_attributes :
    (triFrags (envOf (std [(.prim, 0xB#64), (.scissor_1, 0x0002000200030003#64)])) (vert 0 0 0 0 0 0 0x80)
      (vert 8 0 800 80 0 0 0x80) (vert 0 8 1600 160 0 0 0x80)).map (fun f => (f.z, f.c)) = [(700, ⟨70, 0, 0, 128⟩)] ∧
    (triFrags (envOf (std [(.prim, 3#64), (.scissor_1, 0x0001000100010001#64)])) (vert 0 0 0 1 0 0 0) (vert 0 8 0 2 0 0 0)
      (vert 8 0 0 3 0 0 0)).map (fun f => f.c) = [⟨3, 0, 0, 0⟩] := by decide +kernel

/-- Vectors P2 and P3: the sprite's rectangle from any corner, none of zero width (R365). -/
theorem test_sprite_coverage :
    at' (spriteFrags (envOf (std [])) (vert 2 2 0 0 0 0 0) (vert 0 0 0 0 0 0 0)) = [(0, 0), (1, 0), (0, 1), (1, 1)] ∧
    spriteFrags (envOf (std [])) (vert 2 0 0 0 0 0 0) (vert 2 4 0 0 0 0 0) = [] := by decide +kernel

/-- Vectors R1, R2, R4, R6 and R7: the reasons of R315. -/
theorem test_refusals :
    refusalReason (envOf (std [(.prim, 0x80#64)])) .point (Vector.replicate 4 Vertex.zero) = some .antialiasing ∧
    refusalReason (envOf (std [(.frame_1, 0x13000000#64)])) .point (Vector.replicate 4 Vertex.zero) = some .badFramePsm ∧
    refusalReason (envOf (std [(.prim, 0x110#64), (.tex0_1, 0x2C000000#64)])) .point (Vector.replicate 4 Vertex.zero) =
      some .badTexture ∧
    refusalReason (envOf (std [(.prim, 0x110#64), (.tex0_1, 0x0080000001300000#64)])) .point
      (Vector.replicate 4 Vertex.zero) = some .badClut ∧
    refusalReason (envOf (std [(.prim, 0x10#64)])) .point
      (Vector.replicate 4 { Vertex.zero with q := 0x7F800000#32 }) = some .nonFiniteStq := by decide +kernel

/-! ## Texture -/

/-- Vectors W1 to W5 (R390). -/
theorem test_wrap :
    [-1, 0, 7, 8, 9, 13].map (wrapTexel 0 8 0 0) = [7, 0, 7, 0, 1, 5] ∧
    [-1, 0, 7, 8, 9, 13].map (wrapTexel 1 8 0 0) = [0, 0, 7, 7, 7, 7] ∧
    [-1, 0, 7, 8, 9, 13].map (wrapTexel 2 8 2 5) = [2, 2, 5, 5, 5, 5] ∧
    [-1, 0, 7, 8, 9, 13].map (wrapTexel 3 8 3 8) = [11, 8, 11, 8, 9, 9] ∧
    [-1, 3, 4, 5].map (wrapTexel 2 4 6 4) = [4, 4, 4, 4] := by decide +kernel

/-- Vectors X1 to X7 (R401, R402). -/
theorem test_texel_decode :
    [0x8000#32, 0#32, 0x1F#32, 0x7FFF#32, 0x83E0#32].map (decodeTexel 0xFF00008080#64 .ct16) =
      [⟨0, 0, 0, 255⟩, ⟨0, 0, 0, 0⟩, ⟨0xF8, 0, 0, 0x80⟩, ⟨0xF8, 0xF8, 0xF8, 0x80⟩, ⟨0, 0xF8, 0, 255⟩] ∧
    [0#32, 0x123456#32].map (decodeTexel 0xFF00008080#64 .ct24) = [⟨0, 0, 0, 0⟩, ⟨0x56, 0x34, 0x12, 0x80⟩] := by
  decide +kernel

/-- Vectors K3, K4, K6 and K9: CSM1 places (R405). -/
theorem test_clut_place :
    csm1Place true 0x10 = (8, 0) ∧ csm1Place true 0x18 = (8, 1) ∧ csm1Place true 0xFF = (15, 15) ∧
    csm1Place false 8 = (0, 1) := by decide

/-- Vectors U2, U4, U6 and U8 (R410). -/
theorem test_texture_function :
    [0x400000000#64, 0xC00000000#64, 0x1400000000#64, 0x1C00000000#64].map
      (fun v => tfxColour ((withRegs [(.tex0_1, v)]).regs.ctx .ctx1) ⟨255, 64, 16, 96⟩ ⟨128, 128, 64, 80⟩) =
      [⟨255, 64, 8, 60⟩, ⟨255, 64, 16, 96⟩, ⟨255, 144, 88, 176⟩, ⟨255, 144, 88, 96⟩] := by decide +kernel

/-- Vectors F3 and F8: nearest and bilinear sampling (R396 to R398), of a texture whose texels differ in red. -/
theorem test_sampling :
    (let s := State.words (withRegs [(.prim, 0x110#64), (.tex0_1, 0x88004020#64)])
        [(2048, 0x80400000#32), (2049, 0x80400010#32), (2052, 0x80400020#32), (2053, 0x80400030#32)];
      sampleTex (envOf s) s.lm (.uv 0x3F 0x0F) == (⟨48, 0, 64, 128⟩ : Colour)) = true ∧
    bilinear 4 0 0 16 0 0 = 4 := by decide +kernel

/-- Vectors C1 and C3: STQ coordinates of exact binary32 values (R382). -/
theorem test_stq :
    texelCoord (envOf (withRegs [(.tex0_1, 0xCC000000#64)])) 0
      (.stq (f32Rat 0x3F000000#32) (f32Rat 0x3E800000#32) (f32Rat 0x3F800000#32)) = (64, 32) ∧
    texelCoord (envOf (withRegs [(.tex0_1, 0xCC000000#64)])) 0
      (.stq (f32Rat 0xBD800000#32) (f32Rat 0x3F000000#32) (f32Rat 0x3F800000#32)) = (-8, 64) := by decide +kernel

/-- Vector O1 (R415). -/
theorem test_fog : fogColour 0x80FF00#64 0x80 ⟨200, 200, 200, 0x80⟩ = ⟨0x64, 0xE2, 0xA3, 0x80⟩ := by decide +kernel

/-! ## Pixel pipeline -/

/-- The alpha test table of 95_test_vectors.md 2.12 (R434). -/
theorem test_alpha_test :
    (List.range 8).map (fun t => [0x3F, 0x40, 0x41].map (fun a => alphaPass t a 0x40)) =
      [[false, false, false], [true, true, true], [true, false, false], [true, true, false], [false, true, false],
       [false, true, true], [false, false, true], [true, false, true]] := by decide

/-- The depth test table (R441), and vector Z1: depth clamped to 24 bits, the other bits of the word kept (R440, R465). -/
theorem test_depth :
    (List.range 4).map (fun t => [99, 100, 101].map (fun z => depthPass t z 100#32)) =
      [[false, false, false], [true, true, true], [false, true, true], [false, false, true]] ∧
    (let t := after (.wXyz2 (xyz 0 0 0x12345678))
        (State.words (std [(.zbuf_1, 0x1000010#64), (.test_1, 0x50000#64)]) [(34304, 0xAB000010#32)]);
      t.lm.vram.readWord 34304) = 0xABFFFFFF#32 := by decide +kernel

/-- Alpha fail with RGB_ONLY: the old alpha and depth stay (R435). -/
theorem test_afail_rgb_only :
    (let t := after (.wXyz2 (xyz 0 0 0x99))
        (State.words (std [(.zbuf_1, 0x10#64), (.test_1, 0x3001#64), (.rgbaq, 0xDDCCBBAA#64)])
          [(0, 0x11223344#32), (34304, 0x55#32)]);
      (t.lm.vram.readWord 0, t.lm.vram.readWord 34304)) = (0x11CCBBAA#32, 0x55#32) := by decide +kernel

/-- Vectors A2 and A5: the destination-alpha test (R436). -/
theorem test_date :
    datePass (envOf (std [])) 0x80000000#32 = false ∧
    datePass (envOf (std [(.frame_1, 0x2010000#64), (.test_1, 0xC000#64)])) 0x8000#32 = true := by decide +kernel

/-- Vectors B1, B3 and B6 (R445, R450, R452): old frame word 0x40003264. -/
theorem test_blend :
    [([(RegName.alpha_1, 0x44#64)], 0x40FF00C8#64), ([(.alpha_1, 0x80000000A1#64)], 0x40FF00C8#64),
      ([(.alpha_1, 0x44#64), (.pabe, 1#64)], 0x90FF00C8#64)].map
      (fun e => (after (.wXyz2 0#64) (State.words (std ([(RegName.prim, 0x40#64), (.rgbaq, e.2)] ++ e.1))
        [(0, 0x40003264#32)])).lm.vram.readWord 0) = [0x407F1996#32, 0x40003200#32, 0x90FF00D4#32] := by decide +kernel

/-- Vectors D1, D4, D6 and D8: dither, FBA, the mask of a 16-bit frame, the 24-bit frame (R455, R458, R459, R460). -/
theorem test_frame_write :
    [([(RegName.frame_1, 0x2010000#64), (.dthe, 1#64), (.dimx, 7#64)], 0x80047F7F#64, 0#32),
      ([(.fba_1, 1#64)], 0x10030201#64, 0#32), ([(.frame_1, 0xFF02010000#64)], 0x8000FF00#64, 0x7FFF#32),
      ([(.frame_1, 0x1010000#64)], 0x44332211#64, 0xAB000000#32)].map
      (fun e => (after (.wXyz2 0#64) (State.words (std ([(RegName.rgbaq, e.2.1)] ++ e.1)) [(0, e.2.2)])).lm.vram.readWord 0) =
      [0x81EF#32, 0x90030201#32, 0x83FF#32, 0xAB332211#32] := by decide +kernel

/-! ## Transfers -/

/-- A cursor of a PSM code and a region, at its first pixel, with buffers at base 0 and width 1. -/
def cursor (dir : TransferDir) (psm w h : Nat) : TransferCursor :=
  { dir := dir, sbp := 0, sbw := 1, spsm := psm, dbp := 0, dbw := 1, dpsm := psm, ssax := 0, ssay := 0, dsax := 0
    dsay := 0, rrw := w, rrh := h, cx := 0, cy := 0, carry := [] }

/-- Vector X1: one HWREG write completes a 2 x 2 PSMCT16 region (R490). -/
theorem test_hwreg :
    (let t := after (.wHwreg 0x4444333322221111#64) (State.cursor State.reset (cursor .hostToLocal 2 2 2));
      [(0, 0), (1, 0), (0, 1), (1, 1)].map (fun q => t.lm.vram.readRaw .ct16 0 1 q.1 q.2) ==
        [0x1111#32, 0x2222#32, 0x3333#32, 0x4444#32] && t.xfer.isNone && t.reg .hwreg == 0x4444333322221111#64) =
      true := by decide +kernel

/-- Scenario 5, its second word: the carry of a 24-bit upload (R490, R491). -/
theorem test_hwreg_carry :
    (let x := { cursor .hostToLocal 1 8 1 with cx := 2, carry := [7#8, 8#8] };
      let t := after (.wHwreg 0x100F0E0D0C0B0A09#64) (State.cursor State.reset x);
      [2, 3, 4].map (fun q => t.lm.vram.readRaw .ct24 0 1 q 0) == [0x090807#32, 0x0C0B0A#32, 0x0F0E0D#32] &&
        t.xfer == some { x with cx := 5, carry := [0x10#8] }) = true := by decide +kernel

/-- Vectors X5 (second TR) and X6 (first TR): local to host (R500). -/
theorem test_tr :
    (let t := after .tr (State.cursor (State.words State.reset [(4, 0x33333333#32)])
        { cursor .localToHost 0 3 1 with cx := 2 });
      t.replies == [0x33333333#64] && t.xfer.isNone) = true ∧
    (let t := after .tr (State.cursor (State.words State.reset [(0, 0x030201#32), (1, 0x060504#32), (4, 0x090807#32)])
        (cursor .localToHost 1 3 1));
      t.replies == [0x0807060504030201#64] && t.xfer.map TransferCursor.carry == some [9#8]) = true := by decide +kernel

/-- Vectors X13 and X7: a local copy reads what it has just written; two widths are refused (R485, R481). -/
theorem test_trxdir :
    (let t := after (.wTrxdir 2#64) (State.words
        (withRegs [(.bitbltbuf, 0x0001000000010000#64), (.trxpos, 0x100000000#64), (.trxreg, 0x100000004#64)])
        [(0, 1#32), (1, 2#32), (4, 3#32), (5, 4#32)]);
      [0, 1, 4, 5, 8].map (fun w => t.lm.vram.readWord w) == [1#32, 1#32, 1#32, 1#32, 1#32] && t.xfer.isNone) = true ∧
    (let t := after (.wTrxdir 2#64) (withRegs [(.bitbltbuf, 0x0200000000000000#64), (.trxreg, 0x100000001#64)]);
      t.reasons == [.transferWidthMismatch] && t.lm.vram.isEmpty) = true := by decide +kernel

/-! ## Witnesses: a concrete state and operands that meet the hypotheses of each statement that has any

The name after `witness_` is the statement's. A statement with several clauses has a witness for each. -/

theorem witness_StepRunsDecodedCommand :
    (State.issue State.reset 3#128).cmds = [3#128] ∧ decode 3#128 = .ok (.wPrim 3#64) ∧
    decodeTableWord 128 3 = some (.wPrim 3#64) ∧ State.reset.cmds = [] := by decide +kernel

theorem witness_WordHasOneMeaning :
    decode 0x00000004FFFFFFFF0123456789ABCDEF#128 = .ok .tr ∧ decode 3#128 = .ok (.wPrim 3#64) := by decide +kernel

theorem witness_ReservedCommandRefused :
    (State.issue State.reset 0x00000010000000000000000000000003#128).cmds = [0x00000010000000000000000000000003#128] ∧
    cmdReserved 0x00000010000000000000000000000003#128 ≠ 0#28 ∧
    8 ≤ (cmdKind 0x00000008000000000000000000000003#128).toNat ∧
    8 ≤ (cmdKind 0x0000000F000000000000000000000003#128).toNat := by decide +kernel

/-- The first and last address of every gap of R190, and none of their named neighbours. -/
theorem witness_UnnamedAddresses_general :
    [0x0B, 0x0E, 0x13, 0x1D, 0x21, 0x23, 0x33, 0x38, 0x3A, 0x3C, 0x3E, 0x55, 0x5F, 0x63, 0xFF, 0x100, 0xFFFFFFFF].all
      unnamedGeneral = true ∧
    [0x0A, 0x0C, 0x0D, 0x14, 0x1C, 0x22, 0x34, 0x37, 0x3B, 0x3D, 0x3F, 0x54, 0x60, 0x62].any unnamedGeneral = false := by
  decide

theorem witness_UnnamedAddresses_commands :
    cmdReserved 0x000000000000000B0000000000000005#128 = 0#28 ∧ cmdKind 0x000000000000000B0000000000000005#128 = 0#4 ∧
    unnamedGeneral (cmdAddr 0x000000000000000B0000000000000005#128).toNat = true ∧
    cmdReserved 0x00000002120010010000000000000005#128 = 0#28 ∧ cmdKind 0x00000002120010010000000000000005#128 = 2#4 ∧
    cmdAddr 0x00000002120010010000000000000005#128 ∉ privAddresses ∧ 0x11FFFFFF#32 ∉ privAddresses ∧
    0x12001081#32 ∉ privAddresses := by decide +kernel

theorem witness_GeneralReadBack :
    (0x00#32, RegName.prim) ∈ generalTable ∧ (0x62#32, RegName.label) ∈ generalTable ∧
    cmdKind (encode (.wPrim 5#64)) = 0#4 ∧ cmdKind (encode (.wLabel 5#64)) = 0#4 := by decide +kernel

theorem witness_PrivilegedReadBack :
    (0x12000000#32, RegName.pmode) ∈ privTable ∧ (0x12001040#32, RegName.busdir) ∈ privTable ∧
    cmdKind (encode (.pwSiglblid 5#64)) = 2#4 ∧ cmdAddr (encode (.pwSiglblid 5#64)) ≠ 0x12001000#32 := by decide +kernel

theorem witness_CsrWrite : (0x11F#64 : Word).getLsbD 9 = false ∧ (0x3FF#64 : Word).getLsbD 9 = true := by decide

/-- For OneEventPerCommand, StatusBitsChangeOnlyBySource and the like: commands that complete, one that sends an event. -/
theorem witness_OneEventPerCommand :
    exec (.wFinish 0#64) (withRegs [(.imr, 0#64)]) = .next (after (.wFinish 0#64) (withRegs [(.imr, 0#64)])) ∧
    (after (.wFinish 0#64) (withRegs [(.imr, 0#64)])).out = [.gsIrq .finish] := ⟨rfl, by decide +kernel⟩

/-- A source that sets its bit, a CSR write that clears it, a reset that changes FIELD. -/
theorem witness_StatusBitsChangeOnlyBySource :
    (after .evVblankIn State.reset).csr = ⟨false, false, false, true, false, true⟩ ∧
    (after (.pwCsr 8#64) (after .evVblankIn State.reset)).csr = ⟨false, false, false, false, false, true⟩ ∧
    (after (.pwCsr 0x200#64) (after .evVblankIn State.reset)).csr = ⟨false, false, false, false, false, false⟩ := by
  decide +kernel

theorem witness_RefusalSticksAndOutputsGrow :
    { State.reset with refused := true, reasons := [.badCommand] }.refused = true ∧
    ∃ t, step (State.issue { State.reset with refused := true, reasons := [.badCommand] } 3#128) = .next t :=
  ⟨rfl, _, rfl⟩

/-- VRAM changed by a drawing kick, by a local copy and by an HWREG write. -/
theorem witness_VramChangesOnlyByDrawingAndTransfers :
    (after (.wXyz2 0#64) (std [(.rgbaq, 1#64)])).lm.vram ≠ [] ∧
    (after (.wTrxdir 2#64) (State.words (withRegs [(.bitbltbuf, 0x0001000000010000#64), (.trxpos, 0x100000000#64),
      (.trxreg, 0x100000001#64)]) [(0, 1#32)])).lm.vram ≠ (State.words State.reset [(0, 1#32)]).lm.vram ∧
    (after (.wHwreg 1#64) (State.cursor State.reset (cursor .hostToLocal 0 2 1))).lm.vram ≠ [] := by decide +kernel

theorem witness_InvariantAfterPowerOn : Memory.wf [] = true ∧ Memory.wf [(0, 1#8), (0x3FFFFF, 2#8)] = true := by decide

/-- A state with a queued vertex, a 24-bit upload under way, a dirty word and a command keeps the invariant's terms. -/
theorem witness_StepKeepsInvariant :
    let s := { State.cursor (State.queue (State.issue (withRegs [(.prim, 3#64)]) 3#128) [Vertex.zero])
                { cursor .hostToLocal 1 8 1 with cx := 2, carry := [7#8, 8#8] } with lm := ⟨[(0, 1#8)], [0], 0⟩ }
    s.Inv ∧ ∃ t, step s = .next t := by
  intro s
  refine ⟨⟨by decide, by decide, by decide, by decide, ?_, by decide, by decide⟩, _, rfl⟩
  intro x hx
  have e : x = { cursor .hostToLocal 1 8 1 with cx := 2, carry := [7#8, 8#8] } := (Option.some.inj hx).symm
  subst e
  exact ⟨by decide, by decide, .inl (by decide), ⟨.ct24, rfl, by decide⟩, by decide⟩

theorem witness_DirtySetHasNoEffect :
    (State.issue State.reset 3#128).cfg.strictTexflush = false ∧
    ∃ t, step (State.issue State.reset 3#128) = .next t := ⟨rfl, _, rfl⟩

theorem witness_SwizzleIsBijectiveInPage :
    0 % 32 = 0 ∧ 0 < 2 ^ 14 ∧ (2 ^ 14 - 32) % 32 = 0 ∧ 2 ^ 14 - 32 < 2 ^ 14 ∧
    0 ≤ Psm.swz .t8 0 2 127 63 ∧ Psm.swz .t8 0 2 127 63 < 32 * (2048 / 8) := by decide +kernel

/-! ### Kicks -/

theorem witness_KickQueuesVertex :
    State.reset.vq.k + 1 = State.reset.regs.primType.count ∧
    (withRegs [(.prim, 3#64)]).vq.k + 1 ≠ (withRegs [(.prim, 3#64)]).regs.primType.count ∧
    (kickCommand State.reset 0#64).length = 4 := by decide +kernel

/-- A kick that completes a primitive which is drawn, by each drawing kick. -/
theorem witness_KickDraws :
    let s := State.queue (std [(.prim, 6#64)]) [vert 0 0 0 1 2 3 4]
    s.vq.k + 1 = s.regs.primType.count ∧
    (drawingKick s 0x40004000400040#64).all (fun c =>
      refusalReason (Env.of (s.regs.write c.2.1 0x40004000400040#64) s.cfg)
        (s.regs.write c.2.1 0x40004000400040#64).primType (queueWith s c.2.2).slot == none) = true := by decide +kernel

theorem witness_RefusedKickWritesNothing :
    let s := State.queue (std [(.prim, 0x86#64)]) [vert 0 0 0 1 2 3 4]
    s.vq.k + 1 = s.regs.primType.count ∧
    (drawingKick s 0x40004000400040#64).all (fun c =>
      refusalReason (Env.of (s.regs.write c.2.1 0x40004000400040#64) s.cfg)
        (s.regs.write c.2.1 0x40004000400040#64).primType (queueWith s c.2.2).slot == some .antialiasing) = true := by
  decide +kernel

theorem witness_DiscardingKickDrawsNothing :
    (State.queue (std [(.prim, 6#64)]) [vert 0 0 0 1 2 3 4]).vq.k + 1 =
      (State.queue (std [(.prim, 6#64)]) [vert 0 0 0 1 2 3 4]).regs.primType.count ∧
    (discardingKick State.reset 0#64).length = 2 := by decide +kernel

/-! ### Fragments -/

/-- A line with fragments in the scissor and some outside it; a point on the scissor's corner and one past it. -/
theorem witness_PointAndLineFragments :
    (lineFrags (envOf (std [(.scissor_1, 0x003F000000020001#64)])) (vert 0 0 0 0 0 0 0) (vert 3 1 0 0 0 0 0)).length = 2 ∧
    inScissor (envOf (std [])).K (win (envOf (std [])).K (vert 63 63 0 0 0 0 0)) = true ∧
    inScissor (envOf (std [])).K (win (envOf (std [])).K (vert 64 63 0 0 0 0 0)) = false := by decide +kernel

/-- Fragments with IIP = 0, IIP = 1 and FST = 1, of a triangle that winds either way. -/
theorem witness_TriangleAttributes :
    (envOf (std [(.prim, 3#64)])).attr.iip = false ∧ (envOf (std [(.prim, 0x10B#64)])).attr.iip = true ∧
    (envOf (std [(.prim, 0x10B#64)])).attr.fst = true ∧ (envOf (std [(.prim, 3#64)])).attr.fst = false ∧
    (triFrags (envOf (std [(.prim, 3#64)])) (vert 0 0 0 0 0 0 0) (vert 1 0 0 0 0 0 0) (vert 0 1 0 0 0 0 0)).length = 3 ∧
    (triFrags (envOf (std [(.prim, 0x10B#64)])) (vert 0 0 0 0 0 0 0) (vert 0 1 0 0 0 0 0) (vert 1 0 0 0 0 0 0)).length =
      3 := by decide +kernel

theorem witness_SpriteFragments :
    (spriteFrags (envOf (std [])) (vert 0 0 0 7 8 9 1) (vert 2 1 5 7 8 9 2)).length = 2 ∧
    (spriteFrags (envOf (std [(.prim, 0x106#64)])) (vert 2 1 0 7 8 9 1) (vert 0 0 5 7 8 9 2)).length = 2 ∧
    (envOf (std [])).attr.fst = false ∧ (envOf (std [(.prim, 0x106#64)])).attr.fst = true := by decide +kernel

/-- A fragment of each primitive type. -/
theorem witness_SourceColourHas8Bits :
    ([PrimType.point, .line, .lineStrip, .triangle, .triStrip, .triFan, .sprite].all (fun t =>
      !(primFrags (envOf (std [])) t (State.queue State.reset [vert 0 0 0 1 2 3 4, vert 2 1 0 1 2 3 4, vert 0 2 0 1 2 3
        4]).vq.slot).isEmpty)) = true := by decide +kernel

/-! ### Texture and pixels -/

/-- Each wrap mode, for columns and rows. -/
theorem witness_WrapModes :
    [0#64, 5#64, 10#64, 15#64].map (fun v => (((withRegs [(.clamp_1, v)]).regs.ctx .ctx1).wms,
      ((withRegs [(.clamp_1, v)]).regs.ctx .ctx1).wmt)) = [(0, 0), (1, 1), (2, 2), (3, 3)] := by decide +kernel

theorem witness_BilinearBetweenTexels :
    ((0 : Int) ≤ 15 ∧ (15 : Int) < 16 ∧ (0 : Int) ≤ 0 ∧ (0 : Int) < 16 ∧ (0 : Int) ≤ 255 ∧ (255 : Int) ≤ 255) ∧
    ((envOf (std [(.tex1_1, 0#64)])).K.mmag = false ∧ (envOf (std [(.tex1_1, 0x20#64)])).K.mmag = true) ∧
    (1 : Rat) ≠ 0 ∧
    ((envOf (std [(.tex0_1, 0#64)])).texFmt = .ct32 ∧ (envOf (std [(.tex0_1, 0x1300000#64)])).texFmt = .t8 ∧
      (envOf (std [(.tex0_1, 0x1400000#64)])).texFmt = .t4) ∧
    (Psm.t8.bits = 8 ∧ Psm.t4.bits = 4 ∧ 255 < 256 ∧ 15 < 16) ∧
    ((envOf (std [(.tex0_1, 0#64)])).K.csm = false ∧ (envOf (std [(.tex0_1, 0x80000000000000#64)])).K.csm = true) ∧
    (({ Config.standard with strictTexflush := true } : Config).strictTexflush = true ∧ Psm.wordAt .ct32 0 1 0 0 ∈ [0] ∧ Psm.wordAt .ct32 0 1 1 0 ∉ [0]) := by
  decide +kernel

/-- Frame and depth formats of every width. -/
theorem witness_PixelTests :
    [0x00000000#64, 0x01000000#64, 0x02000000#64, 0x0A000000#64, 0x30000000#64, 0x31000000#64, 0x32000000#64,
      0x3A000000#64].map (fun v => (envOf (withRegs [(.frame_1, v)])).fbFmt) =
      [.ct32, .ct24, .ct16, .ct16s, .z32, .z24, .z16, .z16s] ∧
    [0x00000000#64, 0x01000000#64, 0x02000000#64, 0x0A000000#64].map (fun v => (envOf (withRegs [(.zbuf_1, v)])).zFmt) =
      [.z32, .z24, .z16, .z16s] := by decide +kernel

/-- The alpha test failing with each AFAIL; the destination-alpha test failing; the depth test failing; none failing. -/
theorem witness_FragmentStages :
    [0#64, 2#64, 3#64].map (fun v => field ((envOf (std [(.scanmsk, v)])).regs.read .scanmsk) 1 0) = [0, 2, 3] ∧
    [0x0001#64, 0x1001#64, 0x2001#64, 0x3001#64].map (fun v =>
      let e := envOf (std [(.test_1, v)]);
      (e.K.ate, alphaPass e.K.atst 0 e.K.aref, e.K.afail, e.K.date, e.K.zte)) =
      [(true, false, 0, false, false), (true, false, 1, false, false), (true, false, 2, false, false),
       (true, false, 3, false, false)] ∧
    (let e := envOf (std [(.test_1, 0xC000#64)]);
      (e.K.date, datePass e (frameRaw e State.reset.lm 0 0)) = (true, false)) ∧
    (let e := envOf (std [(.test_1, 0x10000#64)]);
      (e.K.zte, depthPass e.K.ztst (clampZ e 5) (depthRaw e State.reset.lm 0 0)) = (true, false)) ∧
    (let e := envOf (std []);
      (e.K.ate, e.K.date, e.K.zte) = (false, false, false)) := by decide +kernel

theorem witness_OutputColour :
    (envOf (std [])).K.fbaBit = false ∧ (envOf (std [(.fba_1, 1#64)])).K.fbaBit = true ∧ Byte8 0 ∧ Byte8 255 :=
  ⟨by decide +kernel, by decide +kernel, ⟨by decide, by decide⟩, ⟨by decide, by decide⟩⟩

theorem witness_FrameWriteMerges :
    (envOf (std [])).fbFmt.bits = 32 ∧ (envOf (std [(.frame_1, 0x1010000#64)])).fbFmt.bits = 24 ∧
    (envOf (std [(.frame_1, 0xA010000#64)])).fbFmt.bits = 16 ∧ Byte8 0 ∧ Byte8 255 :=
  ⟨by decide +kernel, by decide +kernel, by decide +kernel, ⟨by decide, by decide⟩, ⟨by decide, by decide⟩⟩

theorem witness_DepthWrittenLast :
    (envOf (std [(.zbuf_1, 0#64)])).K.zMsk = false ∧
    ((WriteKind.full = .full ∨ WriteKind.full = .zbOnly) ∧ (WriteKind.zbOnly = .full ∨ WriteKind.zbOnly = .zbOnly)) ∧
    (0 : Nat) / 4 ∉ (envOf (std [])).fragWords 1 0 := by decide +kernel

theorem witness_TexelDecode : Psm.ct32.bits = 32 ∧ Psm.z24.bits = 24 ∧ Psm.z16s.bits = 16 := by decide

/-! ### Transfers -/

/-- XDIR = 3; a code that is none, for each direction; an empty region, by either extent; a region. -/
theorem witness_TransferStart :
    let bad := withRegs [(.bitbltbuf, 0x0500000005000000#64), (.trxreg, 0x100000001#64)]
    let noWidth := withRegs [(.trxreg, 0x100000000#64)]
    let noHeight := withRegs [(.trxreg, 1#64)]
    let good := withRegs [(.trxreg, 0x100000001#64)]
    [0#64, 1#64, 3#64].all (fun d => d.extractLsb' 0 2 != 2#2) = true ∧ (3#64 : Word).extractLsb' 0 2 = 3#2 ∧
    Psm.ofCode (field (bad.reg .bitbltbuf) 61 56) = none ∧ Psm.ofCode (field (bad.reg .bitbltbuf) 29 24) = none ∧
    (Psm.ofCode (field (good.reg .bitbltbuf) 61 56)).isSome = true ∧ field (noWidth.reg .trxreg) 11 0 = 0 ∧
    field (noHeight.reg .trxreg) 43 32 = 0 ∧ field (good.reg .trxreg) 11 0 ≠ 0 ∧
    field (good.reg .trxreg) 43 32 ≠ 0 := by decide +kernel

/-- A copy of two pixels from (0, 0) to (8, 8) whose places are apart and whose sources are not written; codes that are
none; codes of two widths. -/
theorem witness_LocalCopy :
    let s := withRegs [(.bitbltbuf, 0x0001000000010000#64), (.trxpos, 0x0008000800000000#64), (.trxreg, 0x100000002#64)]
    let bad := withRegs [(.bitbltbuf, 0x05000000#64)]
    let wide := withRegs [(.bitbltbuf, 0x0200000000000000#64)]
    let b := s.reg .bitbltbuf
    let p := s.reg .trxpos
    let g := s.reg .trxreg
    (2#64 : Word).extractLsb' 0 2 = 2#2 ∧ Psm.ofCode (field b 29 24) = some .ct32 ∧
    Psm.ofCode (field b 61 56) = some .ct32 ∧ field g 11 0 = 2 ∧ field g 43 32 = 1 ∧
    ([0, 1].all (fun x => [0, 1].all (fun x' =>
      Psm.wordAt .ct32 (field b 45 32) (field b 53 48) ((field p 42 32 + x') % 2048) (field p 58 48 % 2048) !=
          Psm.wordAt .ct32 (field b 13 0) (field b 21 16) ((field p 10 0 + x) % 2048) (field p 26 16 % 2048) &&
        (Psm.swz .ct32 (field b 45 32) (field b 53 48) ((field p 42 32 + x') % 2048) (field p 58 48 % 2048) !=
            Psm.swz .ct32 (field b 45 32) (field b 53 48) ((field p 42 32 + x) % 2048) (field p 58 48 % 2048) ||
          x' == x)))) = true ∧
    Psm.ofCode (field (bad.reg .bitbltbuf) 29 24) = none ∧
    Psm.ofCode (field (wide.reg .bitbltbuf) 29 24) = some .ct32 ∧
    Psm.ofCode (field (wide.reg .bitbltbuf) 61 56) = some .ct16 ∧ Psm.ct32.bits ≠ Psm.ct16.bits := by decide +kernel

/-- No transfer; an upload under way whose cursor is as between two commands, with two pixels that take two places. -/
theorem witness_HwregWrite :
    (∀ x, State.reset.xfer = some x → x.dir ≠ .hostToLocal) ∧
    (State.cursor State.reset (cursor .hostToLocal 0 2 2)).xfer = some (cursor .hostToLocal 0 2 2) ∧
    (cursor .hostToLocal 0 2 2).Ok ∧ Psm.ofCode (cursor .hostToLocal 0 2 2).dpsm = some .ct32 ∧
    Psm.swz .ct32 0 1 0 0 ≠ Psm.swz .ct32 0 1 1 0 :=
  ⟨fun x h => (nomatch (show (none : Option TransferCursor) = some x from h)), rfl,
    ⟨by decide, by decide, .inl (by decide), ⟨.ct32, rfl, fun _ => rfl⟩, by decide⟩, rfl, by decide +kernel⟩

theorem witness_DataWordPixels : Psm.ct16.bits ≠ 24 ∧ Psm.ct24.bits = 24 := by decide

/-- No transfer; a download under way in a 16-bit format. -/
theorem witness_TransferReadReturnsPixels :
    (∀ x, State.reset.xfer = some x → x.dir ≠ .localToHost) ∧
    (State.cursor State.reset (cursor .localToHost 2 3 1)).xfer = some (cursor .localToHost 2 3 1) ∧
    (cursor .localToHost 2 3 1).Ok ∧ Psm.ofCode (cursor .localToHost 2 3 1).spsm = some .ct16 ∧ Psm.ct16.bits ≠ 24 :=
  ⟨fun x h => (nomatch (show (none : Option TransferCursor) = some x from h)), rfl,
    ⟨by decide, by decide, .inl (by decide), ⟨.ct16, rfl, fun _ => rfl⟩, by decide⟩, rfl, by decide⟩

/-- Downloads under way in a 24-bit format: past the last pixel with a byte left, and at the first pixel. -/
theorem witness_TransferRead24Stream :
    (State.cursor State.reset { cursor .localToHost 1 3 1 with cy := 1, carry := [9#8] }).xfer =
      some { cursor .localToHost 1 3 1 with cy := 1, carry := [9#8] } ∧
    TransferCursor.Ok { cursor .localToHost 1 3 1 with cy := 1, carry := [9#8] } ∧
    (cursor .localToHost 1 3 1).Ok ∧ Psm.ofCode (cursor .localToHost 1 3 1).spsm = some .ct24 ∧ Psm.ct24.bits = 24 :=
  ⟨rfl, ⟨by decide, by decide, .inr (by decide), ⟨.ct24, rfl, by decide⟩, by decide⟩,
    ⟨by decide, by decide, .inl (by decide), ⟨.ct24, rfl, by decide⟩, by decide⟩, rfl, by decide⟩

end Sys2Proof.Tests
end

/-! # What one command does

`Runs` says once, one constructor for each way of acting, what the commands do. The facts below it follow one field of the
state each, by cases on `Runs`. -/

namespace Sys2Proof.Machine

/-- The register of the bank a write command names and the DATA it stores there, for the 54 general registers (R32) and
the 17 privileged ones that are held in the bank (R67). -/
def bankWrite? : Instr → Option (RegName × Word)
  | .wPrim d => some (.prim, d)
  | .wRgbaq d => some (.rgbaq, d)
  | .wSt d => some (.st, d)
  | .wUv d => some (.uv, d)
  | .wXyzf2 d => some (.xyzf2, d)
  | .wXyz2 d => some (.xyz2, d)
  | .wTex0_1 d => some (.tex0_1, d)
  | .wTex0_2 d => some (.tex0_2, d)
  | .wClamp_1 d => some (.clamp_1, d)
  | .wClamp_2 d => some (.clamp_2, d)
  | .wFog d => some (.fog, d)
  | .wXyzf3 d => some (.xyzf3, d)
  | .wXyz3 d => some (.xyz3, d)
  | .wTex1_1 d => some (.tex1_1, d)
  | .wTex1_2 d => some (.tex1_2, d)
  | .wTex2_1 d => some (.tex2_1, d)
  | .wTex2_2 d => some (.tex2_2, d)
  | .wXyoffset_1 d => some (.xyoffset_1, d)
  | .wXyoffset_2 d => some (.xyoffset_2, d)
  | .wPrmodecont d => some (.prmodecont, d)
  | .wPrmode d => some (.prmode, d)
  | .wTexclut d => some (.texclut, d)
  | .wScanmsk d => some (.scanmsk, d)
  | .wMiptbp1_1 d => some (.miptbp1_1, d)
  | .wMiptbp1_2 d => some (.miptbp1_2, d)
  | .wMiptbp2_1 d => some (.miptbp2_1, d)
  | .wMiptbp2_2 d => some (.miptbp2_2, d)
  | .wTexa d => some (.texa, d)
  | .wFogcol d => some (.fogcol, d)
  | .wTexflush d => some (.texflush, d)
  | .wScissor_1 d => some (.scissor_1, d)
  | .wScissor_2 d => some (.scissor_2, d)
  | .wAlpha_1 d => some (.alpha_1, d)
  | .wAlpha_2 d => some (.alpha_2, d)
  | .wDimx d => some (.dimx, d)
  | .wDthe d => some (.dthe, d)
  | .wColclamp d => some (.colclamp, d)
  | .wTest_1 d => some (.test_1, d)
  | .wTest_2 d => some (.test_2, d)
  | .wPabe d => some (.pabe, d)
  | .wFba_1 d => some (.fba_1, d)
  | .wFba_2 d => some (.fba_2, d)
  | .wFrame_1 d => some (.frame_1, d)
  | .wFrame_2 d => some (.frame_2, d)
  | .wZbuf_1 d => some (.zbuf_1, d)
  | .wZbuf_2 d => some (.zbuf_2, d)
  | .wBitbltbuf d => some (.bitbltbuf, d)
  | .wTrxpos d => some (.trxpos, d)
  | .wTrxreg d => some (.trxreg, d)
  | .wTrxdir d => some (.trxdir, d)
  | .wHwreg d => some (.hwreg, d)
  | .wSignal d => some (.signal, d)
  | .wFinish d => some (.finish, d)
  | .wLabel d => some (.label, d)
  | .pwPmode d => some (.pmode, d)
  | .pwSmode1 d => some (.smode1, d)
  | .pwSmode2 d => some (.smode2, d)
  | .pwSrfsh d => some (.srfsh, d)
  | .pwSynch1 d => some (.synch1, d)
  | .pwSynch2 d => some (.synch2, d)
  | .pwSyncv d => some (.syncv, d)
  | .pwDispfb1 d => some (.dispfb1, d)
  | .pwDisplay1 d => some (.display1, d)
  | .pwDispfb2 d => some (.dispfb2, d)
  | .pwDisplay2 d => some (.display2, d)
  | .pwExtbuf d => some (.extbuf, d)
  | .pwExtdata d => some (.extdata, d)
  | .pwExtwrite d => some (.extwrite, d)
  | .pwBgcolor d => some (.bgcolor, d)
  | .pwImr d => some (.imr, d)
  | .pwBusdir d => some (.busdir, d)
  | _ => none

/-- Whether a bank write does nothing besides storing its DATA. -/
def onlyStores : Instr → Bool
  | .wPrim _ | .wXyzf2 _ | .wXyz2 _ | .wXyzf3 _ | .wXyz3 _ | .wTex2_1 _ | .wTex2_2 _ | .wTexflush _ | .wTrxdir _
  | .wHwreg _ | .wSignal _ | .wFinish _ | .wLabel _ => false
  | _ => true

/-- The fields of a vertex kick and whether it discards its primitive (R226 to R229). -/
def kickOf? (regs : Regs) : Instr → Option (KickFields × Bool)
  | .wXyzf2 d => some (kickXyzf d, false)
  | .wXyz2 d => some (kickXyz d regs, false)
  | .wXyzf3 d => some (kickXyzf d, true)
  | .wXyz3 d => some (kickXyz d regs, true)
  | _ => none

/-- `Runs i s t`: the command `i` takes the state `s` to `t`. -/
inductive Runs : Instr → State → State → Prop
  | store {i s r d} (hb : bankWrite? i = some (r, d)) (ho : onlyStores i = true) : Runs i s (s.setReg r d)
  | prim {s} (d) : Runs (.wPrim d) s { s.setReg .prim d with vq := { s.vq with k := 0 } }
  | kick {i s r d p discard} (hb : bankWrite? i = some (r, d)) (hk : kickOf? s.regs i = some (p, discard)) :
      Runs i s ((s.setReg r d).kick p discard)
  | tex2_1 {s} (d) :
      Runs (.wTex2_1 d) s ((s.setReg .tex2_1 d).setReg .tex0_1 (mergeBits (s.reg .tex0_1) d tex2Mask))
  | tex2_2 {s} (d) :
      Runs (.wTex2_2 d) s ((s.setReg .tex2_2 d).setReg .tex0_2 (mergeBits (s.reg .tex0_2) d tex2Mask))
  | texflush {s} (d) : Runs (.wTexflush d) s { s.setReg .texflush d with lm := { s.lm with dirty := [] } }
  | trxdir {s} (d) : Runs (.wTrxdir d) s ((s.setReg .trxdir d).startTransfer (dirXdir d))
  | hwreg {s} (d) : Runs (.wHwreg d) s ((s.setReg .hwreg d).transferWrite d)
  | signal {s} (d) :
      Runs (.wSignal d) s ({ s.setReg .signal d with sig := mergeSigId s.sig (sigId d) (sigIdMask d) }.raise .signal)
  | finish {s} (d) : Runs (.wFinish d) s ((s.setReg .finish d).raise .finish)
  | label {s} (d) :
      Runs (.wLabel d) s { s.setReg .label d with sig := mergeLblId s.sig (sigId d) (sigIdMask d) }
  | readGeneral {s a r} (h : generalReg? a = some r) : Runs (.rGeneral a) s (s.reply (s.reg r))
  | readGeneralAny {s a} (h : generalReg? a = none) : Runs (.rGeneral a) s s.replyAny
  | csr {s} (d) :
      Runs (.pwCsr d) s
        (if bit d 9 then { s with csr := csrClear s.csr d }.gsReset else { s with csr := csrClear s.csr d })
  | siglblid {s} (d) : Runs (.pwSiglblid d) s { s with sig := d }
  | readCsr {s} : Runs (.rPriv csrAddr) s (s.reply (csrValue s.csr s.cfg))
  | readSiglblid {s} : Runs (.rPriv siglblidAddr) s (s.reply s.sig)
  | readPriv {s a r} (h : privReg? a = some r) : Runs (.rPriv a) s (s.reply (s.reg r))
  | readPrivAny {s a} (hc : a ≠ csrAddr) (hs : a ≠ siglblidAddr) (h : privReg? a = none) :
      Runs (.rPriv a) s s.replyAny
  | tr {s} : Runs .tr s s.transferRead
  | vblankIn {s} : Runs .evVblankIn s ({ s with csr := { s.csr with field := !s.csr.field } }.raise .vsint)
  | vblankOut {s} : Runs .evVblankOut s s
  | hblank {s} : Runs .evHblank s (s.raise .hsint)

/-! ## Reads -/

theorem exec_rGeneral {addr : BitVec 32} {r : RegName} (s : State) (h : generalReg? addr = some r) :
    exec (.rGeneral addr) s = .next (s.reply (s.reg r)) := by
  simp only [exec, execRGeneral, h]

theorem exec_rGeneral_any {addr : BitVec 32} (s : State) (h : generalReg? addr = none) :
    exec (.rGeneral addr) s = .next s.replyAny := by
  simp only [exec, execRGeneral, h]

theorem exec_rPriv_csr (s : State) : exec (.rPriv csrAddr) s = .next (s.reply (csrValue s.csr s.cfg)) := rfl

theorem exec_rPriv_siglblid (s : State) : exec (.rPriv siglblidAddr) s = .next (s.reply s.sig) := rfl

/-- The stored privileged registers are neither CSR nor SIGLBLID. -/
theorem exec_rPriv {addr : BitVec 32} {r : RegName} (s : State) (h : privReg? addr = some r) :
    exec (.rPriv addr) s = .next (s.reply (s.reg r)) := by
  have csr_none : privReg? csrAddr = none := by decide
  have siglblid_none : privReg? siglblidAddr = none := by decide
  have hc : addr ≠ csrAddr := by rintro rfl; rw [csr_none] at h; cases h
  have hs : addr ≠ siglblidAddr := by rintro rfl; rw [siglblid_none] at h; cases h
  simp only [exec, execRPriv, if_neg hc, if_neg hs, h]

theorem exec_rPriv_any {addr : BitVec 32} (s : State) (hc : addr ≠ csrAddr) (hs : addr ≠ siglblidAddr)
    (h : privReg? addr = none) : exec (.rPriv addr) s = .next s.replyAny := by
  simp only [exec, execRPriv, if_neg hc, if_neg hs, h]

/-! ## Every command -/

/-- Every command ends in a next state (R520, R521), in one of the ways `Runs` lists. -/
theorem exec_runs (i : Instr) (s : State) : ∃ t, exec i s = .next t ∧ Runs i s t := by
  cases i with
  | wPrim d => exact ⟨_, rfl, .prim d⟩
  | wXyzf2 | wXyz2 | wXyzf3 | wXyz3 => exact ⟨_, rfl, .kick rfl rfl⟩
  | wTex2_1 d => exact ⟨_, rfl, .tex2_1 d⟩
  | wTex2_2 d => exact ⟨_, rfl, .tex2_2 d⟩
  | wTexflush d => exact ⟨_, rfl, .texflush d⟩
  | wTrxdir d => exact ⟨_, rfl, .trxdir d⟩
  | wHwreg d => exact ⟨_, rfl, .hwreg d⟩
  | wSignal d => exact ⟨_, rfl, .signal d⟩
  | wFinish d => exact ⟨_, rfl, .finish d⟩
  | wLabel d => exact ⟨_, rfl, .label d⟩
  | rGeneral a =>
    cases h : generalReg? a with
    | some r => exact ⟨_, exec_rGeneral s h, .readGeneral h⟩
    | none => exact ⟨_, exec_rGeneral_any s h, .readGeneralAny h⟩
  | pwCsr d => exact ⟨_, rfl, .csr d⟩
  | pwSiglblid d => exact ⟨_, rfl, .siglblid d⟩
  | rPriv a =>
    by_cases hc : a = csrAddr
    · subst hc; exact ⟨_, exec_rPriv_csr s, .readCsr⟩
    by_cases hs : a = siglblidAddr
    · subst hs; exact ⟨_, exec_rPriv_siglblid s, .readSiglblid⟩
    cases h : privReg? a with
    | some r => exact ⟨_, exec_rPriv s h, .readPriv h⟩
    | none => exact ⟨_, exec_rPriv_any s hc hs h, .readPrivAny hc hs h⟩
  | tr => exact ⟨_, rfl, .tr⟩
  | evVblankIn => exact ⟨_, rfl, .vblankIn⟩
  | evVblankOut => exact ⟨_, rfl, .vblankOut⟩
  | evHblank => exact ⟨_, rfl, .hblank⟩
  | _ => exact ⟨_, rfl, .store rfl rfl⟩

theorem Runs.of_exec {i : Instr} {s t : State} (h : exec i s = .next t) : Runs i s t := by
  obtain ⟨t', he, hr⟩ := exec_runs i s
  rw [h, Host.Outcome.next.injEq] at he
  exact he ▸ hr

/-- Everything a step can do: nothing with no command issued, else take the oldest command and run it or reject its
word. -/
theorem step_cases {s t : State} (h : step s = .next t) :
    (s.cmds = [] ∧ t = s) ∨
    (∃ w rest i, s.cmds = w :: rest ∧ decode w = .ok i ∧ Runs i { s with cmds := rest } t) ∨
    (∃ w rest r, s.cmds = w :: rest ∧ decode w = .error r ∧ t = ({ s with cmds := rest } : State).rejectCmd r) := by
  unfold step State.nextCmd at h
  cases hc : s.cmds with
  | nil =>
    rw [hc] at h
    exact .inl ⟨rfl, (Host.Outcome.next.inj h).symm⟩
  | cons w rest =>
    rw [hc] at h
    dsimp only at h
    cases hd : decode w with
    | ok i =>
      rw [hd] at h
      exact .inr (.inl ⟨w, rest, i, rfl, hd, Runs.of_exec h⟩)
    | error r =>
      rw [hd] at h
      exact .inr (.inr ⟨w, rest, r, rfl, hd, (Host.Outcome.next.inj h).symm⟩)

end Sys2Proof.Machine

/-! # What commands keep, field by field -/

namespace Sys2Proof.Machine

/-! ## The fields of shared operations -/

@[simp] theorem State.raise_regs (s : State) (src : IrqSource) : (s.raise src).regs = s.regs := by rw [State.raise_eq]

@[simp] theorem State.raise_vq (s : State) (src : IrqSource) : (s.raise src).vq = s.vq := by rw [State.raise_eq]

@[simp] theorem State.raise_xfer (s : State) (src : IrqSource) : (s.raise src).xfer = s.xfer := by rw [State.raise_eq]

@[simp] theorem State.raise_lm (s : State) (src : IrqSource) : (s.raise src).lm = s.lm := by rw [State.raise_eq]

@[simp] theorem State.raise_csr (s : State) (src : IrqSource) : (s.raise src).csr = csrSet s.csr src := by
  rw [State.raise_eq]

@[simp] theorem State.raise_refused (s : State) (src : IrqSource) : (s.raise src).refused = s.refused := by
  rw [State.raise_eq]

@[simp] theorem State.raise_reasons (s : State) (src : IrqSource) : (s.raise src).reasons = s.reasons := by
  rw [State.raise_eq]

@[simp] theorem State.raise_replies (s : State) (src : IrqSource) : (s.raise src).replies = s.replies := by
  rw [State.raise_eq]

@[simp] theorem State.raise_cfg (s : State) (src : IrqSource) : (s.raise src).cfg = s.cfg := by rw [State.raise_eq]

/-- An occurrence of an interrupt source sends its event or none (R530). -/
theorem State.prefix_raise_out {s : State} {l : List Event} (src : IrqSource) (h : l <+: s.out) :
    l <+: (s.raise src).out := by
  rw [State.raise_eq]
  dsimp only
  split
  · exact h
  · exact h.trans (List.prefix_append _ _)

@[simp] theorem State.startTransfer_regs (s : State) (xdir : Nat) : (s.startTransfer xdir).regs = s.regs := by
  rw [State.startTransfer_frame]

@[simp] theorem State.startTransfer_vq (s : State) (xdir : Nat) : (s.startTransfer xdir).vq = s.vq := by
  rw [State.startTransfer_frame]

@[simp] theorem State.startTransfer_csr (s : State) (xdir : Nat) : (s.startTransfer xdir).csr = s.csr := by
  rw [State.startTransfer_frame]

@[simp] theorem State.startTransfer_out (s : State) (xdir : Nat) : (s.startTransfer xdir).out = s.out := by
  rw [State.startTransfer_frame]

@[simp] theorem State.startTransfer_replies (s : State) (xdir : Nat) :
    (s.startTransfer xdir).replies = s.replies := by
  rw [State.startTransfer_frame]

@[simp] theorem State.startTransfer_cfg (s : State) (xdir : Nat) : (s.startTransfer xdir).cfg = s.cfg := by
  rw [State.startTransfer_frame]

@[simp] theorem State.transferWrite_regs (s : State) (d : Word) : (s.transferWrite d).regs = s.regs := by
  rw [State.transferWrite_frame]

@[simp] theorem State.transferWrite_vq (s : State) (d : Word) : (s.transferWrite d).vq = s.vq := by
  rw [State.transferWrite_frame]

@[simp] theorem State.transferWrite_csr (s : State) (d : Word) : (s.transferWrite d).csr = s.csr := by
  rw [State.transferWrite_frame]

@[simp] theorem State.transferWrite_out (s : State) (d : Word) : (s.transferWrite d).out = s.out := by
  rw [State.transferWrite_frame]

@[simp] theorem State.transferWrite_refused (s : State) (d : Word) : (s.transferWrite d).refused = s.refused := by
  rw [State.transferWrite_frame]

@[simp] theorem State.transferWrite_reasons (s : State) (d : Word) : (s.transferWrite d).reasons = s.reasons := by
  rw [State.transferWrite_frame]

@[simp] theorem State.transferWrite_replies (s : State) (d : Word) : (s.transferWrite d).replies = s.replies := by
  rw [State.transferWrite_frame]

@[simp] theorem State.transferWrite_cfg (s : State) (d : Word) : (s.transferWrite d).cfg = s.cfg := by
  rw [State.transferWrite_frame]

/-- A transfer read changes the cursor, the counter of free values and the replies, to which it adds one. -/
theorem State.transferRead_frame (s : State) :
    ∃ v, s.transferRead =
      { s with
        xfer := s.transferRead.xfer
        lm := { s.lm with free := s.transferRead.lm.free }
        replies := s.replies ++ [v] } := by
  rcases State.transferRead_cases s with ⟨-, e⟩ | ⟨x, -, -, e⟩ <;> rw [e] <;> exact ⟨_, rfl⟩

@[simp] theorem State.transferRead_regs (s : State) : s.transferRead.regs = s.regs := by
  obtain ⟨v, e⟩ := s.transferRead_frame; rw [e]

@[simp] theorem State.transferRead_vq (s : State) : s.transferRead.vq = s.vq := by
  obtain ⟨v, e⟩ := s.transferRead_frame; rw [e]

@[simp] theorem State.transferRead_csr (s : State) : s.transferRead.csr = s.csr := by
  obtain ⟨v, e⟩ := s.transferRead_frame; rw [e]

@[simp] theorem State.transferRead_out (s : State) : s.transferRead.out = s.out := by
  obtain ⟨v, e⟩ := s.transferRead_frame; rw [e]

@[simp] theorem State.transferRead_refused (s : State) : s.transferRead.refused = s.refused := by
  obtain ⟨v, e⟩ := s.transferRead_frame; rw [e]

@[simp] theorem State.transferRead_reasons (s : State) : s.transferRead.reasons = s.reasons := by
  obtain ⟨v, e⟩ := s.transferRead_frame; rw [e]

@[simp] theorem State.transferRead_cfg (s : State) : s.transferRead.cfg = s.cfg := by
  obtain ⟨v, e⟩ := s.transferRead_frame; rw [e]

theorem State.transferRead_lm_ok {s : State} (h : s.lm.Ok) : s.transferRead.lm.Ok := by
  obtain ⟨v, e⟩ := s.transferRead_frame
  rw [e]
  exact ⟨h.vramWf, h.dirtyRising, h.dirtyInVram⟩

theorem State.replies_prefix_transferRead (s : State) : s.replies <+: s.transferRead.replies := by
  obtain ⟨v, e⟩ := s.transferRead_frame
  rw [e]
  exact List.prefix_append _ _

@[simp] theorem State.rejectCmd_out (s : State) (r : DecodeReject) : (s.rejectCmd r).out = s.out := by cases r <;> rfl

@[simp] theorem State.rejectCmd_replies (s : State) (r : DecodeReject) : (s.rejectCmd r).replies = s.replies := by
  cases r <;> rfl

@[simp] theorem State.rejectCmd_cfg (s : State) (r : DecodeReject) : (s.rejectCmd r).cfg = s.cfg := by cases r <;> rfl

/-! ## Registers -/

/-- Only W_PRIM writes PRIM. -/
theorem eq_wPrim_of_bankWrite? {i : Instr} {d : Word} (h : bankWrite? i = some (.prim, d)) : i = .wPrim d := by
  cases i <;> cases h
  rfl

theorem ne_prim_of_onlyStores {i : Instr} {r : RegName} {d : Word} (hb : bankWrite? i = some (r, d))
    (ho : onlyStores i = true) : r ≠ .prim := by
  rintro rfl
  rw [eq_wPrim_of_bankWrite? hb] at ho
  cases ho

theorem ne_prim_of_kick {i : Instr} {r : RegName} {d : Word} {regs : Regs} {k : KickFields × Bool}
    (hb : bankWrite? i = some (r, d)) (hk : kickOf? regs i = some k) : r ≠ .prim := by
  rintro rfl
  rw [eq_wPrim_of_bankWrite? hb] at hk
  cases hk

/-- Every bank write leaves its DATA in its register, whatever else it does (R221). -/
theorem Runs.reg_of_bankWrite {i : Instr} {s t : State} {r : RegName} {d : Word} (h : Runs i s t)
    (hw : bankWrite? i = some (r, d)) : t.reg r = d := by
  cases h with
  | store hb | kick hb =>
    cases hb.symm.trans hw
    simp
  | prim | texflush | trxdir | hwreg | signal | finish | label =>
    cases hw
    simp [State.reg]
  | tex2_1 | tex2_2 =>
    cases hw
    rw [State.reg_setReg_ne _ _ (by decide), State.reg_setReg_same]
  | _ => cases hw

/-! ## The status bits -/

/-- CSR after a command (R68, R300, R530, R540). -/
def csrAfter (i : Instr) (c : Csr) : Csr :=
  match i with
  | .wSignal _ => csrSet c .signal
  | .wFinish _ => csrSet c .finish
  | .pwCsr d => if bit d 9 then Csr.reset else csrClear c d
  | .evVblankIn => csrSet { c with field := !c.field } .vsint
  | .evHblank => csrSet c .hsint
  | _ => c

theorem csrAfter_of_onlyStores {i : Instr} {k : RegName × Word} (c : Csr) (hb : bankWrite? i = some k)
    (ho : onlyStores i = true) : csrAfter i c = c := by
  cases i with
  | wSignal | wFinish => cases ho
  | pwCsr | evVblankIn | evHblank => cases hb
  | _ => rfl

theorem csrAfter_of_kick {i : Instr} {regs : Regs} {k : KickFields × Bool} (c : Csr)
    (hk : kickOf? regs i = some k) : csrAfter i c = c := by
  cases i with
  | wSignal | wFinish | pwCsr | evVblankIn | evHblank => cases hk
  | _ => rfl

theorem Runs.csr_eq {i : Instr} {s t : State} (h : Runs i s t) : t.csr = csrAfter i s.csr := by
  cases h with
  | store hb ho => exact (csrAfter_of_onlyStores _ hb ho).symm
  | kick hb hk => rw [State.kick_csr, csrAfter_of_kick _ hk, State.setReg_csr]
  | trxdir => exact State.startTransfer_csr _ _
  | hwreg => exact State.transferWrite_csr _ _
  | signal | finish | vblankIn | hblank => exact State.raise_csr _ _
  | csr => exact apply_ite State.csr _ _ _
  | tr => exact State.transferRead_csr _
  | _ => rfl

/-- A command changes CSR only as an interrupt source or as a CSR write (R68, R300, R530). -/
theorem csrAfter_cases (i : Instr) (c : Csr) :
    (csrAfter i c = c ∧ ∀ d, i ≠ .pwCsr d) ∨
    (∃ d, i = .wSignal d ∧ csrAfter i c = csrSet c .signal) ∨
    (∃ d, i = .wFinish d ∧ csrAfter i c = csrSet c .finish) ∨
    (i = .evHblank ∧ csrAfter i c = csrSet c .hsint) ∨
    (i = .evVblankIn ∧ csrAfter i c = csrSet { c with field := !c.field } .vsint) ∨
    (∃ d, i = .pwCsr d ∧ bit d 9 = true ∧ csrAfter i c = Csr.reset) ∨
    (∃ d, i = .pwCsr d ∧ csrAfter i c = csrClear c d) := by
  cases i with
  | wSignal d => exact .inr (.inl ⟨d, rfl, rfl⟩)
  | wFinish d => exact .inr (.inr (.inl ⟨d, rfl, rfl⟩))
  | evHblank => exact .inr (.inr (.inr (.inl ⟨rfl, rfl⟩)))
  | evVblankIn => exact .inr (.inr (.inr (.inr (.inl ⟨rfl, rfl⟩))))
  | pwCsr d =>
    refine .inr (.inr (.inr (.inr (.inr ?_))))
    by_cases h : bit d 9 = true
    · exact .inl ⟨d, rfl, h, if_pos h⟩
    · exact .inr ⟨d, rfl, if_neg h⟩
  | _ => exact .inl ⟨rfl, nofun⟩

/-- EDWINT is set by no command (R506). -/
theorem edwint_of_csrAfter {i : Instr} {c : Csr} (h : (csrAfter i c).edwint = true) : c.edwint = true := by
  rcases csrAfter_cases i c with
    ⟨e, -⟩ | ⟨d, -, e⟩ | ⟨d, -, e⟩ | ⟨-, e⟩ | ⟨-, e⟩ | ⟨d, -, -, e⟩ | ⟨d, -, e⟩ <;> rw [e] at h
  · exact h
  · exact h
  · exact h
  · exact h
  · exact h
  · cases h
  · exact (Bool.and_eq_true _ _ ▸ h).1

/-! ## Refusal -/

/-- The mark and the reasons are as before, or the mark is set and one reason noted (R522; log entry 5). -/
def State.MayRefuse (s t : State) : Prop :=
  (t.refused = s.refused ∧ t.reasons = s.reasons) ∨ ∃ r, t.refused = true ∧ t.reasons = s.reasons ++ [r]

theorem State.MayRefuse.refused {s t : State} (h : s.MayRefuse t) (hs : s.refused = true) : t.refused = true := by
  rcases h with ⟨e, -⟩ | ⟨r, e, -⟩
  · rw [e, hs]
  · exact e

/-- The mark agrees with the reasons after a refusal and without one. -/
theorem State.MayRefuse.noted {s t : State} (h : s.MayRefuse t) (hs : s.refused = !s.reasons.isEmpty) :
    t.refused = !t.reasons.isEmpty := by
  rcases h with ⟨e, er⟩ | ⟨r, e, er⟩
  · rw [e, er, hs]
  · simp [e, er]

theorem State.mayRefuse_kick (s : State) (p : KickFields) (discard : Bool) : s.MayRefuse (s.kick p discard) := by
  rcases State.kick_cases s p discard with ⟨-, e⟩ | ⟨-, ⟨-, e⟩ | ⟨r, -, -, e⟩ | ⟨-, -, e⟩⟩ <;> rw [e]
  · exact .inl ⟨rfl, rfl⟩
  · exact .inl ⟨rfl, rfl⟩
  · exact .inr ⟨r, rfl, rfl⟩
  · exact .inl ⟨rfl, rfl⟩

theorem State.mayRefuse_startTransfer (s : State) (xdir : Nat) : s.MayRefuse (s.startTransfer xdir) := by
  rcases State.startTransfer_cases s xdir with e | ⟨r, e⟩ | ⟨x, -, e⟩ | ⟨sp, dp, -, e⟩ <;> rw [e]
  · exact .inl ⟨rfl, rfl⟩
  · exact .inr ⟨r, rfl, rfl⟩
  · exact .inl ⟨rfl, rfl⟩
  · exact .inl ⟨rfl, rfl⟩

theorem State.mayRefuse_rejectCmd (s : State) (r : DecodeReject) : s.MayRefuse (s.rejectCmd r) := by
  cases r with
  | badCommand => exact .inr ⟨.badCommand, rfl, rfl⟩
  | noSuchRegister => exact .inl ⟨rfl, rfl⟩

theorem Runs.mayRefuse {i : Instr} {s t : State} (h : Runs i s t) : s.MayRefuse t := by
  cases h with
  | kick => exact State.mayRefuse_kick _ _ _
  | trxdir => exact State.mayRefuse_startTransfer _ _
  | hwreg => exact .inl ⟨State.transferWrite_refused _ _, State.transferWrite_reasons _ _⟩
  | signal | finish | vblankIn | hblank => exact .inl ⟨State.raise_refused _ _, State.raise_reasons _ _⟩
  | csr => exact .inl ⟨by split <;> rfl, by split <;> rfl⟩
  | tr => exact .inl ⟨State.transferRead_refused _, State.transferRead_reasons _⟩
  | _ => exact .inl ⟨rfl, rfl⟩

/-! ## What leaves the block, and the parameters -/

theorem Runs.out_prefix {i : Instr} {s t : State} (h : Runs i s t) : s.out <+: t.out := by
  cases h with
  | kick | trxdir | hwreg | tr => simp
  | signal | finish | vblankIn | hblank => exact State.prefix_raise_out _ (List.prefix_refl _)
  | csr => split <;> exact List.prefix_refl _
  | _ => exact List.prefix_refl _

theorem Runs.replies_prefix {i : Instr} {s t : State} (h : Runs i s t) : s.replies <+: t.replies := by
  cases h with
  | kick | trxdir | hwreg | signal | finish | vblankIn | hblank => simp
  | csr => split <;> exact List.prefix_refl _
  | readGeneral | readGeneralAny | readCsr | readSiglblid | readPriv | readPrivAny => exact List.prefix_append _ _
  | tr => exact State.replies_prefix_transferRead s
  | _ => exact List.prefix_refl _

theorem Runs.cfg_eq {i : Instr} {s t : State} (h : Runs i s t) : t.cfg = s.cfg := by
  cases h with
  | kick | trxdir | hwreg | signal | finish | vblankIn | hblank | tr => simp
  | csr => split <;> rfl
  | _ => rfl

/-! ## The local memory, the queue and the cursor -/

theorem Runs.lm_ok {i : Instr} {s t : State} (h : Runs i s t) (hs : s.lm.Ok) : t.lm.Ok := by
  cases h with
  | kick => exact State.kick_lm_ok _ _ hs
  | trxdir => exact State.startTransfer_lm_ok _ hs
  | hwreg => exact State.transferWrite_lm_ok _ hs
  | texflush => exact hs.flush
  | csr =>
    split
    · exact hs.flush
    · exact hs
  | signal | finish | vblankIn | hblank => simpa using hs
  | readGeneralAny | readPrivAny => exact hs.useFree
  | tr => exact State.transferRead_lm_ok hs
  | _ => exact hs

theorem PrimType.count_pos (t : PrimType) : 0 < t.count := by cases t <;> decide

/-- Every command leaves fewer vertices queued than the primitive type in force needs (R312). -/
theorem Runs.queue_lt {i : Instr} {s t : State} (h : Runs i s t) (hs : s.vq.k < s.regs.primType.count) :
    t.vq.k < t.regs.primType.count := by
  have stored : ∀ {r} (d : Word), r ≠ .prim → (s.setReg r d).vq.k < (s.setReg r d).regs.primType.count := by
    intro r d hr
    rw [State.setReg_regs, Regs.primType_write_ne _ _ hr]
    exact hs
  cases h with
  | store hb ho => exact stored _ (ne_prim_of_onlyStores hb ho)
  | prim => exact PrimType.count_pos _
  | kick hb hk =>
    rw [State.kick_regs]
    exact State.kick_k_lt _ _ (stored _ (ne_prim_of_kick hb hk))
  | tex2_1 | tex2_2 =>
    rw [State.setReg_regs, Regs.primType_write_ne _ _ (by decide)]
    exact stored _ (by decide)
  | texflush | label => exact stored _ (by decide)
  | trxdir =>
    rw [State.startTransfer_vq, State.startTransfer_regs]
    exact stored _ (by decide)
  | hwreg =>
    rw [State.transferWrite_vq, State.transferWrite_regs]
    exact stored _ (by decide)
  | signal | finish =>
    rw [State.raise_vq, State.raise_regs]
    exact stored _ (by decide)
  | csr =>
    split
    · exact PrimType.count_pos _
    · exact hs
  | tr | vblankIn | hblank => simpa using hs
  | _ => exact hs

theorem Runs.cursor_ok {i : Instr} {s t : State} (h : Runs i s t) (hs : ∀ x, s.xfer = some x → x.Ok) :
    ∀ x, t.xfer = some x → x.Ok := by
  cases h with
  | kick | signal | finish | vblankIn | hblank => simpa using hs
  | trxdir => exact State.startTransfer_cursor_ok _ _
  | hwreg => exact State.transferWrite_cursor_ok _ hs
  | csr =>
    split
    · intro x hx
      cases hx
    · exact hs
  | tr => exact State.transferRead_cursor_ok hs
  | _ => exact hs

end Sys2Proof.Machine

/-! # The statements about the state -/

namespace Sys2Proof.Machine

/-! ## The invariant -/

theorem State.Inv.lm_ok {s : State} (h : s.Inv) : s.lm.Ok := ⟨h.vramWf, h.dirtyRising, h.dirtyInVram⟩

/-- Taking a command from the queue keeps the invariant, which does not speak of the queue. -/
theorem State.Inv.takeCmd {s : State} (h : s.Inv) (rest : List CmdWord) : ({ s with cmds := rest } : State).Inv where
  vramWf := h.vramWf
  dirtyRising := h.dirtyRising
  dirtyInVram := h.dirtyInVram
  queue := h.queue
  cursor := h.cursor
  edwint := h.edwint
  refusedNoted := h.refusedNoted

theorem State.Inv.rejectCmd {s : State} (h : s.Inv) (r : DecodeReject) : (s.rejectCmd r).Inv := by
  cases r with
  | badCommand =>
    exact { h with refusedNoted := (State.mayRefuse_rejectCmd s .badCommand).noted h.refusedNoted }
  | noSuchRegister => exact h

/-- Every command keeps the invariant. -/
theorem Runs.inv {i : Instr} {s t : State} (h : Runs i s t) (hs : s.Inv) : t.Inv where
  vramWf := (h.lm_ok hs.lm_ok).vramWf
  dirtyRising := (h.lm_ok hs.lm_ok).dirtyRising
  dirtyInVram := (h.lm_ok hs.lm_ok).dirtyInVram
  queue := h.queue_lt hs.queue
  cursor := h.cursor_ok hs.cursor
  edwint := by
    rw [h.csr_eq, Bool.eq_false_iff]
    intro he
    exact absurd (edwint_of_csrAfter he) (by simp [hs.edwint])
  refusedNoted := h.mayRefuse.noted hs.refusedNoted

/-- Settles O29: each field of the invariant is kept by every command, by the cases of `Runs`. -/
theorem stepKeepsInvariant : Obligations.StepKeepsInvariant := by
  intro s t hs h
  rcases step_cases h with ⟨-, rfl⟩ | ⟨w, rest, i, -, -, hr⟩ | ⟨w, rest, r, -, -, rfl⟩
  · exact hs
  · exact hr.inv (hs.takeCmd rest)
  · exact (hs.takeCmd rest).rejectCmd r

theorem State.Inv.powerOn (cfg : Config) {m : Memory} (h : m.wf = true) : (State.powerOn cfg m).Inv where
  vramWf := h
  dirtyRising := List.Pairwise.nil
  dirtyInVram := nofun
  queue := PrimType.count_pos _
  cursor := nofun
  edwint := rfl
  refusedNoted := rfl

/-- Settles O28: the reset state is the power-on state of the standard parameters with VRAM unlisted. -/
theorem invariantAfterPowerOn : Obligations.InvariantAfterPowerOn :=
  ⟨State.Inv.powerOn _ Memory.wf_reset, fun cfg _ h => State.Inv.powerOn cfg h⟩

/-! ## Reads -/

/-- A table lookup finds every register under its own address (R32). -/
theorem generalReg?_of_mem {addr : BitVec 32} {r : RegName} (h : (addr, r) ∈ generalTable) :
    generalReg? addr = some r := by
  have all : ∀ e ∈ generalTable, generalReg? e.1 = some e.2 := by decide
  exact all _ h

/-- Every word of KIND 0 is a write of a register in the bank, named by its address (R182, R32). -/
theorem bankWrite?_of_general {i : Instr} (h : cmdKind (encode i) = 0#4) :
    ∃ r a d, bankWrite? i = some (r, d) ∧ encode i = cmdWord 0#4 a d ∧ generalReg? a = some r := by
  cases i with
  | rGeneral | pwPmode | pwSmode1 | pwSmode2 | pwSrfsh | pwSynch1 | pwSynch2 | pwSyncv | pwDispfb1 | pwDisplay1
  | pwDispfb2 | pwDisplay2 | pwExtbuf | pwExtdata | pwExtwrite | pwBgcolor | pwCsr | pwImr | pwBusdir | pwSiglblid
  | rPriv | tr | evVblankIn | evVblankOut | evHblank =>
    simp [encode, Laws.DecodeEncode.fields] at h
  | _ => exact ⟨_, _, _, rfl, rfl, rfl⟩

/-- Settles O7: a general write leaves its DATA in its register, whatever else it does, and a read returns it. -/
theorem generalReadBack : Obligations.GeneralReadBack := by
  refine ⟨fun addr r s h => exec_rGeneral s (generalReg?_of_mem h), fun i s h => ?_⟩
  obtain ⟨r, a, d, hb, he, ha⟩ := bankWrite?_of_general h
  obtain ⟨-, -, haddr, hdata⟩ := Laws.DecodeEncode.fields 0#4 a d
  obtain ⟨t, ht, hr⟩ := exec_runs i s
  refine ⟨t, ht, ?_⟩
  rw [he, haddr, hdata, exec_rGeneral t ha, hr.reg_of_bankWrite hb]
  rfl

/-- Every bit of CSR as it reads (R68). -/
theorem getLsbD_csrValue (c : Csr) (cfg : Config) (i : Nat) (hi : i < 64) :
    (csrValue c cfg).getLsbD i =
      (decide (i = 0) && c.signal || decide (i = 1) && c.finish || decide (i = 2) && c.hsint ||
        decide (i = 3) && c.vsint || decide (i = 4) && c.edwint || decide (i = 13) && c.field || decide (i = 14) ||
        !decide (i < 16) && cfg.csrRev.getLsbD (i - 16) || !decide (i < 24) && cfg.csrId.getLsbD (i - 24)) := by
  have h1 : i - 16 < 64 := by omega
  have h2 : i - 24 < 64 := by omega
  simp only [csrValue, BitVec.getLsbD_or, getLsbD_flagBit, BitVec.getLsbD_shiftLeft, BitVec.getLsbD_setWidth, hi, h1, h2,
    decide_true, Bool.true_and, Bool.and_true]

/-- Above FIFO only REV and ID are left. -/
theorem getLsbD_csrValue_high (c : Csr) (cfg : Config) {i : Nat} (hi : i < 64) (h : 15 ≤ i) :
    (csrValue c cfg).getLsbD i =
      (!decide (i < 16) && cfg.csrRev.getLsbD (i - 16) || !decide (i < 24) && cfg.csrId.getLsbD (i - 24)) := by
  have hne : ∀ k ≤ 14, i ≠ k := by omega
  simp [getLsbD_csrValue c cfg i hi, hne]

/-- Settles O9: bit by bit from the value of CSR. -/
theorem csrRead : Obligations.CsrRead := by
  intro s
  have bits := getLsbD_csrValue s.csr s.cfg
  refine ⟨csrValue s.csr s.cfg, exec_rPriv_csr s, ?_, ?_, ?_, ?_, ?_, ?_, ?_, ?_, ?_, ?_, ?_⟩
  case refine_6 | refine_8 =>
    apply BitVec.eq_of_getLsbD_eq
    intro i hi
    rw [BitVec.getLsbD_extractLsb', bits _ (by omega)]
    interval_cases i <;> simp
  case refine_9 =>
    apply BitVec.eq_of_getLsbD_eq
    intro i hi
    rw [BitVec.getLsbD_extractLsb', getLsbD_csrValue_high _ _ (by omega) (by omega)]
    simp [hi, show 16 + i < 24 by omega]
  case refine_10 =>
    apply BitVec.eq_of_getLsbD_eq
    intro i hi
    rw [BitVec.getLsbD_extractLsb', getLsbD_csrValue_high _ _ (by omega) (by omega),
      BitVec.getLsbD_of_ge s.cfg.csrRev _ (by omega)]
    simp [hi]
  case refine_11 =>
    apply BitVec.eq_of_getLsbD_eq
    intro i hi
    rw [BitVec.getLsbD_extractLsb', getLsbD_csrValue_high _ _ (by omega) (by omega),
      BitVec.getLsbD_of_ge s.cfg.csrRev _ (by omega), BitVec.getLsbD_of_ge s.cfg.csrId _ (by omega)]
    simp
  all_goals
    rw [bits _ (by decide)]
    simp

/-! ## What changes only by its source -/

/-- Settles O25: by the cases of CSR after a command. -/
theorem statusBitsChangeOnlyBySource : Obligations.StatusBitsChangeOnlyBySource := by
  intro i s t h
  rw [(Runs.of_exec h).csr_eq]
  rcases csrAfter_cases i s.csr with
    ⟨e, hi⟩ | ⟨d, rfl, e⟩ | ⟨d, rfl, e⟩ | ⟨rfl, e⟩ | ⟨rfl, e⟩ | ⟨d, rfl, hd, e⟩ | ⟨d, rfl, e⟩ <;> rw [e]
  · simp +contextual
  · simp +contextual [csrSet]
  · simp +contextual [csrSet]
  · simp +contextual [csrSet]
  · simp +contextual [csrSet]
  · simp +contextual [Csr.reset, show d.getLsbD 9 = true from hd]
  · simp +contextual [csrClear]

/-- Settles O26: a command or a rejected word only adds to what has left the block, and keeps the mark. -/
theorem refusalSticksAndOutputsGrow : Obligations.RefusalSticksAndOutputsGrow := by
  intro s t h
  rcases step_cases h with ⟨-, rfl⟩ | ⟨w, rest, i, -, -, hr⟩ | ⟨w, rest, r, -, -, rfl⟩
  · exact ⟨id, List.prefix_refl _, List.prefix_refl _, rfl⟩
  · exact ⟨hr.mayRefuse.refused, hr.out_prefix, hr.replies_prefix, hr.cfg_eq⟩
  · exact ⟨fun hs => (State.mayRefuse_rejectCmd _ r).refused hs, by simp, by simp, by simp⟩

end Sys2Proof.Machine

/-! # A step by its next command -/

namespace Sys2Proof.Machine

theorem step_of_noCmd {s : State} (h : s.cmds = []) : step s = .next s := by
  simp only [step, State.nextCmd, h]

theorem step_of_decode {s : State} {w : CmdWord} {rest : List CmdWord} {i : Instr} (h : s.cmds = w :: rest)
    (hd : decode w = .ok i) : step s = exec i { s with cmds := rest } := by
  simp only [step, State.nextCmd, h, hd]

theorem step_of_reject {s : State} {w : CmdWord} {rest : List CmdWord} {r : DecodeReject} (h : s.cmds = w :: rest)
    (hd : decode w = .error r) : step s = .next (({ s with cmds := rest } : State).rejectCmd r) := by
  simp only [step, State.nextCmd, h, hd]

/-- What the opcode table reads from a word is what the decoder reads from the command word it stands for. -/
theorem decode_tableWord {nbits w : Nat} {i : Instr} (h : decodeTableWord nbits w = some i) :
    decode (tableWord nbits w) = .ok i := by
  unfold decodeTableWord at h
  split at h
  · next hd => rw [hd, Option.some.inj h]
  · cases h

/-- Settles O1: the three ways the queue of commands can stand (R150, R561). -/
theorem stepRunsDecodedCommand : Obligations.StepRunsDecodedCommand :=
  ⟨fun _ _ _ _ h hd => step_of_decode h hd,
    fun s nbits w _ h => step_of_decode (State.withFetchWord_cmds s nbits w) (decode_tableWord h),
    fun _ h => step_of_noCmd h⟩

/-- `Runs` lists nothing but what commands do: the converse of `Runs.of_exec`. -/
theorem Runs.exec_eq {i : Instr} {s t : State} (h : Runs i s t) : exec i s = .next t := by
  cases h with
  | store hb ho =>
    cases i with
    | wPrim | wXyzf2 | wXyz2 | wXyzf3 | wXyz3 | wTex2_1 | wTex2_2 | wTexflush | wTrxdir | wHwreg | wSignal | wFinish
    | wLabel => cases ho
    | _ => cases hb <;> rfl
  | kick hb hk =>
    cases i with
    | wXyzf2 | wXyz2 | wXyzf3 | wXyz3 => cases hb; cases hk; rfl
    | _ => cases hk
  | readGeneral h => exact exec_rGeneral s h
  | readGeneralAny h => exact exec_rGeneral_any s h
  | readPriv h => exact exec_rPriv s h
  | readPrivAny hc hs h => exact exec_rPriv_any s hc hs h
  | _ => rfl

end Sys2Proof.Machine

/-! # The dirty set has no effect when `strictTexflush` is false

Two local memories, and two states, that differ in the dirty set alone are `SameButDirty`. Each operation of drawing and of
the transfers keeps that relation, because what it reads is VRAM and the counter of free values. -/

namespace Sys2Proof.Machine

/-! ## The relation -/

/-- The local memory with its dirty set replaced. -/
def LocalMem.withDirty (lm : LocalMem) (D : List Nat) : LocalMem := { lm with dirty := D }

/-- The state with its dirty set replaced. -/
def State.withDirty (s : State) (D : List Nat) : State := { s with lm := s.lm.withDirty D }

@[simp] theorem LocalMem.withDirty_vram (lm : LocalMem) (D : List Nat) : (lm.withDirty D).vram = lm.vram := rfl

@[simp] theorem LocalMem.withDirty_free (lm : LocalMem) (D : List Nat) : (lm.withDirty D).free = lm.free := rfl

@[simp] theorem State.withDirty_lm (s : State) (D : List Nat) : (s.withDirty D).lm = s.lm.withDirty D := rfl

@[simp] theorem State.withDirty_xfer (s : State) (D : List Nat) : (s.withDirty D).xfer = s.xfer := rfl

/-- The second local memory differs from the first in the dirty set alone. -/
def LocalMem.SameButDirty (lm lm' : LocalMem) : Prop := ∃ D, lm' = lm.withDirty D

/-- The second state differs from the first in the dirty set alone. -/
def State.SameButDirty (s s' : State) : Prop := ∃ D, s' = s.withDirty D

theorem LocalMem.sameButDirty_withDirty (lm : LocalMem) (D : List Nat) : lm.SameButDirty (lm.withDirty D) := ⟨D, rfl⟩

theorem LocalMem.SameButDirty.writePixel {lm lm' : LocalMem} (h : lm.SameButDirty lm') (p : Psm) (bp bw x y : Nat)
    (v : VWord) : (lm.writePixel p bp bw x y v).SameButDirty (lm'.writePixel p bp bw x y v) := by
  obtain ⟨D, rfl⟩ := h
  exact ⟨_, rfl⟩

/-! ## Texture reads -/

/-- With `strictTexflush` false a texture read is a read of VRAM (R575). -/
theorem readTexRaw_eq_readRaw {e : Env} (he : e.cfg.strictTexflush = false) (lm : LocalMem) (p : Psm)
    (bp bw x y key : Nat) : readTexRaw e lm p bp bw x y key = lm.vram.readRaw p bp bw x y := by
  simp [readTexRaw, he]

theorem clutEntry_withDirty {e : Env} (he : e.cfg.strictTexflush = false) (lm : LocalMem) (D : List Nat)
    (i key : Nat) : clutEntry e (lm.withDirty D) i key = clutEntry e lm i key := by
  simp only [clutEntry, readTexRaw_eq_readRaw he, LocalMem.withDirty_vram]

theorem texelAt_withDirty {e : Env} (he : e.cfg.strictTexflush = false) (lm : LocalMem) (D : List Nat)
    (i j key : Nat) : texelAt e (lm.withDirty D) i j key = texelAt e lm i j key := by
  simp only [texelAt, readTexRaw_eq_readRaw he, clutEntry_withDirty he, LocalMem.withDirty_vram]

theorem sampleTex_withDirty {e : Env} (he : e.cfg.strictTexflush = false) (lm : LocalMem) (D : List Nat)
    (tc : TexCoord) : sampleTex e (lm.withDirty D) tc = sampleTex e lm tc := by
  simp only [sampleTex, sampleBilinear, sampleNearest, texelAt_withDirty he, LocalMem.withDirty_free]

theorem sourceColour_withDirty {e : Env} (he : e.cfg.strictTexflush = false) (lm : LocalMem) (D : List Nat)
    (fr : Frag) : sourceColour e (lm.withDirty D) fr = sourceColour e lm fr := by
  simp only [sourceColour, sampleTex_withDirty he]

/-! ## Drawing -/

theorem LocalMem.SameButDirty.writeFragment {lm lm' : LocalMem} (h : lm.SameButDirty lm') (e : Env) (x y zf : Nat)
    (c : Colour) (o : WriteKind) :
    (writeFragment e lm x y zf c o).SameButDirty (writeFragment e lm' x y zf c o) := by
  have frame : (if o = .zbOnly then lm else writeFrame e lm x y c o).SameButDirty
      (if o = .zbOnly then lm' else writeFrame e lm' x y c o) := by
    split
    · exact h
    · obtain ⟨D, rfl⟩ := h
      exact ⟨_, rfl⟩
  unfold Machine.writeFragment
  dsimp only
  split
  · exact frame.writePixel _ _ _ _ _ _
  · exact frame

theorem LocalMem.SameButDirty.testAndWrite {lm lm' : LocalMem} (h : lm.SameButDirty lm') (e : Env) (x y z : Nat)
    (s : Colour) : (testAndWrite e lm x y z s).SameButDirty (testAndWrite e lm' x y z s) := by
  obtain ⟨D, rfl⟩ := h
  have kind : testedKind e (lm.withDirty D) x y z s.a = testedKind e lm x y z s.a := rfl
  have raw : frameRaw e (lm.withDirty D) x y = frameRaw e lm x y := rfl
  unfold Machine.testAndWrite
  rw [kind, raw]
  split
  · exact lm.sameButDirty_withDirty D
  · exact (lm.sameButDirty_withDirty D).writeFragment _ _ _ _ _ _

theorem LocalMem.SameButDirty.processFragment {e : Env} (he : e.cfg.strictTexflush = false) {lm lm' : LocalMem}
    (h : lm.SameButDirty lm') (fr : Frag) : (processFragment e lm fr).SameButDirty (processFragment e lm' fr) := by
  obtain ⟨D, rfl⟩ := h
  unfold Machine.processFragment
  rw [sourceColour_withDirty he]
  split
  · apply LocalMem.SameButDirty.testAndWrite
    split
    · exact lm.useFree.sameButDirty_withDirty D
    · exact lm.sameButDirty_withDirty D
  · exact lm.sameButDirty_withDirty D

theorem LocalMem.SameButDirty.drawFrags {e : Env} (he : e.cfg.strictTexflush = false) {lm lm' : LocalMem}
    (h : lm.SameButDirty lm') (frs : List Frag) : (drawFrags e lm frs).SameButDirty (drawFrags e lm' frs) :=
  List.foldl_rel h (fun fr _ _ _ h => h.processFragment he fr)

/-- A kick looks at the local memory only to draw. -/
theorem State.kick_withDirty {s : State} (hs : s.cfg.strictTexflush = false) (p : KickFields) (discard : Bool)
    (D : List Nat) : (s.kick p discard).SameButDirty ((s.withDirty D).kick p discard) := by
  rcases State.kick_cases s p discard with ⟨hk, e⟩ | ⟨hk, ⟨rfl, e⟩ | ⟨r, rfl, hr, e⟩ | ⟨rfl, hr, e⟩⟩ <;> rw [e]
  · exact ⟨D, State.kick_incomplete _ p discard hk⟩
  · exact ⟨D, State.kick_discarded _ p hk⟩
  · exact ⟨D, State.kick_refused _ p hk hr⟩
  · obtain ⟨D', hD⟩ := (s.lm.sameButDirty_withDirty D).drawFrags (e := s.env) hs
      (primFrags s.env s.regs.primType (s.queued p).slot)
    refine ⟨D', (State.kick_drawn (s.withDirty D) p hk hr).trans ?_⟩
    exact congrArg (fun lm => { s with vq := (s.queued p).rotate s.regs.primType, lm := lm }) hD

/-! ## Transfers -/

theorem LocalMem.SameButDirty.copyLocal {lm lm' : LocalMem} (h : lm.SameButDirty lm') (sp dp : Psm) (b p g : Word) :
    (copyLocal sp dp b p g lm).SameButDirty (copyLocal sp dp b p g lm') :=
  List.foldl_rel h (by rintro xy - lm - ⟨D, rfl⟩; exact ⟨_, rfl⟩)

/-- A data word moves the cursor in the same way, whatever the dirty set is. -/
theorem putData_withDirty (p : Psm) (lm : LocalMem) (D : List Nat) (x : TransferCursor) (d : Word) :
    (putData p lm x d).1.SameButDirty (putData p (lm.withDirty D) x d).1 ∧
      (putData p (lm.withDirty D) x d).2 = (putData p lm x d).2 := by
  refine List.foldl_rel (r := fun (st st' : LocalMem × TransferCursor) => st.1.SameButDirty st'.1 ∧ st'.2 = st.2)
    ⟨lm.sameButDirty_withDirty D, rfl⟩ ?_
  rintro v - ⟨lm, x⟩ ⟨lm', x'⟩ ⟨h, hx⟩
  cases hx
  dsimp only [putPixel]
  split
  · exact ⟨h, rfl⟩
  · exact ⟨h.writePixel _ _ _ _ _ _, rfl⟩

theorem State.transferWrite_withDirty (s : State) (d : Word) (D : List Nat) :
    (s.transferWrite d).SameButDirty ((s.withDirty D).transferWrite d) := by
  unfold State.transferWrite
  rw [State.withDirty_xfer]
  split
  · exact ⟨D, rfl⟩
  · next x _ =>
    split
    · obtain ⟨⟨D', hD⟩, hx⟩ := putData_withDirty ((Psm.ofCode x.dpsm).getD .ct32) s.lm D x d
      rw [State.withDirty_lm]
      dsimp only
      rw [hD, hx]
      exact ⟨D', rfl⟩
    · exact ⟨D, rfl⟩

/-- A transfer read reads VRAM and the counter of free values. -/
theorem State.transferRead_withDirty (s : State) (D : List Nat) :
    (s.withDirty D).transferRead = s.transferRead.withDirty D := by
  unfold State.transferRead
  rw [State.withDirty_xfer]
  split
  · rfl
  · split <;> rfl

theorem State.startCursor_withDirty (s : State) (code : Nat) (x : TransferCursor) (D : List Nat) :
    (s.withDirty D).startCursor code x = (s.startCursor code x).withDirty D := by
  unfold State.startCursor
  split
  · rfl
  · split <;> rfl

theorem State.startCopy_withDirty (s : State) (b p g : Word) (D : List Nat) :
    (s.startCopy b p g).SameButDirty ((s.withDirty D).startCopy b p g) := by
  unfold State.startCopy
  split
  · next sp dp _ _ =>
    split
    · exact ⟨D, rfl⟩
    · obtain ⟨D', hD⟩ := (s.lm.sameButDirty_withDirty D).copyLocal sp dp b p g
      exact ⟨D', congrArg (fun lm => { s with lm := lm }) hD⟩
  · exact ⟨D, rfl⟩

/-- The direction decides: a cursor is latched from the registers, a copy works on VRAM. -/
theorem State.startTransfer_withDirty (s : State) (xdir : Nat) (D : List Nat) :
    (s.startTransfer xdir).SameButDirty ((s.withDirty D).startTransfer xdir) := by
  unfold State.startTransfer
  dsimp only
  split
  · exact ⟨D, State.startCursor_withDirty (s.setXfer none) _ _ D⟩
  · exact ⟨D, State.startCursor_withDirty (s.setXfer none) _ _ D⟩
  · exact State.startCopy_withDirty _ _ _ _ D
  · exact ⟨D, rfl⟩

/-! ## Every command -/

theorem State.raise_withDirty (s : State) (src : IrqSource) (D : List Nat) :
    (s.withDirty D).raise src = (s.raise src).withDirty D := by
  rw [State.raise_eq, State.raise_eq]
  rfl

theorem State.rejectCmd_withDirty (s : State) (r : DecodeReject) (D : List Nat) :
    (s.withDirty D).rejectCmd r = (s.rejectCmd r).withDirty D := by
  cases r <;> rfl

/-- With `strictTexflush` false a command runs in the same way, whatever the dirty set is. -/
theorem Runs.withDirty {i : Instr} {s t : State} (h : Runs i s t) (hs : s.cfg.strictTexflush = false) (D : List Nat) :
    ∃ t', t.SameButDirty t' ∧ Runs i (s.withDirty D) t' := by
  cases h with
  | store hb ho => exact ⟨_, ⟨D, rfl⟩, .store hb ho⟩
  | prim d => exact ⟨_, ⟨D, rfl⟩, .prim d⟩
  | kick hb hk => exact ⟨_, State.kick_withDirty (s := s.setReg _ _) hs _ _ D, .kick hb hk⟩
  | tex2_1 d => exact ⟨_, ⟨D, rfl⟩, .tex2_1 d⟩
  | tex2_2 d => exact ⟨_, ⟨D, rfl⟩, .tex2_2 d⟩
  | texflush d => exact ⟨_, ⟨[], rfl⟩, .texflush d⟩
  | trxdir d => exact ⟨_, State.startTransfer_withDirty _ _ D, .trxdir d⟩
  | hwreg d => exact ⟨_, State.transferWrite_withDirty _ _ D, .hwreg d⟩
  | signal d => exact ⟨_, ⟨D, State.raise_withDirty _ _ D⟩, .signal d⟩
  | finish d => exact ⟨_, ⟨D, State.raise_withDirty _ _ D⟩, .finish d⟩
  | label d => exact ⟨_, ⟨D, rfl⟩, .label d⟩
  | readGeneral h => exact ⟨_, ⟨D, rfl⟩, .readGeneral h⟩
  | readGeneralAny h => exact ⟨_, ⟨D, rfl⟩, .readGeneralAny h⟩
  | csr d =>
    refine ⟨_, ?_, .csr d⟩
    split
    · exact ⟨[], rfl⟩
    · exact ⟨D, rfl⟩
  | siglblid d => exact ⟨_, ⟨D, rfl⟩, .siglblid d⟩
  | readCsr => exact ⟨_, ⟨D, rfl⟩, .readCsr⟩
  | readSiglblid => exact ⟨_, ⟨D, rfl⟩, .readSiglblid⟩
  | readPriv h => exact ⟨_, ⟨D, rfl⟩, .readPriv h⟩
  | readPrivAny hc ha h => exact ⟨_, ⟨D, rfl⟩, .readPrivAny hc ha h⟩
  | tr => exact ⟨_, ⟨D, State.transferRead_withDirty s D⟩, .tr⟩
  | vblankIn => exact ⟨_, ⟨D, State.raise_withDirty _ _ D⟩, .vblankIn⟩
  | vblankOut => exact ⟨_, ⟨D, rfl⟩, .vblankOut⟩
  | hblank => exact ⟨_, ⟨D, State.raise_withDirty _ _ D⟩, .hblank⟩

/-- With `strictTexflush` false a step goes in the same way, whatever the dirty set is. -/
theorem step_withDirty {s t : State} (hs : s.cfg.strictTexflush = false) (h : step s = .next t) (D : List Nat) :
    ∃ t', t.SameButDirty t' ∧ step (s.withDirty D) = .next t' := by
  rcases step_cases h with ⟨hc, rfl⟩ | ⟨w, rest, i, hc, hd, hr⟩ | ⟨w, rest, r, hc, hd, rfl⟩
  · exact ⟨_, ⟨D, rfl⟩, step_of_noCmd hc⟩
  · obtain ⟨t', ht, hr'⟩ := hr.withDirty hs D
    exact ⟨t', ht, (step_of_decode (s := s.withDirty D) hc hd).trans hr'.exec_eq⟩
  · exact ⟨_, ⟨D, State.rejectCmd_withDirty _ r D⟩, step_of_reject hc hd⟩

/-- Settles O30: a step keeps the relation `SameButDirty`, and states so related agree once their dirty sets are emptied. -/
theorem dirtySetHasNoEffect : Obligations.DirtySetHasNoEffect := by
  intro s t D hs h
  obtain ⟨_, ⟨D', rfl⟩, ht⟩ := step_withDirty hs h D
  exact ⟨t.withDirty D', ht, rfl⟩

end Sys2Proof.Machine

/-! # What changes VRAM -/

namespace Sys2Proof.Machine

/-- The kicks that do not discard are XYZF2 and XYZ2 (R226, R227). -/
theorem drawing_of_kickOf? {i : Instr} {regs : Regs} {p : KickFields} (h : kickOf? regs i = some (p, false)) :
    ∃ d, i = .wXyz2 d ∨ i = .wXyzf2 d := by
  cases i with
  | wXyz2 d => exact ⟨d, .inl rfl⟩
  | wXyzf2 d => exact ⟨d, .inr rfl⟩
  | _ => cases h

/-- A kick changes VRAM only when it draws a primitive: it completes one, does not discard it and is not refused. -/
theorem State.kick_of_vram_ne {s : State} {p : KickFields} {discard : Bool}
    (h : (s.kick p discard).lm.vram ≠ s.lm.vram) :
    discard = false ∧ s.vq.k + 1 = s.regs.primType.count ∧ (s.kick p discard).refused = s.refused ∧
      (s.kick p discard).reasons = s.reasons := by
  rcases State.kick_cases s p discard with ⟨-, e⟩ | ⟨hk, ⟨-, e⟩ | ⟨r, -, -, e⟩ | ⟨hd, -, e⟩⟩ <;> rw [e] at h ⊢
  · exact absurd rfl h
  · exact absurd rfl h
  · exact absurd rfl h
  · exact ⟨hd, hk, rfl, rfl⟩

/-- Starting a transfer changes VRAM only when it is a local copy. -/
theorem State.startTransfer_of_vram_ne {s : State} {xdir : Nat}
    (h : (s.startTransfer xdir).lm.vram ≠ s.lm.vram) : xdir = 2 := by
  rcases State.startTransfer_cases s xdir with e | ⟨r, e⟩ | ⟨x, -, e⟩ | ⟨sp, dp, hx, -⟩
  · exact absurd (by rw [e]) h
  · exact absurd (by rw [e]) h
  · exact absurd (by rw [e]) h
  · exact hx

/-- A data word changes VRAM only when an upload is active. -/
theorem State.transferWrite_of_vram_ne {s : State} {d : Word} (h : (s.transferWrite d).lm.vram ≠ s.lm.vram) :
    ∃ x, s.xfer = some x ∧ x.dir = .hostToLocal := by
  rcases State.transferWrite_cases s d with ⟨-, e⟩ | ⟨x, hx, hd, -⟩
  · exact absurd (by rw [e]) h
  · exact ⟨x, hx, hd⟩

/-- Settles O27: by the cases of `Runs`, of which only the kicks, TRXDIR and HWREG reach VRAM. -/
theorem vramChangesOnlyByDrawingAndTransfers : Obligations.VramChangesOnlyByDrawingAndTransfers := by
  intro i s t h hv
  cases Runs.of_exec h with
  | @kick _ _ r d p discard hb hk =>
    obtain ⟨rfl, hq, hr, hn⟩ := State.kick_of_vram_ne (s := s.setReg r d) hv
    rw [State.setReg_regs, Regs.primType_write_ne _ _ (ne_prim_of_kick hb hk)] at hq
    exact .inl ⟨drawing_of_kickOf? hk, hq, hr, hn⟩
  | trxdir d =>
    have hx : dirXdir d = 2 := State.startTransfer_of_vram_ne (s := s.setReg .trxdir d) hv
    exact .inr (.inl ⟨d, rfl, BitVec.eq_of_toNat_eq hx⟩)
  | hwreg d =>
    obtain ⟨x, hx, hd⟩ := State.transferWrite_of_vram_ne (s := s.setReg .hwreg d) hv
    exact .inr (.inr ⟨d, x, rfl, hx, hd⟩)
  | signal | finish | vblankIn | hblank => exact absurd (congrArg LocalMem.vram (State.raise_lm _ _)) hv
  | csr => exact absurd (by split <;> rfl) hv
  | tr =>
    obtain ⟨v, e⟩ := s.transferRead_frame
    exact absurd (by rw [e]) hv
  | _ => exact absurd rfl hv

end Sys2Proof.Machine

/-! # Pixels and the swizzle -/

namespace Sys2Proof.Machine

/-! ## Pixel access -/

/-- Settles O31: from what a pixel's word is after the write, bit by bit. -/
theorem pixelWriteReplacesItsBits : Obligations.PixelWriteReplacesItsBits := by
  intro m p bp bw x y v
  refine ⟨p.wordAt_lt bp bw x y, p.bitAt_add_bits_le bp bw x y, fun i hi => ?_, Memory.readRaw_toNat_lt _ _ _ _ _ _,
    fun i hi => ?_, fun a ha => Memory.readByte_writeRaw_ne m v ha⟩
  · have : i < 32 := hi.trans_le p.bits_le
    simp [Memory.readRaw_writeRaw_same, hi, this]
  · have := p.bitAt_add_bits_le bp bw x y
    rw [Memory.getLsbD_readWord_writeRaw_same _ _ _ _ _ _ _ (by omega), if_neg (by omega)]

/-- A format whose elements are words has its pixels at one place in every word (R104, R122). -/
theorem Psm.bitAt_of_elem_word {p : Psm} (h : p.elem = 32) (bp bw x y : Nat) : p.bitAt bp bw x y = p.low := by
  simp [Psm.bitAt, elemShift, h, Nat.mod_one]

/-- Settles O32: a 24-bit pixel is at bit 0 of its word, so its bits are [23:0] and the write keeps the others. -/
theorem accessOf24Bits : Obligations.AccessOf24Bits := by
  intro m p bp bw x y v hp
  obtain ⟨he, hl, hb⟩ : p.elem = 32 ∧ p.low = 0 ∧ p.bits = 24 := by rcases hp with rfl | rfl <;> decide
  have hbit : p.bitAt bp bw x y = 0 := (Psm.bitAt_of_elem_word he bp bw x y).trans hl
  constructor
  · apply BitVec.eq_of_getLsbD_eq
    intro i hi
    rw [Memory.getLsbD_readRaw, hbit, hb]
    simp [hi]
  · apply BitVec.eq_of_getLsbD_eq
    intro i hi
    rw [Memory.getLsbD_readWord_writeRaw_same _ _ _ _ _ _ _ hi, hbit, hb]
    show _ = (_ ++ _ : BitVec (8 + 24)).getLsbD i
    rw [BitVec.getLsbD_append]
    by_cases h : i < 24
    · simp [h]
    · simp [h, show i - 24 < 8 by omega, show 24 + (i - 24) = i by omega]

/-! ## Maps of a rectangle onto a range -/

/-- `f` takes each number below `n` at exactly one pixel of a rectangle of width `w` and height `h`, and only those. The
row is the first argument, as in the tables of R113 and R114. -/
structure FillsRange (w h n : Nat) (f : Nat → Nat → Nat) : Prop where
  lt : ∀ x y, x < w → y < h → f y x < n
  existsUnique : ∀ a, a < n → ∃ x y, (x < w ∧ y < h ∧ f y x = a) ∧
    ∀ x' y', x' < w → y' < h → f y' x' = a → x' = x ∧ y' = y

/-- A map with an inverse `g`, which gives the pixel (x, y) of a number. -/
theorem FillsRange.of_inverse {w h n : Nat} {f : Nat → Nat → Nat} (g : Nat → Nat × Nat)
    (left : ∀ x < w, ∀ y < h, f y x < n ∧ g (f y x) = (x, y))
    (right : ∀ a < n, (g a).1 < w ∧ (g a).2 < h ∧ f (g a).2 (g a).1 = a) : FillsRange w h n f where
  lt x y hx hy := (left x hx y hy).1
  existsUnique a ha := by
    refine ⟨(g a).1, (g a).2, right a ha, fun x y hx hy e => ?_⟩
    obtain ⟨-, hg⟩ := left x hx y hy
    rw [← e, hg]
    exact ⟨rfl, rfl⟩

/-- The two digits of a number to base `n`. -/
theorem mul_add_eq_iff {a b c n : Nat} (hc : c < n) : b * n + c = a ↔ a / n = b ∧ a % n = c := by
  rw [Nat.div_mod_unique (Nat.zero_lt_of_lt hc), Nat.mul_comm n b, Nat.add_comm c, and_iff_left hc]

theorem mul_add_lt_mul {b c m n : Nat} (hb : b < m) (hc : c < n) : b * n + c < m * n := by
  rw [← Nat.div_lt_iff_lt_mul (Nat.zero_lt_of_lt hc), ((mul_add_eq_iff hc).1 rfl).1]
  exact hb

/-- A rectangle of tiles: the tile is the higher digit of the number, the place in the tile the lower one. -/
theorem FillsRange.tiled {W H N w h n : Nat} {F f : Nat → Nat → Nat} (tiles : FillsRange W H N F)
    (tile : FillsRange w h n f) :
    FillsRange (W * w) (H * h) (N * n) (fun y x => F (y / h) (x / w) * n + f (y % h) (x % w)) := by
  have tile_lt : ∀ {x y}, x < W * w → y < H * h → f (y % h) (x % w) < n := fun hx hy =>
    tile.lt _ _ (Nat.mod_lt _ (Nat.pos_of_lt_mul_left hx)) (Nat.mod_lt _ (Nat.pos_of_lt_mul_left hy))
  have tile_of : ∀ {a b c}, a < b * c → a / c < b := fun h => Nat.div_lt_of_lt_mul (Nat.mul_comm _ _ ▸ h)
  refine ⟨fun x y hx hy => mul_add_lt_mul (tiles.lt _ _ (tile_of hx) (tile_of hy)) (tile_lt hx hy), fun a ha => ?_⟩
  obtain ⟨X, Y, ⟨hX, hY, eF⟩, uF⟩ := tiles.existsUnique (a / n) (tile_of ha)
  obtain ⟨x, y, ⟨hx, hy, ef⟩, uf⟩ := tile.existsUnique (a % n) (Nat.mod_lt _ (Nat.pos_of_lt_mul_left ha))
  refine ⟨X * w + x, Y * h + y, ⟨mul_add_lt_mul hX hx, mul_add_lt_mul hY hy, ?_⟩, fun x' y' hx' hy' e => ?_⟩
  · obtain ⟨hXd, hxm⟩ := (mul_add_eq_iff (b := X) hx).1 rfl
    obtain ⟨hYd, hym⟩ := (mul_add_eq_iff (b := Y) hy).1 rfl
    rw [hXd, hxm, hYd, hym, eF, ef, Nat.div_add_mod']
  · obtain ⟨eF', ef'⟩ := (mul_add_eq_iff (tile_lt hx' hy')).1 e
    obtain ⟨hXd, hYd⟩ := uF _ _ (tile_of hx') (tile_of hy') eF'.symm
    obtain ⟨hxm, hym⟩ := uf _ _ (Nat.mod_lt _ (Nat.zero_lt_of_lt hx)) (Nat.mod_lt _ (Nat.zero_lt_of_lt hy)) ef'.symm
    exact ⟨((mul_add_eq_iff hx).2 ⟨hXd, hxm⟩).symm, ((mul_add_eq_iff hy).2 ⟨hYd, hym⟩).symm⟩

/-! ## The tables of a format -/

/-- The block column and row of a block number in the order of BT32 (R113). -/
def blockPlace32 (b : Nat) : Nat × Nat :=
  (coordBit b 0 + 2 * coordBit b 2 + 4 * coordBit b 4, coordBit b 1 + 2 * coordBit b 3)

/-- The block column and row of a block number in the order of BT16 (R113). -/
def blockPlace16 (b : Nat) : Nat × Nat :=
  (coordBit b 1 + 2 * coordBit b 3, coordBit b 0 + 2 * coordBit b 2 + 4 * coordBit b 4)

/-- The block column and row of a block number in the order of BT16S (R113). -/
def blockPlace16S (b : Nat) : Nat × Nat :=
  (coordBit b 1 + 2 * coordBit b 4, coordBit b 0 + 2 * coordBit b 3 + 4 * coordBit b 2)

/-- The block column and row of a block number: the inverse of `Psm.block`. -/
def Psm.blockPlace (p : Psm) (b : Nat) : Nat × Nat :=
  match p with
  | .ct32 | .ct24 | .t8h | .t4hl | .t4hh | .t8 => blockPlace32 b
  | .z32 | .z24 => blockPlace32 (b ^^^ 0x18)
  | .ct16 | .t4 => blockPlace16 b
  | .ct16s => blockPlace16S b
  | .z16 => blockPlace16 (b ^^^ 0x18)
  | .z16s => blockPlace16S (b ^^^ 0x18)

/-- The g of `colPattern` (R114) that a word of a column has in bits 0, 2 and 3. -/
def patternPlace (w : Nat) : Nat := coordBit w 0 + 2 * coordBit w 2 + 4 * coordBit w 3

/-- The pixel of an element in the order of COL32 (R114). -/
def columnPlace32 (a : Nat) : Nat × Nat := (patternPlace a, 2 * (a / 16) + coordBit a 1)

/-- The pixel of an element in the order of COL16 (R114). -/
def columnPlace16 (a : Nat) : Nat × Nat :=
  ((columnPlace32 (a / 2)).1 + 8 * (a % 2), (columnPlace32 (a / 2)).2)

/-- The pixel of word `w` of an 8-bit or 4-bit block, with `j` the eight-pixel group it takes in the row and `k` the upper
bit of its row in the column (R114). -/
def columnPlaceOfWord (w j k : Nat) : Nat × Nat :=
  ((patternPlace w ^^^ 4 * (w / 16 % 2 ^^^ k)) + 8 * j, 4 * (w / 16) + 2 * k + coordBit w 1)

/-- The pixel of an element: the inverse of `Psm.column`. -/
def Psm.columnPlace (p : Psm) (a : Nat) : Nat × Nat :=
  match p with
  | .ct32 | .ct24 | .t8h | .t4hl | .t4hh | .z32 | .z24 => columnPlace32 a
  | .ct16 | .ct16s | .z16 | .z16s => columnPlace16 a
  | .t8 => columnPlaceOfWord (a / 4) (a / 2 % 2) (a % 2)
  | .t4 => columnPlaceOfWord (a / 8) (a / 2 % 4) (a % 2)

/-- The blocks of a page have the numbers below 32, each once (R113). -/
theorem Psm.block_fillsRange (p : Psm) : FillsRange (p.pageW / p.blockW) (p.pageH / p.blockH) 32 p.block := by
  refine .of_inverse p.blockPlace ?_ ?_ <;> cases p <;> decide +kernel

/-- The pixels of a block have the element indices below 2048 / elem, each once (R114). -/
theorem Psm.column_fillsRange (p : Psm) : FillsRange p.blockW p.blockH (2048 / p.elem) p.column := by
  refine .of_inverse p.columnPlace ?_ ?_ <;> cases p <;> decide +kernel

/-- The element of a pixel counted from the start of its page, for a pixel of the first page (R112). -/
def Psm.pageElem (p : Psm) (y x : Nat) : Nat :=
  p.block (y / p.blockH) (x / p.blockW) * (2048 / p.elem) + p.column (y % p.blockH) (x % p.blockW)

/-- The pixels of a page take each of its elements once: blocks fill the page and pixels fill the block (R123). -/
theorem Psm.page_fillsRange (p : Psm) : FillsRange p.pageW p.pageH (32 * (2048 / p.elem)) p.pageElem := by
  have hw : p.pageW / p.blockW * p.blockW = p.pageW := by cases p <;> rfl
  have hh : p.pageH / p.blockH * p.blockH = p.pageH := by cases p <;> rfl
  have h := p.block_fillsRange.tiled p.column_fillsRange
  rwa [hw, hh] at h

/-! ## The swizzle in a page -/

/-- In the first page of a buffer whose base is a page inside VRAM no address wraps: the swizzle is the element in the
page, counted from the base. -/
theorem Psm.swz_of_page (p : Psm) {bp x y : Nat} (bw : Nat) (hp : bp % 32 = 0) (hb : bp < 2 ^ 14) (hx : x < p.pageW)
    (hy : y < p.pageH) : p.swz bp bw x y = bp * (2048 / p.elem) + p.pageElem y x := by
  have hcount : elemCount p.elem = 2 ^ 14 * (2048 / p.elem) := by cases p <;> rfl
  have hpage : p.page bw x y = 0 := by simp [Psm.page, Nat.div_eq_of_lt hx, Nat.div_eq_of_lt hy]
  have hlt := p.page_fillsRange.lt x y hx hy
  have hend : (bp + 32) * (2048 / p.elem) ≤ 2 ^ 14 * (2048 / p.elem) := Nat.mul_le_mul_right _ (by omega)
  rw [Nat.add_mul] at hend
  have hswz : p.swz bp bw x y = (bp * (2048 / p.elem) + p.pageElem y x) % elemCount p.elem := by
    simp only [Psm.swz, Psm.blockOf, Psm.elemOf, Psm.pageElem, hpage, Nat.mod_eq_of_lt hx, Nat.mod_eq_of_lt hy,
      Nat.zero_mul, Nat.add_zero, Nat.add_mul, Nat.add_assoc]
  rw [hswz, Nat.mod_eq_of_lt (by omega)]

/-- Settles O33: the page's own order is a bijection, and the base shifts it. -/
theorem swizzleIsBijectiveInPage : Obligations.SwizzleIsBijectiveInPage := by
  intro p bp bw hp hb
  refine ⟨fun x y hx hy => ?_, fun a ha ha' => ?_⟩
  · have := p.page_fillsRange.lt x y hx hy
    rw [p.swz_of_page bw hp hb hx hy, Nat.add_mul]
    omega
  · rw [Nat.add_mul] at ha'
    obtain ⟨x, y, ⟨hx, hy, e⟩, u⟩ := p.page_fillsRange.existsUnique (a - bp * (2048 / p.elem)) (by omega)
    refine ⟨x, y, ⟨hx, hy, ?_⟩, fun x' y' hx' hy' e' => u x' y' hx' hy' ?_⟩
    · rw [p.swz_of_page bw hp hb hx hy]
      omega
    · rw [p.swz_of_page bw hp hb hx' hy'] at e'
      omega

end Sys2Proof.Machine

/-! # The command word

What the decoder answers, KIND by KIND, and the words it takes for a command. -/

namespace Sys2Proof

/-- Decoding the word of a command gives it back: one lemma of `Laws.DecodeEncode` for each constructor of `Instr`. -/
theorem decode_encode (i : Instr) : decode (encode i) = .ok i := by
  open Laws.DecodeEncode in
  exact Instr.casesOn (motive := Statement) i
    -- general register writes (R182)
    wPrim wRgbaq wSt wUv wXyzf2 wXyz2 wTex0_1 wTex0_2 wClamp_1 wClamp_2 wFog wXyzf3 wXyz3 wTex1_1 wTex1_2 wTex2_1
    wTex2_2 wXyoffset_1 wXyoffset_2 wPrmodecont wPrmode wTexclut wScanmsk wMiptbp1_1 wMiptbp1_2 wMiptbp2_1 wMiptbp2_2
    wTexa wFogcol wTexflush wScissor_1 wScissor_2 wAlpha_1 wAlpha_2 wDimx wDthe wColclamp wTest_1 wTest_2 wPabe wFba_1
    wFba_2 wFrame_1 wFrame_2 wZbuf_1 wZbuf_2 wBitbltbuf wTrxpos wTrxreg wTrxdir wHwreg wSignal wFinish wLabel
    -- the general register read
    rGeneral
    -- privileged register writes (R183)
    pwPmode pwSmode1 pwSmode2 pwSrfsh pwSynch1 pwSynch2 pwSyncv pwDispfb1 pwDisplay1 pwDispfb2 pwDisplay2 pwExtbuf
    pwExtdata pwExtwrite pwBgcolor pwCsr pwImr pwBusdir pwSiglblid
    -- the privileged register read, the transfer read and the timing events (R184, R185)
    rPriv tr evVblankIn evVblankOut evHblank

theorem decode_of_encode_eq {i : Instr} {w : CmdWord} (h : encode i = w) : decode w = .ok i := h ▸ decode_encode i

theorem eq_some_of_orNoSuchRegister {r : Option Instr} {i : Instr} (h : orNoSuchRegister r = .ok i) : r = some i := by
  cases r with
  | none => cases h
  | some x => cases h; rfl

/-- How a word can decode to a command: one case for each KIND of R181, with zero bits [127:100] in all of them. -/
theorem decode_cases {w : CmdWord} {i : Instr} (h : decode w = .ok i) :
    cmdReserved w = 0#28 ∧
    ((cmdKind w = 0#4 ∧ generalWrite? (cmdAddr w) (cmdData w) = some i) ∨
      (cmdKind w = 1#4 ∧ i = .rGeneral (cmdAddr w)) ∨
      (cmdKind w = 2#4 ∧ privWrite? (cmdAddr w) (cmdData w) = some i) ∨
      (cmdKind w = 3#4 ∧ i = .rPriv (cmdAddr w)) ∨
      (cmdKind w = 4#4 ∧ i = .tr) ∨ (cmdKind w = 5#4 ∧ i = .evVblankIn) ∨ (cmdKind w = 6#4 ∧ i = .evVblankOut) ∨
      (cmdKind w = 7#4 ∧ i = .evHblank)) := by
  unfold decode at h
  split_ifs at h with hr h0 h1 h2 h3 h4 h5 h6 h7
  · exact ⟨not_not.1 hr, .inl ⟨h0, eq_some_of_orNoSuchRegister h⟩⟩
  all_goals refine ⟨not_not.1 hr, .inr ?_⟩
  · exact .inl ⟨h1, (Except.ok.inj h).symm⟩
  · exact .inr (.inl ⟨h2, eq_some_of_orNoSuchRegister h⟩)
  · exact .inr (.inr (.inl ⟨h3, (Except.ok.inj h).symm⟩))
  · exact .inr (.inr (.inr (.inl ⟨h4, (Except.ok.inj h).symm⟩)))
  · exact .inr (.inr (.inr (.inr (.inl ⟨h5, (Except.ok.inj h).symm⟩))))
  · exact .inr (.inr (.inr (.inr (.inr (.inl ⟨h6, (Except.ok.inj h).symm⟩)))))
  · exact .inr (.inr (.inr (.inr (.inr (.inr ⟨h7, (Except.ok.inj h).symm⟩)))))

/-- Settles O3: the word of a command decodes to it, and no word with a bit of [127:100] set decodes. -/
theorem decodeOfEncode : Obligations.DecodeOfEncode := by
  intro i
  obtain ⟨reserved, -⟩ := decode_cases (decode_encode i)
  exact ⟨decode_encode i, reserved⟩

/-- Settles O4: by the word's KIND; the address lookups of the writes give the command with that ADDR and DATA. -/
theorem wordHasOneMeaning : Obligations.WordHasOneMeaning := by
  intro w i h
  obtain ⟨reserved, hk⟩ := decode_cases h
  refine ⟨reserved, ?_⟩
  rcases hk with ⟨hk, h⟩ | ⟨hk, rfl⟩ | ⟨hk, h⟩ | ⟨hk, rfl⟩ | ⟨hk, rfl⟩ | ⟨hk, rfl⟩ | ⟨hk, rfl⟩ | ⟨hk, rfl⟩ <;> rw [hk]
  · exact encode_generalWrite? _ _ i h
  · rfl
  · exact encode_privWrite? _ _ i h
  all_goals rfl

/-! ## Words that are no command -/

/-- A reserved KIND is none of the eight that decode (R181). -/
theorem decode_of_reserved {w : CmdWord} (h : cmdReserved w ≠ 0#28 ∨ 8 ≤ (cmdKind w).toNat) :
    decode w = .error .badCommand := by
  rcases h with hr | hk
  · exact if_pos hr
  · have ne {k : BitVec 4} (h : k.toNat < 8) : cmdKind w ≠ k := by rintro rfl; omega
    simp [decode, ne]

theorem decode_of_generalWrite_none {w : CmdWord} (hr : cmdReserved w = 0#28) (hk : cmdKind w = 0#4)
    (h : generalWrite? (cmdAddr w) (cmdData w) = none) : decode w = .error .noSuchRegister := by
  simp [decode, hr, hk, h, orNoSuchRegister]

theorem decode_of_privWrite_none {w : CmdWord} (hr : cmdReserved w = 0#28) (hk : cmdKind w = 2#4)
    (h : privWrite? (cmdAddr w) (cmdData w) = none) : decode w = .error .noSuchRegister := by
  simp [decode, hr, hk, h, orNoSuchRegister]

end Sys2Proof

namespace Sys2Proof.Machine

/-- Settles O2: a word that stands for a command is the command's own word; the last four words are reserved by KIND, by
[127:100], and name no general and no privileged register. -/
theorem specWordsDecode : Obligations.SpecWordsDecode := by
  refine ⟨?_, ?_, ?_, ?_, ?_, ?_, ?_, ?_, ?_, ?_, ?_, ?_, ?_, ?_, ?_, ?_, ?_, ?_, ?_, ?_, ?_, ?_⟩
  case refine_19 => exact decode_of_reserved (.inr (by decide))
  case refine_20 => exact decode_of_reserved (.inl (by decide))
  case refine_21 => exact decode_of_generalWrite_none (by decide) (by decide) (by decide)
  case refine_22 => exact decode_of_privWrite_none (by decide) (by decide) (by decide)
  all_goals exact decode_of_encode_eq rfl

/-- Settles O5: the word is rejected as a bad command. -/
theorem reservedCommandRefused : Obligations.ReservedCommandRefused :=
  fun _ _ _ hc h => step_of_reject hc (decode_of_reserved h)

/-! ## Addresses that name no register -/

theorem mem_of_lookupAddr {addr : BitVec 32} {t : List (BitVec 32 × RegName)} {r : RegName}
    (h : lookupAddr addr t = some r) : (addr, r) ∈ t := by
  induction t with
  | nil => cases h
  | cons e t ih =>
    unfold lookupAddr at h
    split at h
    · next ha => cases h; cases ha; exact .head _
    · exact .tail _ (ih h)

/-- No register of R32 lies in a gap of R190. -/
theorem generalReg?_of_unnamed {addr : BitVec 32} (h : unnamedGeneral addr.toNat = true) : generalReg? addr = none := by
  have named : ∀ e ∈ generalTable, unnamedGeneral e.1.toNat = false := by decide
  refine Option.eq_none_iff_forall_ne_some.2 fun r hr => ?_
  exact absurd h (by simp [named _ (mem_of_lookupAddr hr)])

/-- A general write names the address of a register. -/
theorem generalWrite?_of_unnamed {addr : BitVec 32} (d : Word) (h : unnamedGeneral addr.toNat = true) :
    generalWrite? addr d = none := by
  refine Option.eq_none_iff_forall_ne_some.2 fun i hi => ?_
  have he := encode_generalWrite? addr d i hi
  obtain ⟨r, a, d', -, he', ha⟩ := bankWrite?_of_general (i := i) (by rw [he]; simp [Laws.DecodeEncode.fields])
  have haddr : a = addr := by simpa [Laws.DecodeEncode.fields] using congrArg cmdAddr (he'.symm.trans he)
  rw [haddr, generalReg?_of_unnamed h] at ha
  cases ha

/-- Every stored privileged register has one of the addresses of R67. -/
theorem privReg?_of_unnamed {addr : BitVec 32} (h : addr ∉ privAddresses) : privReg? addr = none := by
  have named : ∀ e ∈ privTable, e.1 ∈ privAddresses := by decide
  exact Option.eq_none_iff_forall_ne_some.2 fun r hr => h (named _ (mem_of_lookupAddr hr))

theorem privWrite?_of_unnamed {addr : BitVec 32} (d : Word) (h : addr ∉ privAddresses) : privWrite? addr d = none := by
  simp only [privAddresses, List.mem_cons, List.not_mem_nil, or_false, not_or] at h
  simp [privWrite?, h]

theorem exec_rPriv_of_unnamed {addr : BitVec 32} (s : State) (h : addr ∉ privAddresses) :
    exec (.rPriv addr) s = .next s.replyAny := by
  have ne_of_mem {a : BitVec 32} (ha : a ∈ privAddresses) : addr ≠ a := fun e => h (e ▸ ha)
  exact exec_rPriv_any s (ne_of_mem (by decide)) (ne_of_mem (by decide)) (privReg?_of_unnamed h)

/-- Settles O6: such a write's word is rejected with no effect, and such a read is of no register. -/
theorem unnamedAddresses : Obligations.UnnamedAddresses := by
  refine ⟨fun s w rest hc hr h => ?_, fun s addr h => exec_rGeneral_any s (generalReg?_of_unnamed h),
    fun s addr h => exec_rPriv_of_unnamed s h⟩
  rcases h with ⟨hk, ha⟩ | ⟨hk, ha⟩
  · exact step_of_reject hc (decode_of_generalWrite_none hr hk (generalWrite?_of_unnamed _ ha))
  · exact step_of_reject hc (decode_of_privWrite_none hr hk (privWrite?_of_unnamed _ ha))

end Sys2Proof.Machine

/-! # The transfer read

A download takes pixels from its cursor one at a time: which pixels they are, where the cursor is after them, and where
they lie in the value returned. -/

namespace Sys2Proof.Machine

/-! ## The pixels ahead of a cursor -/

theorem TransferCursor.InRegion.passed_le {x : TransferCursor} (h : x.InRegion) : x.passed ≤ x.rrh * x.rrw := by
  have := h.width
  unfold TransferCursor.passed
  rcases h.inside with hc | ⟨hc, hx⟩
  · have : (x.cy + 1) * x.rrw ≤ x.rrh * x.rrw := Nat.mul_le_mul_right _ hc
    rw [Nat.add_mul] at this
    omega
  · rw [hc, hx, Nat.add_zero]

theorem TransferCursor.InRegion.passed_lt {x : TransferCursor} (h : x.InRegion) (hf : x.full = false) :
    x.passed < x.rrh * x.rrw :=
  lt_of_le_of_ne h.passed_le fun e => by simp [h.full_iff.2 e] at hf

@[simp] theorem TransferCursor.advance_rrw (x : TransferCursor) : x.advance.rrw = x.rrw := by rw [x.advance_same.1]

@[simp] theorem TransferCursor.advance_rrh (x : TransferCursor) : x.advance.rrh = x.rrh := by rw [x.advance_same.1]

/-- The source pixel `k` places after a cursor, 0 past the end of the region (R500). -/
def TransferCursor.sourcePixel (p : Psm) (m : Memory) (x : TransferCursor) (k : Nat) : VWord :=
  if x.passed + k < x.rrh * x.rrw then
    m.readRaw p x.sbp x.sbw (windowCoord x.ssax (x.moved k).cx) (windowCoord x.ssay (x.moved k).cy)
  else 0#32

theorem TransferCursor.sourcePixel_advance (p : Psm) (m : Memory) (x : TransferCursor) (k : Nat) :
    x.advance.sourcePixel p m k = x.sourcePixel p m (k + 1) := by
  have passed : x.advance.passed + k = x.passed + (k + 1) := by rw [TransferCursor.passed_advance]; omega
  unfold TransferCursor.sourcePixel
  rw [TransferCursor.moved_advance, passed, x.advance_same.1]

theorem TransferCursor.sourcePixel_of_full {x : TransferCursor} (h : x.InRegion) (hf : x.full = true) (p : Psm)
    (m : Memory) (k : Nat) : x.sourcePixel p m k = 0#32 :=
  if_neg (by rw [h.full_iff.1 hf]; omega)

theorem TransferCursor.getLsbD_sourcePixel (p : Psm) (m : Memory) (x : TransferCursor) (k j : Nat) :
    (x.sourcePixel p m k).getLsbD j =
      (decide (x.passed + k < x.rrh * x.rrw) &&
        (m.readRaw p x.sbp x.sbw (windowCoord x.ssax (x.moved k).cx)
          (windowCoord x.ssay (x.moved k).cy)).getLsbD j) := by
  unfold TransferCursor.sourcePixel
  split
  · next hk => simp [hk]
  · next hk => simp [hk]

/-- A source pixel has the bits of its format only. -/
theorem TransferCursor.getLsbD_sourcePixel_of_ge (p : Psm) (m : Memory) (x : TransferCursor) (k : Nat) {j : Nat}
    (h : p.bits ≤ j) : (x.sourcePixel p m k).getLsbD j = false := by
  simp [TransferCursor.getLsbD_sourcePixel, Memory.getLsbD_readRaw, Nat.not_lt.2 h]

theorem takePixel_fst (p : Psm) (m : Memory) {x : TransferCursor} (h : x.InRegion) :
    (takePixel p m x).1 = x.sourcePixel p m 0 := by
  unfold takePixel
  split
  · next hf => exact (TransferCursor.sourcePixel_of_full h hf p m 0).symm
  · next hf => exact (if_pos (h.passed_lt (by simpa using hf))).symm

/-- The pixels ahead after one is taken are those that came after it. -/
theorem TransferCursor.sourcePixel_takePixel (p : Psm) (m : Memory) {x : TransferCursor} (h : x.InRegion) (k : Nat) :
    (takePixel p m x).2.sourcePixel p m k = x.sourcePixel p m (k + 1) := by
  rw [takePixel_snd]
  split
  · next hf => rw [TransferCursor.sourcePixel_of_full h hf, TransferCursor.sourcePixel_of_full h hf]
  · exact x.sourcePixel_advance p m k

/-! ## A run of pixels -/

/-- The cursor passes the pixels taken that its region still has. -/
theorem takePacked_snd (p : Psm) (m : Memory) (n i : Nat) {x : TransferCursor} (h : x.InRegion) :
    (takePacked p m n i x).2 = x.moved (min n (x.rrh * x.rrw - x.passed)) := by
  induction n generalizing i x with
  | zero => simp [takePacked, TransferCursor.moved]
  | succ n ih =>
    show (takePacked p m n (i + 1) (takePixel p m x).2).2 = _
    rw [ih (i + 1) (takePixel_inRegion p m h), takePixel_snd]
    split
    · next hf => simp [h.full_iff.1 hf]
    · next hf =>
      have := h.passed_lt (by simpa using hf)
      rw [TransferCursor.moved_advance, TransferCursor.passed_advance, x.advance_rrh, x.advance_rrw]
      congr 1
      omega

/-- No pixel reaches below its own place. -/
theorem getLsbD_takePacked_of_lt (p : Psm) (m : Memory) (n : Nat) {i b : Nat} (x : TransferCursor)
    (h : b < i * p.bits) : (takePacked p m n i x).1.getLsbD b = false := by
  induction n generalizing i x with
  | zero => simp [takePacked]
  | succ n ih =>
    have next : b < (i + 1) * p.bits := by rw [Nat.add_mul]; omega
    simp [takePacked, h, ih _ next]

theorem takePacked_succ_fst (p : Psm) (m : Memory) (n i : Nat) {x : TransferCursor} (h : x.InRegion) :
    (takePacked p m (n + 1) i x).1 =
      ((x.sourcePixel p m 0).setWidth 64 <<< (i * p.bits)) ||| (takePacked p m n (i + 1) (takePixel p m x).2).1 := by
  rw [← takePixel_fst p m h]
  rfl

/-- Pixel `k` of a run stands at place `i + k` of the value. -/
theorem getLsbD_takePacked (p : Psm) (m : Memory) {n i k j : Nat} {x : TransferCursor} (h : x.InRegion)
    (hn : (i + n) * p.bits ≤ 64) (hk : k < n) (hj : j < p.bits) :
    (takePacked p m n i x).1.getLsbD ((i + k) * p.bits + j) = (x.sourcePixel p m k).getLsbD j := by
  induction n generalizing i k x with
  | zero => omega
  | succ n ih =>
    have in_word : (i + k) * p.bits + j < 64 := by
      have : (i + k + 1) * p.bits ≤ (i + (n + 1)) * p.bits := Nat.mul_le_mul_right _ (by omega)
      rw [Nat.add_mul (i + k)] at this
      omega
    rw [takePacked_succ_fst p m n i h, BitVec.getLsbD_or, BitVec.getLsbD_shiftLeft, BitVec.getLsbD_setWidth]
    cases k with
    | zero =>
      rw [Nat.add_zero] at in_word ⊢
      have below_next : i * p.bits + j < (i + 1) * p.bits := by rw [Nat.add_mul i 1]; omega
      have : j < 64 := by omega
      rw [getLsbD_takePacked_of_lt p m n _ below_next]
      simp [in_word, this]
    | succ k =>
      have place : i + (k + 1) = i + 1 + k := by omega
      have above_head : p.bits ≤ (i + (k + 1)) * p.bits + j - i * p.bits := by
        rw [Nat.add_mul i, Nat.add_mul k]
        omega
      rw [x.getLsbD_sourcePixel_of_ge p m 0 above_head, place,
        ih (takePixel_inRegion p m h) (by rwa [Nat.add_assoc, Nat.add_comm 1]) (by omega),
        TransferCursor.sourcePixel_takePixel p m h]
      simp

/-! ## The command -/

/-- A transfer read of an active download in a format that is one (R500). -/
theorem State.transferRead_of_download {s : State} {x : TransferCursor} {p : Psm} (hx : s.xfer = some x)
    (hd : x.dir = .localToHost) (hp : Psm.ofCode x.spsm = some p) :
    s.transferRead =
      { s with
        xfer :=
          if (takeData p s.lm.vram x).2.full && (takeData p s.lm.vram x).2.carry.isEmpty then none
          else some (takeData p s.lm.vram x).2
        replies := s.replies ++ [(takeData p s.lm.vram x).1] } := by
  simp only [State.transferRead, hx, hd, hp, if_true, Option.getD_some]
  rfl

/-- No bytes are carried from one download read to the next but those of a 24-bit format. -/
theorem TransferCursor.Ok.carry_eq_nil {x : TransferCursor} {p : Psm} (h : x.Ok) (hd : x.dir = .localToHost)
    (hp : Psm.ofCode x.spsm = some p) (hb : p.bits ≠ 24) : x.carry = [] := by
  obtain ⟨q, hq, hc⟩ := h.format
  rw [hd] at hq
  cases hp.symm.trans hq
  exact hc hb

theorem takeData_of_ne_24 {p : Psm} (hb : p.bits ≠ 24) (m : Memory) (x : TransferCursor) :
    takeData p m x = takePacked p m (64 / p.bits) 0 x := if_neg hb

/-- A run finishes the region when it asks for at least the pixels left. -/
theorem TransferCursor.InRegion.full_takePacked (p : Psm) (m : Memory) (n i : Nat) {x : TransferCursor}
    (h : x.InRegion) : (takePacked p m n i x).2.full = true ↔ x.rrh * x.rrw ≤ x.passed + n := by
  have := h.passed_le
  rw [(takePacked_inRegion p m n i h).full_iff, takePacked_snd p m n i h, TransferCursor.passed_moved,
    (x.moved_same _).1]
  dsimp only
  omega

/-- A run that leaves the region unfinished has passed every pixel it asked for. -/
theorem takePacked_snd_of_not_full (p : Psm) (m : Memory) (n i : Nat) {x : TransferCursor} (h : x.InRegion)
    (hf : (takePacked p m n i x).2.full = false) : (takePacked p m n i x).2 = x.moved n := by
  have left : ¬ x.rrh * x.rrw ≤ x.passed + n := by simp [← h.full_takePacked p m n i, hf]
  rw [takePacked_snd p m n i h, Nat.min_eq_left (by omega)]

/-- Settles O59: the pixels and the cursor are those of a run of `64 / w` pixels from place 0. -/
theorem transferReadReturnsPixels : Obligations.TransferReadReturnsPixels := by
  intro s
  constructor
  · intro none_active
    rcases State.transferRead_cases s with ⟨-, e⟩ | ⟨x, hx, hd, -⟩
    · exact congrArg Host.Outcome.next e
    · exact absurd hd (none_active x hx)
  intro x p hx hok hd hp
  have e := State.transferRead_of_download hx hd hp
  refine ⟨s.transferRead, (takeData p s.lm.vram x).1, rfl, by rw [e], fun hb => ?_⟩
  have inRegion := hok.inRegion'
  have carry : (takePacked p s.lm.vram (64 / p.bits) 0 x).2.carry = [] := by
    rw [(takePacked_same p _ _ 0 x).2, hok.carry_eq_nil hd hp hb]
  have full_iff := inRegion.full_takePacked p s.lm.vram (64 / p.bits) 0
  rw [e, takeData_of_ne_24 hb, carry]
  refine ⟨fun i hi j hj => ?_, ?_, fun x' hx' => ?_⟩
  · have in_word : (0 + 64 / p.bits) * p.bits ≤ 64 := by simpa using Nat.div_mul_le_self 64 p.bits
    have := getLsbD_takePacked p s.lm.vram inRegion in_word hi hj
    rwa [Nat.zero_add, TransferCursor.getLsbD_sourcePixel] at this
  · rw [← full_iff]
    simp
  · dsimp only at hx'
    split at hx'
    · cases hx'
    · next hf =>
      cases hx'
      exact takePacked_snd_of_not_full p s.lm.vram _ 0 inRegion (by simpa using hf)

end Sys2Proof.Machine

/-! # Register writes

What each register write does besides storing its DATA (R220 to R303): nothing for most, an event, a merge, a reset, a
vertex kick or a transfer for the others. -/

namespace Sys2Proof.Machine

/-! ## Writes that only store -/

/-- A command that has this word, writes this register of the bank and only stores is a `StoreCommand`. -/
theorem storeCommand_of {kind : BitVec 4} {addr : BitVec 32} {i : Word → Instr} {r : RegName}
    (h : ∀ d, encode (i d) = cmdWord kind addr d ∧ bankWrite? (i d) = some (r, d) ∧ onlyStores (i d) = true) :
    StoreCommand kind addr i r := by
  intro d s
  obtain ⟨word, bank, only⟩ := h d
  exact ⟨decode_of_encode_eq word, _, (Runs.store bank only).exec_eq, storesOnly_setReg s r d⟩

/-- Settles O10: each of the seven commands only stores. -/
theorem attributeAndTransferSetupWrites : Obligations.AttributeAndTransferSetupWrites := by
  unfold Obligations.AttributeAndTransferSetupWrites
  and_intros
  all_goals exact storeCommand_of fun _ => ⟨rfl, rfl, rfl⟩

/-- Settles O11: each of the context registers' writes only stores. -/
theorem contextRegisterWrites : Obligations.ContextRegisterWrites := by
  unfold Obligations.ContextRegisterWrites
  and_intros
  all_goals exact storeCommand_of fun _ => ⟨rfl, rfl, rfl⟩

/-- Settles O12: each of the shared registers' writes only stores. -/
theorem sharedRegisterWrites : Obligations.SharedRegisterWrites := by
  unfold Obligations.SharedRegisterWrites
  and_intros
  all_goals exact storeCommand_of fun _ => ⟨rfl, rfl, rfl⟩

/-- Settles O13: each of the display registers' writes only stores. -/
theorem displayRegisterWrites : Obligations.DisplayRegisterWrites := by
  unfold Obligations.DisplayRegisterWrites
  and_intros
  all_goals exact storeCommand_of fun _ => ⟨rfl, rfl, rfl⟩

/-- Settles O14: IMR and BUSDIR only store; SIGLBLID is a field of its own. -/
theorem controlRegisterWrites : Obligations.ControlRegisterWrites :=
  ⟨storeCommand_of fun _ => ⟨rfl, rfl, rfl⟩, storeCommand_of fun _ => ⟨rfl, rfl, rfl⟩,
    fun _ _ => ⟨decode_of_encode_eq rfl, _, (Runs.siglblid _).exec_eq, rfl, rfl⟩⟩

/-! ## Privileged reads -/

/-- A table lookup finds every stored privileged register under its own address (R67). -/
theorem privReg?_of_mem {addr : BitVec 32} {r : RegName} (h : (addr, r) ∈ privTable) : privReg? addr = some r := by
  have all : ∀ e ∈ privTable, privReg? e.1 = some e.2 := by decide
  exact all _ h

/-- Every word of KIND 2 is a write of CSR, of SIGLBLID or of the register in the bank that its address names (R183). -/
theorem bankWrite?_of_priv {i : Instr} (h : cmdKind (encode i) = 2#4) :
    (∃ r a d, bankWrite? i = some (r, d) ∧ encode i = cmdWord 2#4 a d ∧ privReg? a = some r) ∨
      (∃ d, i = .pwCsr d) ∨ ∃ d, i = .pwSiglblid d := by
  cases i with
  | pwCsr d => exact .inr (.inl ⟨d, rfl⟩)
  | pwSiglblid d => exact .inr (.inr ⟨d, rfl⟩)
  | pwPmode | pwSmode1 | pwSmode2 | pwSrfsh | pwSynch1 | pwSynch2 | pwSyncv | pwDispfb1 | pwDisplay1 | pwDispfb2
  | pwDisplay2 | pwExtbuf | pwExtdata | pwExtwrite | pwBgcolor | pwImr | pwBusdir =>
    exact .inl ⟨_, _, _, rfl, rfl, rfl⟩
  | _ => simp [encode, Laws.DecodeEncode.fields] at h

/-- Settles O8: a privileged write leaves its DATA in its register or in SIGLBLID, and a read returns it. -/
theorem privilegedReadBack : Obligations.PrivilegedReadBack := by
  refine ⟨fun addr r s h => exec_rPriv s (privReg?_of_mem h), exec_rPriv_siglblid, fun i s hk hne => ?_⟩
  rcases bankWrite?_of_priv hk with ⟨r, a, d, hb, he, ha⟩ | ⟨d, rfl⟩ | ⟨d, rfl⟩
  · obtain ⟨-, -, haddr, hdata⟩ := Laws.DecodeEncode.fields 2#4 a d
    obtain ⟨t, ht, hr⟩ := exec_runs i s
    refine ⟨t, ht, ?_⟩
    rw [he, haddr, hdata, exec_rPriv t ha, hr.reg_of_bankWrite hb]
    rfl
  · obtain ⟨-, -, haddr, -⟩ := Laws.DecodeEncode.fields 2#4 csrAddr d
    exact absurd haddr hne
  · obtain ⟨-, -, haddr, hdata⟩ := Laws.DecodeEncode.fields 2#4 siglblidAddr d
    have word : encode (.pwSiglblid d) = cmdWord 2#4 siglblidAddr d := rfl
    refine ⟨_, (Runs.siglblid d).exec_eq, ?_⟩
    rw [word, haddr, hdata, exec_rPriv_siglblid]
    rfl

/-! ## Writes with an effect of their own -/

/-- A register written holds its DATA, whatever happens to the other fields of the state. -/
theorem reg_stored {s t : State} {r : RegName} {d : Word} (h : t.regs = s.regs.write r d) : t.reg r = d := by
  rw [State.reg, h, Regs.read_write_same]

/-- The other registers hold their values. -/
theorem regs_kept {s t : State} {r : RegName} {d : Word} (h : t.regs = s.regs.write r d) : KeepsRegsBut [r] s t := by
  intro r' hr'
  rw [State.reg, h, Regs.read_write_ne _ _ (by simpa using hr')]
  rfl

/-- PRIM codes 6 and 7 are both a sprite (R312). -/
theorem Regs.primType_of_sprite_code {rs : Regs} {d : Word} (hd : rs.read .prim = d)
    (h : d.extractLsb' 0 3 = 6#3 ∨ d.extractLsb' 0 3 = 7#3) : rs.primType = .sprite := by
  have code : field d 2 0 = (d.extractLsb' 0 3).toNat := rfl
  rcases h with h | h <;> rw [Regs.primType, hd, code, h] <;> rfl

/-- Settles O15: only the register and the queue's count change. -/
theorem primWrite : Obligations.PrimWrite := fun d s =>
  ⟨decode_of_encode_eq rfl, _, (Runs.prim d).exec_eq, reg_stored rfl, regs_kept rfl, rfl, rfl, rfl,
    Regs.primType_of_sprite_code (Regs.read_write_same s.regs .prim d)⟩

/-- The bits of TEX0 after a TEX2 merge (R232). -/
theorem getLsbD_mergeBits_tex2Mask (old d : Word) (i : Nat) :
    (mergeBits old d tex2Mask).getLsbD i =
      if (20 ≤ i ∧ i ≤ 25) ∨ 37 ≤ i then d.getLsbD i else old.getLsbD i := by
  by_cases h : i < 64
  · simp [getLsbD_mergeBits, getLsbD_tex2Mask h]
  · simp [BitVec.getLsbD_of_ge, Nat.le_of_not_lt h]

/-- What a TEX2 write of either context leaves, `r` being its TEX2 and `r₀` its TEX0. -/
theorem tex2Merge_effects (d : Word) (s : State) {r r₀ : RegName} (hne : r ≠ r₀) :
    let t := (s.setReg r d).setReg r₀ (mergeBits (s.reg r₀) d tex2Mask)
    t.reg r = d ∧
      (∀ i, (t.reg r₀).getLsbD i = if (20 ≤ i ∧ i ≤ 25) ∨ 37 ≤ i then d.getLsbD i else (s.reg r₀).getLsbD i) ∧
      KeepsRegsBut [r, r₀] s t ∧ t = { s with regs := t.regs } := by
  refine ⟨?_, fun i => ?_, fun r' hr' => ?_, rfl⟩
  · rw [State.reg_setReg_ne _ _ hne, State.reg_setReg_same]
  · rw [State.reg_setReg_same, getLsbD_mergeBits_tex2Mask]
  · obtain ⟨h, h₀⟩ : r' ≠ r ∧ r' ≠ r₀ := by simpa using hr'
    rw [State.reg_setReg_ne _ _ h₀, State.reg_setReg_ne _ _ h]

/-- Settles O16: the merge of R232 and R233, bit by bit. -/
theorem tex2Write : Obligations.Tex2Write := fun d s =>
  ⟨decode_of_encode_eq rfl, decode_of_encode_eq rfl,
    ⟨_, (Runs.tex2_1 d).exec_eq, tex2Merge_effects d s (by decide)⟩,
    ⟨_, (Runs.tex2_2 d).exec_eq, tex2Merge_effects d s (by decide)⟩⟩

/-- Settles O17: only the register and the dirty set change. -/
theorem texflushWrite : Obligations.TexflushWrite := fun d _ =>
  ⟨decode_of_encode_eq rfl, _, (Runs.texflush d).exec_eq, reg_stored rfl, regs_kept rfl, rfl, rfl⟩

/-- SIGID after a SIGNAL write: the bits that IDMSK selects come from DATA, LBLID is kept (R280). -/
theorem getLsbD_mergeSigId_data (sig d : Word) (i : Nat) :
    (mergeSigId sig (sigId d) (sigIdMask d)).getLsbD i =
      if i < 32 ∧ d.getLsbD (32 + i) then d.getLsbD i else sig.getLsbD i := by
  rw [getLsbD_mergeSigId]
  by_cases h : i < 32
  · simp [sigId, sigIdMask, h]
  · simp [h]

/-- LBLID after a LABEL write: the bits that IDMSK selects come from DATA (R282). -/
theorem getLsbD_mergeLblId_data (sig d : Word) {i : Nat} (h : i < 32) :
    (mergeLblId sig (sigId d) (sigIdMask d)).getLsbD (32 + i) =
      if d.getLsbD (32 + i) then d.getLsbD i else sig.getLsbD (32 + i) := by
  simp [getLsbD_mergeLblId, sigId, sigIdMask, h]

/-- An occurrence of an interrupt source after a write of a register that is not its mask (R530, R531). -/
theorem State.raise_of_write {s t : State} {r : RegName} {d : Word} (src : IrqSource)
    (ht : t.regs = s.regs.write r d) (hr : r ≠ .imr) :
    t.raise src =
      { t with
        csr := csrSet t.csr src
        out := if bit (s.reg .imr) (imrMaskBit src) then t.out else t.out ++ [.gsIrq src] } := by
  rw [State.raise_eq, regs_kept ht .imr (by simpa using hr.symm)]

theorem exec_wSignal (d : Word) (s : State) :
    exec (.wSignal d) s = .next
      { s with
        regs := s.regs.write .signal d
        sig := mergeSigId s.sig (sigId d) (sigIdMask d)
        csr := csrSet s.csr .signal
        out := if bit (s.reg .imr) 8 then s.out else s.out ++ [.gsIrq .signal] } := by
  rw [(Runs.signal d).exec_eq, State.raise_of_write (s := s) (r := .signal) .signal rfl (by decide)]
  rfl

theorem exec_wFinish (d : Word) (s : State) :
    exec (.wFinish d) s = .next
      { s with
        regs := s.regs.write .finish d
        csr := csrSet s.csr .finish
        out := if bit (s.reg .imr) 9 then s.out else s.out ++ [.gsIrq .finish] } := by
  rw [(Runs.finish d).exec_eq, State.raise_of_write (s := s) (r := .finish) .finish rfl (by decide)]
  rfl

theorem exec_wLabel (d : Word) (s : State) :
    exec (.wLabel d) s = .next
      { s with regs := s.regs.write .label d, sig := mergeLblId s.sig (sigId d) (sigIdMask d) } :=
  (Runs.label d).exec_eq

/-- Settles O18: SIGID merged, and one occurrence of the SIGNAL source. -/
theorem signalWrite : Obligations.SignalWrite := by
  intro d s
  refine ⟨decode_of_encode_eq rfl, _, exec_wSignal d s, reg_stored rfl, regs_kept rfl, fun i hi => ?_, fun i hi => ?_,
    rfl, rfl, rfl⟩
  · simp [getLsbD_mergeSigId_data, hi]
  · simp [getLsbD_mergeSigId_data, Nat.not_lt.2 hi]

/-- Settles O19: one occurrence of the FINISH source; LBLID merged. -/
theorem finishAndLabelWrites : Obligations.FinishAndLabelWrites := by
  intro d s
  refine ⟨⟨decode_of_encode_eq rfl, _, exec_wFinish d s, reg_stored rfl, regs_kept rfl, rfl, rfl, rfl⟩,
    decode_of_encode_eq rfl, _, exec_wLabel d s, reg_stored rfl, regs_kept rfl,
    fun i hi => getLsbD_mergeLblId_data _ _ hi, fun i hi => ?_, rfl⟩
  simp [getLsbD_mergeLblId, Nat.not_le.2 hi]

theorem exec_pwCsr_of_reset {d : Word} (s : State) (h : d.getLsbD 9 = true) :
    exec (.pwCsr d) s = .next ({ s with csr := csrClear s.csr d }.gsReset) :=
  (Runs.csr d).exec_eq.trans (congrArg _ (if_pos h))

theorem exec_pwCsr_of_not_reset {d : Word} (s : State) (h : d.getLsbD 9 = false) :
    exec (.pwCsr d) s = .next { s with csr := csrClear s.csr d } :=
  (Runs.csr d).exec_eq.trans (congrArg _ (if_neg (Bool.eq_false_iff.1 h)))

/-- A status bit written as 1 is cleared, one written as 0 kept (R300). -/
theorem and_not_bit (b : Bool) (d : Word) (i : Nat) : (b && !bit d i) = if d.getLsbD i then false else b := by
  unfold bit
  cases d.getLsbD i <;> simp

/-- Settles O20: by RESET, bit 9 of DATA. -/
theorem csrWrite : Obligations.CsrWrite := by
  intro d s
  refine ⟨decode_of_encode_eq rfl, ?_⟩
  cases h : d.getLsbD 9 with
  | true =>
    exact ⟨_, exec_pwCsr_of_reset s h, nofun, fun _ =>
      ⟨Regs.read_reset, rfl, rfl, rfl, rfl, rfl, rfl, rfl, rfl, rfl, rfl, rfl, rfl⟩⟩
  | false =>
    exact ⟨_, exec_pwCsr_of_not_reset s h, fun _ =>
      ⟨and_not_bit _ d 0, and_not_bit _ d 1, and_not_bit _ d 2, and_not_bit _ d 3, and_not_bit _ d 4, rfl, rfl⟩, nofun⟩

end Sys2Proof.Machine

/-! # Vertex kicks

Every kick stores its DATA, then takes the vertex of its own coordinates and the attributes in force. Its register is
none of those the attributes come from, nor PRIM, so the vertex and the primitive type are those of the state before it. -/

namespace Sys2Proof.Machine

/-- The vertex of a kick comes from RGBAQ, ST and UV, which no kick writes (R310). -/
theorem makeVertex_write (p : KickFields) (regs : Regs) {r : RegName} (d : Word) (h : r ∉ [.rgbaq, .st, .uv]) :
    makeVertex p (regs.write r d) = makeVertex p regs := by
  simp only [List.mem_cons, List.not_mem_nil, or_false, not_or] at h
  obtain ⟨rgbaq, st, uv⟩ := h
  unfold makeVertex
  rw [Regs.read_write_ne _ _ (Ne.symm rgbaq), Regs.read_write_ne _ _ (Ne.symm st), Regs.read_write_ne _ _ (Ne.symm uv)]

/-- `c`, a command with its register and its vertex, is a kick of DATA `d`: it stores `d`, then kicks that vertex. -/
structure Kicks (s : State) (d : Word) (discard : Bool) (c : Instr × RegName × Vertex) (p : KickFields) : Prop where
  exec_eq : exec c.1 s = .next ((s.setReg c.2.1 d).kick p discard)
  queued_eq : (s.setReg c.2.1 d).queued p = queueWith s c.2.2
  primType_eq : (s.setReg c.2.1 d).regs.primType = s.regs.primType

theorem Kicks.of_vertex {s : State} {d : Word} {discard : Bool} {i : Instr} {r : RegName} {v : Vertex} {p : KickFields}
    (he : exec i s = .next ((s.setReg r d).kick p discard)) (hv : v = makeVertex p s.regs)
    (hr : r ∉ [.prim, .rgbaq, .st, .uv]) : Kicks s d discard (i, r, v) p where
  exec_eq := he
  queued_eq := congrArg s.vq.push (hv ▸ makeVertex_write p s.regs d fun h => hr (.tail _ h))
  primType_eq := Regs.primType_write_ne _ _ fun h => hr (h ▸ .head _)

theorem kicks_of_mem_drawingKick {s : State} {d : Word} {c : Instr × RegName × Vertex} (h : c ∈ drawingKick s d) :
    ∃ p, Kicks s d false c p := by
  simp only [drawingKick, List.mem_cons, List.not_mem_nil, or_false] at h
  rcases h with rfl | rfl
  · exact ⟨kickXyzf d, .of_vertex rfl rfl (by decide)⟩
  · exact ⟨kickXyz d s.regs, .of_vertex rfl rfl (by decide)⟩

theorem kicks_of_mem_discardingKick {s : State} {d : Word} {c : Instr × RegName × Vertex}
    (h : c ∈ discardingKick s d) : ∃ p, Kicks s d true c p := by
  simp only [discardingKick, List.mem_cons, List.not_mem_nil, or_false] at h
  rcases h with rfl | rfl
  · exact ⟨kickXyzf d, .of_vertex rfl rfl (by decide)⟩
  · exact ⟨kickXyz d s.regs, .of_vertex rfl rfl (by decide)⟩

theorem kicks_of_mem_kickCommand {s : State} {d : Word} {c : Instr × RegName × Vertex} (h : c ∈ kickCommand s d) :
    ∃ discard p, Kicks s d discard c p := by
  have split : kickCommand s d = drawingKick s d ++ discardingKick s d := rfl
  rcases List.mem_append.1 (split ▸ h) with h | h
  · exact ⟨false, kicks_of_mem_drawingKick h⟩
  · exact ⟨true, kicks_of_mem_discardingKick h⟩

/-- Settles O34: an incomplete kick only queues. -/
theorem kickQueuesVertex : Obligations.KickQueuesVertex := by
  intro d s hk c hc
  obtain ⟨discard, p, kicks⟩ := kicks_of_mem_kickCommand hc
  refine ⟨_, kicks.exec_eq, ?_⟩
  rw [State.kick_incomplete _ p discard (by rwa [kicks.primType_eq]), kicks.queued_eq]
  exact ⟨reg_stored rfl, regs_kept rfl, rfl, rfl⟩

/-- Settles O37: a discarded primitive only rotates the queue. -/
theorem discardingKickDrawsNothing : Obligations.DiscardingKickDrawsNothing := by
  intro d s hk c hc
  obtain ⟨p, kicks⟩ := kicks_of_mem_discardingKick hc
  refine ⟨_, kicks.exec_eq, ?_⟩
  rw [State.kick_discarded _ p (by rwa [kicks.primType_eq]), kicks.queued_eq, kicks.primType_eq]
  exact ⟨reg_stored rfl, regs_kept rfl, rfl, rfl⟩

/-- Drawing writes the words of its fragments only (R430, R471). -/
theorem keepsVramBut_drawFrags (e : Env) (lm : LocalMem) (frs : List Frag) :
    KeepsVramBut (frs.flatMap fun fr => e.fragWords fr.x.toNat fr.y.toNat) lm.vram (drawFrags e lm frs).vram :=
  fun _ ha => drawFrags_readByte e lm frs fun fr hfr hw => ha (List.mem_flatMap.2 ⟨fr, hfr, hw⟩)

/-- Settles O35: a drawn primitive rotates the queue, and its fragments are drawn in order. -/
theorem kickDraws : Obligations.KickDraws := by
  intro d s hk c hc regs e frags hr
  obtain ⟨p, kicks⟩ := kicks_of_mem_drawingKick hc
  refine ⟨_, kicks.exec_eq, ?_⟩
  have drawn := State.kick_drawn (s.setReg c.2.1 d) p (by rwa [kicks.primType_eq]) (by rwa [kicks.queued_eq])
  rw [drawn, kicks.queued_eq]
  exact ⟨reg_stored rfl, regs_kept rfl, congrArg (VertexQueue.rotate _) kicks.primType_eq, rfl,
    keepsVramBut_drawFrags e s.lm frags, rfl⟩

end Sys2Proof.Machine

/-! # Starting a transfer -/

namespace Sys2Proof.Machine

/-! ## The start of a transfer that leaves a cursor -/

theorem State.startCursor_of_reserved (s : State) {code : Nat} (x : TransferCursor) (h : Psm.ofCode code = none) :
    s.startCursor code x = s.refuse .badTransferFormat := if_pos (by rw [h]; rfl)

theorem State.startCursor_of_empty (s : State) {code : Nat} {x : TransferCursor} (h : (Psm.ofCode code).isSome)
    (he : x.rrw = 0 ∨ x.rrh = 0) : s.startCursor code x = s := by
  simp [State.startCursor, Option.isNone_eq_false_iff.2 h, he]

theorem State.startCursor_of_region (s : State) {code : Nat} {x : TransferCursor} (h : (Psm.ofCode code).isSome)
    (hw : x.rrw ≠ 0) (hh : x.rrh ≠ 0) : s.startCursor code x = s.setXfer (some x) := by
  simp [State.startCursor, Option.isNone_eq_false_iff.2 h, hw, hh]

theorem State.startCursor_frame (s : State) (code : Nat) (x : TransferCursor) :
    s.startCursor code x =
      { s with
        xfer := (s.startCursor code x).xfer
        refused := (s.startCursor code x).refused
        reasons := (s.startCursor code x).reasons } := by
  unfold State.startCursor
  split_ifs <;> rfl

/-! ## The command -/

/-- XDIR is the number of bits [1:0] (R64). -/
theorem dirXdir_of_bits {d : Word} {k : BitVec 2} (h : d.extractLsb' 0 2 = k) : dirXdir d = k.toNat := congrArg _ h

/-- A TRXDIR write with XDIR = 3 only abandons the active transfer (R481). -/
theorem exec_wTrxdir_stop {d : Word} (s : State) (h : d.extractLsb' 0 2 = 3#2) :
    exec (.wTrxdir d) s = .next ((s.setReg .trxdir d).setXfer none) := by
  rw [(Runs.trxdir d).exec_eq, dirXdir_of_bits h]
  rfl

/-- A TRXDIR write with XDIR = 0 or 1 starts from the registers as they were (R481). -/
theorem exec_wTrxdir_cursor {d : Word} (s : State) (h2 : d.extractLsb' 0 2 ≠ 2#2) (h3 : d.extractLsb' 0 2 ≠ 3#2) :
    exec (.wTrxdir d) s = .next (((s.setReg .trxdir d).setXfer none).startCursor
      (if d.extractLsb' 0 2 = 0#2 then bltDpsm (s.reg .bitbltbuf) else bltSpsm (s.reg .bitbltbuf))
      (latchCursor (if d.extractLsb' 0 2 = 0#2 then .hostToLocal else .localToHost)
        (s.reg .bitbltbuf) (s.reg .trxpos) (s.reg .trxreg))) := by
  have kept (r : RegName) (hr : r ≠ .trxdir) : (s.setReg .trxdir d).reg r = s.reg r := State.reg_setReg_ne _ _ hr
  rw [(Runs.trxdir d).exec_eq, ← kept .bitbltbuf (by decide), ← kept .trxpos (by decide), ← kept .trxreg (by decide)]
  have two_bits : ∀ v : BitVec 2, v ≠ 2#2 → v ≠ 3#2 → v = 0#2 ∨ v = 1#2 := by decide
  rcases two_bits _ h2 h3 with h | h <;> rw [dirXdir_of_bits h, h] <;> rfl

/-- Settles O55: by XDIR and, where a cursor may be left, by the format code and the region. -/
theorem transferStart : Obligations.TransferStart := by
  intro d s h2 b p g code x
  by_cases h3 : d.extractLsb' 0 2 = 3#2
  · exact ⟨_, exec_wTrxdir_stop s h3, reg_stored rfl, regs_kept rfl, fun _ => ⟨rfl, rfl, rfl⟩, fun h => absurd h3 h,
      fun h => absurd h3 h, fun h => absurd h3 h, rfl⟩
  have run : exec (.wTrxdir d) s = .next (((s.setReg .trxdir d).setXfer none).startCursor code x) :=
    exec_wTrxdir_cursor s h2 h3
  have frame := State.startCursor_frame ((s.setReg .trxdir d).setXfer none) code x
  have regs : (((s.setReg .trxdir d).setXfer none).startCursor code x).regs = s.regs.write .trxdir d := by
    rw [frame]
    rfl
  refine ⟨_, run, reg_stored regs, regs_kept regs, fun h => absurd h h3, fun _ hc => ?_, fun _ hc he => ?_,
    fun _ hc hw hh => ?_, by rw [regs]; exact frame⟩
  · exact State.startCursor_of_reserved _ x hc ▸ ⟨rfl, rfl, rfl⟩
  · exact State.startCursor_of_empty _ (x := x) hc he ▸ ⟨rfl, rfl, rfl⟩
  · exact State.startCursor_of_region _ (x := x) hc hw hh ▸ ⟨rfl, rfl, rfl⟩

end Sys2Proof.Machine

/-! # The data of an upload -/

namespace Sys2Proof.Machine

/-- A data word of an active upload in a format that is one (R490). -/
theorem State.transferWrite_of_upload {s : State} {x : TransferCursor} {p : Psm} (d : Word) (hx : s.xfer = some x)
    (hd : x.dir = .hostToLocal) (hp : Psm.ofCode x.dpsm = some p) :
    s.transferWrite d =
      { s with
        lm := (putData p s.lm x d).1
        xfer := if (putData p s.lm x d).2.full then none else some (putData p s.lm x d).2 } := by
  simp only [State.transferWrite, hx, hd, hp, if_true, Option.getD_some]

theorem State.transferWrite_of_no_upload {s : State} (d : Word) (h : ∀ x, s.xfer = some x → x.dir ≠ .hostToLocal) :
    s.transferWrite d = s := by
  rcases s.transferWrite_cases d with ⟨-, e⟩ | ⟨x, hx, hd, -⟩
  · exact e
  · exact absurd hd (h x hx)

/-- A data word finishes the region when the pixels that fit are all that were left (R490). -/
theorem TransferCursor.InRegion.full_putData (p : Psm) (lm : LocalMem) {x : TransferCursor} (h : x.InRegion) (d : Word)
    {n : Nat} {c : List Byte} (hr : (putData p lm x d).2 = { x.moved n with carry := c }) :
    (putData p lm x d).2.full = true ↔ x.passed + n = x.rrh * x.rrw := by
  rw [(putData_inRegion p lm h d).full_iff, (putData_same p lm x d).1, ← x.passed_moved n]
  simp only [TransferCursor.passed, hr]
  rw [(x.moved_same n).1]

/-- Settles O57: the effects of the pixels that the data word completes, put at a cursor that holds the new carry. -/
theorem hwregWrite : Obligations.HwregWrite := by
  constructor
  · intro d s h
    refine ⟨_, (Runs.hwreg d).exec_eq, ?_⟩
    rw [State.transferWrite_of_no_upload (s := s.setReg .hwreg d) d h]
    exact storesOnly_setReg s .hwreg d
  intro d s x p hx hok hd hp pixels n
  have inRegion := hok.inRegion'
  obtain ⟨cursor, placed, -, bytes, dirty, rising, free⟩ := putPixels_effects p pixels s.lm
    (x := { x with carry := (unpackData p x.carry d).2 }) ⟨inRegion.width, inRegion.height, inRegion.inside⟩
  rw [TransferCursor.moved_carry] at cursor
  simp only [TransferCursor.destElem, TransferCursor.moved_carry] at placed bytes dirty
  refine ⟨_, (Runs.hwreg d).exec_eq, ?_⟩
  rw [State.transferWrite_of_upload (s := s.setReg .hwreg d) d hx hd hp]
  refine ⟨reg_stored rfl, regs_kept rfl, ?_, fun x' hx' => ?_, placed, bytes, dirty, rising, free, rfl⟩
  · exact (ite_eq_left_iff.trans (by simp)).trans (inRegion.full_putData p s.lm d cursor)
  · dsimp only at hx'
    split at hx'
    · cases hx'
    · cases hx'
      exact cursor

end Sys2Proof.Machine

/-! # Primitive assembly: refused primitives, the rotation of the queue and the refusal conditions -/

namespace Sys2Proof.Machine

/-! ## A refused primitive -/

/-- Settles O36: a refused primitive only rotates the queue and notes its reason. -/
theorem refusedKickWritesNothing : Obligations.RefusedKickWritesNothing := by
  intro d s r hk c hc regs hr
  obtain ⟨p, kicks⟩ := kicks_of_mem_drawingKick hc
  refine ⟨_, kicks.exec_eq, ?_⟩
  have refused := State.kick_refused (s.setReg c.2.1 d) p (by rwa [kicks.primType_eq]) (by rwa [kicks.queued_eq])
  rw [refused, kicks.queued_eq, kicks.primType_eq]
  exact ⟨reg_stored rfl, regs_kept rfl, rfl, rfl, rfl, rfl⟩

/-! ## The queue after a primitive -/

/-- A line strip keeps its last vertex (R313). -/
theorem VertexQueue.rotate_lineStrip (q : VertexQueue) :
    (q.rotate .lineStrip).k = 1 ∧ (q.rotate .lineStrip).slot[0] = q.slot[1] :=
  ⟨rfl, Vector.getElem_set_self _⟩

/-- A triangle strip keeps its last two vertices; the first slot is not written again (R313). -/
theorem VertexQueue.rotate_triStrip (q : VertexQueue) :
    (q.rotate .triStrip).k = 2 ∧ (q.rotate .triStrip).slot[0] = q.slot[1] ∧
      (q.rotate .triStrip).slot[1] = q.slot[2] :=
  ⟨rfl, (Vector.getElem_set_ne (by decide) (by decide) (by decide)).trans (Vector.getElem_set_self _),
    Vector.getElem_set_self _⟩

/-- A triangle fan keeps its first and its last vertex (R313). -/
theorem VertexQueue.rotate_triFan (q : VertexQueue) :
    (q.rotate .triFan).k = 2 ∧ (q.rotate .triFan).slot[0] = q.slot[0] ∧ (q.rotate .triFan).slot[1] = q.slot[2] :=
  ⟨rfl, Vector.getElem_set_ne (by decide) (by decide) (by decide), Vector.getElem_set_self _⟩

/-- Settles O38: one clause for each type that keeps vertices; the other types set the count to 0. -/
theorem queueRotation : Obligations.QueueRotation := fun q =>
  ⟨rfl, rfl, rfl, rfl, q.rotate_lineStrip, q.rotate_triStrip, q.rotate_triFan⟩

/-! ## The formats that a primitive may name

By the rows of each table (R186); a code of the last row is none of those above it. -/

theorem Psm.isNone_ofCode (c : Nat) :
    (Psm.ofCode c).isNone =
      !([0x00, 0x01, 0x02, 0x0A, 0x13, 0x14, 0x1B, 0x24, 0x2C, 0x30, 0x31, 0x32, 0x3A].contains c) := by
  unfold Psm.ofCode
  split <;> simp_all

theorem isNone_frameFormat? (c : Nat) :
    (frameFormat? c).isNone = !([0x00, 0x01, 0x02, 0x0A, 0x30, 0x31, 0x32, 0x3A].contains c) := by
  unfold frameFormat? Psm.ofCode
  split <;> simp_all [Psm.indexed]

theorem isNone_clutFormat? (c : Nat) : (clutFormat? c).isNone = !([0x0, 0x2, 0xA].contains c) := by
  unfold clutFormat?
  split <;> simp_all

/-- A code that is no format is not an indexed one either, so the answer of `Env.texFmt` for it does not matter here. -/
theorem Env.indexed_texFmt (e : Env) : e.texFmt.indexed = [0x13, 0x14, 0x1B, 0x24, 0x2C].contains e.K.texPsm := by
  unfold Env.texFmt Psm.ofCode
  split <;> simp_all [Psm.indexed]

/-- ZBUF.PSM has four bits; with 0x30 before them they are a depth code (R60). -/
theorem Context.isNone_depthFormat? (K : Context) :
    (depthFormat? K.zPsm).isNone = !([0x0, 0x1, 0x2, 0xA].contains K.zPsm4) := by
  have four_bits : ∀ z : Fin 16, (depthFormat? (0x30 ||| z.val)).isNone = !([0x0, 0x1, 0x2, 0xA].contains z.val) := by
    decide
  exact four_bits (K.zbuf.extractLsb 27 24).toFin

/-! ## The first condition that holds -/

/-- The first reason of a list whose condition holds is found by trying the conditions in order. -/
theorem find?_reason_cons (b : Bool) (r : RefuseReason) (l : List (Bool × RefuseReason)) :
    (((b, r) :: l).find? (fun c => c.1)).map (fun c => c.2) =
      if b then some r else (l.find? (fun c => c.1)).map (fun c => c.2) := by
  cases b <;> rfl

/-- Settles O39: the model tries the same conditions in the same order, its formats told by their codes. -/
theorem refusalIsFirstCondition : Obligations.RefusalIsFirstCondition := by
  intro e t slot
  simp only [find?_reason_cons, List.find?_nil, Option.map_none, beq_iff_eq]
  simp only [refusalReason, scanmskMsk, usesDepth, reservedBlend, badTexture, badClut, isNone_frameFormat?,
    Context.isNone_depthFormat?, Psm.isNone_ofCode, isNone_clutFormat?, Env.indexed_texFmt]

end Sys2Proof.Machine

/-! # Points and lines

A Bresenham walk of m steps visits the ideal line rounded to pixels: after n steps it is at n * a / m along an axis of
length a, halves rounded up. -/

namespace Sys2Proof.Machine

/-! ## The ideal line, rounded -/

/-- The steps along an axis of length a after n of m steps of the walk: n * a / m rounded, halves up. -/
def axisSteps (m a n : Nat) : Nat := (2 * (n * a) + m) / (2 * m)

theorem axisSteps_eq_iff {m : Nat} (hm : 0 < m) (a n s : Nat) :
    axisSteps m a n = s ↔ 2 * (s * m) ≤ 2 * (n * a) + m ∧ 2 * (n * a) < 2 * (s * m) + m := by
  unfold axisSteps
  rw [Nat.div_eq_iff (by omega), ← Nat.mul_assoc, Nat.mul_comm s, Nat.mul_assoc]
  omega

@[simp] theorem axisSteps_zero (m a : Nat) : axisSteps m a 0 = 0 := by
  rcases m.eq_zero_or_pos with rfl | hm
  · simp [axisSteps]
  · rw [axisSteps_eq_iff hm]
    omega

theorem axisSteps_self {m a : Nat} (ha : a ≤ m) : axisSteps m a m = a := by
  rcases m.eq_zero_or_pos with rfl | hm
  · simp only [Nat.le_zero.1 ha, axisSteps_zero]
  · rw [axisSteps_eq_iff hm, Nat.mul_comm m]
    omega

/-- Along the longer axis every step of the walk is a step. -/
theorem axisSteps_longer {m : Nat} (hm : 0 < m) (n : Nat) : axisSteps m m n = n := by
  rw [axisSteps_eq_iff hm]
  omega

theorem axisSteps_near {m : Nat} (hm : 0 < m) (a n : Nat) :
    2 * (axisSteps m a n * m) ≤ 2 * (n * a) + m ∧ 2 * (n * a) < 2 * (axisSteps m a n * m) + m :=
  (axisSteps_eq_iff hm a n _).1 rfl

/-- Along an axis a step of the walk makes one step when the rounding goes up, and none otherwise. -/
theorem axisSteps_succ {m a : Nat} (hm : 0 < m) (ha : a ≤ m) (n : Nat) :
    axisSteps m a (n + 1) =
      axisSteps m a n + if 2 * (axisSteps m a n * m) + m ≤ 2 * ((n + 1) * a) then 1 else 0 := by
  have near := axisSteps_near hm a n
  rw [axisSteps_eq_iff hm, Nat.add_mul n]
  split_ifs with h
  · rw [Nat.add_mul]
    omega
  · rw [Nat.add_zero]
    omega

/-- The rounded position is within half a pixel of the ideal line: the walk's longer axis has length m. -/
theorem axisSteps_cross_le (a b n : Nat) :
    2 * ((axisSteps (max a b) a n : Int) * b - axisSteps (max a b) b n * a).natAbs ≤ max a b := by
  rcases (max a b).eq_zero_or_pos with h0 | hm
  · obtain ⟨rfl, rfl⟩ : a = 0 ∧ b = 0 := by omega
    simp
  have nearA := axisSteps_near hm a n
  have nearB := axisSteps_near hm b n
  simp only [← Int.natCast_mul]
  rcases max_choice a b with h | h
  all_goals
    rw [h] at hm nearA nearB ⊢
    rw [axisSteps_longer hm]
    omega

/-- The error term of R345 at the n-th pixel of the walk. -/
def axisError (a b n : Nat) : Int := a * (axisSteps (max a b) b n + 1) - b * (axisSteps (max a b) a n + 1)

/-- y is to x with the error term's sign turned. -/
theorem axisError_swap (a b n : Nat) : axisError b a n = -axisError a b n := by
  simp only [axisError, Nat.max_comm b a]
  ring

/-- The test of R345 on the error term of the rounded position is whether the rounding goes up. -/
theorem neg_le_two_mul_axisError_iff (a b n : Nat) (hm : 0 < max a b) :
    -(b : Int) ≤ 2 * axisError a b n ↔
      2 * (axisSteps (max a b) a n * max a b) + max a b ≤ 2 * ((n + 1) * a) := by
  have nearA := axisSteps_near hm a n
  have nearB := axisSteps_near hm b n
  simp only [axisError, mul_add, add_mul, one_mul, Int.mul_comm a, Int.mul_comm b, ← Int.natCast_mul]
  rcases max_choice a b with h | h
  all_goals
    rw [h] at hm nearA nearB ⊢
    rw [axisSteps_longer hm]
    omega

/-- The test for a step along x, by the error term (R345). -/
theorem axisSteps_succ_x {a b : Nat} (hm : 0 < max a b) (n : Nat) :
    axisSteps (max a b) a (n + 1) = axisSteps (max a b) a n + if -(b : Int) ≤ 2 * axisError a b n then 1 else 0 := by
  rw [axisSteps_succ hm (le_max_left a b)]
  simp only [neg_le_two_mul_axisError_iff a b n hm]

/-- The test for a step along y, by the error term (R345). -/
theorem axisSteps_succ_y {a b : Nat} (hm : 0 < max a b) (n : Nat) :
    axisSteps (max a b) b (n + 1) = axisSteps (max a b) b n + if 2 * axisError a b n ≤ a then 1 else 0 := by
  rw [max_comm] at hm ⊢
  rw [axisSteps_succ_x hm, axisError_swap]
  congr 2
  exact propext (by omega)

/-! ## The walk -/

/-- The length of a line along its longer axis. -/
def lineLength (p0 p1 : Pixel) : Nat := max (p1.1 - p0.1).natAbs (p1.2 - p0.2).natAbs

/-- The n-th pixel of a line: the ideal line rounded on both axes. -/
def linePixel (p0 p1 : Pixel) (n : Nat) : Pixel :=
  (p0.1 + (lineWalk p0 p1).sx * axisSteps (lineLength p0 p1) (p1.1 - p0.1).natAbs n,
    p0.2 + (lineWalk p0 p1).sy * axisSteps (lineLength p0 p1) (p1.2 - p0.2).natAbs n)

/-- A direction of the walk times the distance is the signed distance (R345). -/
theorem direction_mul_natAbs (u v : Int) : (if u < v then 1 else -1) * ((v - u).natAbs : Int) = v - u := by
  split_ifs <;> omega

theorem lineWalk_sx_mul (p0 p1 : Pixel) : (lineWalk p0 p1).sx * (p1.1 - p0.1).natAbs = p1.1 - p0.1 :=
  direction_mul_natAbs _ _

theorem lineWalk_sy_mul (p0 p1 : Pixel) : (lineWalk p0 p1).sy * (p1.2 - p0.2).natAbs = p1.2 - p0.2 :=
  direction_mul_natAbs _ _

@[simp] theorem linePixel_zero (p0 p1 : Pixel) : linePixel p0 p1 0 = p0 := by simp [linePixel]

@[simp] theorem linePixel_last (p0 p1 : Pixel) : linePixel p0 p1 (lineLength p0 p1) = p1 := by
  have hx : axisSteps (lineLength p0 p1) (p1.1 - p0.1).natAbs (lineLength p0 p1) = _ := axisSteps_self (le_max_left _ _)
  have hy : axisSteps (lineLength p0 p1) (p1.2 - p0.2).natAbs (lineLength p0 p1) = _ :=
    axisSteps_self (le_max_right _ _)
  simp only [linePixel, hx, hy, lineWalk_sx_mul, lineWalk_sy_mul, add_sub_cancel]

/-- Before its last step the walk has not reached the end: it has a way to go on the longer axis. -/
theorem linePixel_ne_last {p0 p1 : Pixel} {n : Nat} (hn : n < lineLength p0 p1) : linePixel p0 p1 n ≠ p1 := by
  intro h
  obtain ⟨hx, hy⟩ := Prod.ext_iff.1 h
  have reached {u v : Int} (l : u + (if u < v then 1 else -1) * (n : Int) = v) : n = (v - u).natAbs := by
    split_ifs at l <;> omega
  have hm : 0 < lineLength p0 p1 := by omega
  unfold linePixel lineLength at hx hy
  unfold lineLength at hn hm
  rcases max_choice (p1.1 - p0.1).natAbs (p1.2 - p0.2).natAbs with hmax | hmax <;> rw [hmax] at hx hy hn hm
  · rw [axisSteps_longer hm] at hx
    exact hn.ne (reached hx)
  · rw [axisSteps_longer hm] at hy
    exact hn.ne (reached hy)

/-- One step of the walk from its n-th pixel (R345). -/
theorem linePixel_succ {p0 p1 : Pixel} {n : Nat} (hn : n < lineLength p0 p1) :
    let err := axisError (p1.1 - p0.1).natAbs (p1.2 - p0.2).natAbs n
    let w := lineWalk p0 p1
    linePixel p0 p1 (n + 1) =
      (if w.dy ≤ 2 * err then (linePixel p0 p1 n).1 + w.sx else (linePixel p0 p1 n).1,
        if 2 * err ≤ w.dx then (linePixel p0 p1 n).2 + w.sy else (linePixel p0 p1 n).2) := by
  have hm : 0 < lineLength p0 p1 := by omega
  simp only [linePixel, lineLength, axisSteps_succ_x hm, axisSteps_succ_y hm]
  simp only [lineWalk]
  congr 1 <;> split_ifs <;> push_cast <;> ring

/-- The error term takes the deltas of the steps taken (R345). -/
theorem axisError_succ {a b n : Nat} (hm : 0 < max a b) :
    axisError a b (n + 1) = axisError a b n + (if -(b : Int) ≤ 2 * axisError a b n then -(b : Int) else 0) +
      (if 2 * axisError a b n ≤ a then (a : Int) else 0) := by
  conv_lhs => unfold axisError
  rw [axisSteps_succ_x hm, axisSteps_succ_y hm]
  split_ifs <;> push_cast <;> unfold axisError <;> ring

/-- The walk from its n-th pixel, with fuel for the k steps that are left, visits the pixels from there to the end. -/
theorem pixels_lineWalk (p0 p1 : Pixel) {n k fuel : Nat} (hn : n + k = lineLength p0 p1) (hf : k < fuel) :
    (lineWalk p0 p1).pixels fuel (linePixel p0 p1 n).1 (linePixel p0 p1 n).2
        (axisError (p1.1 - p0.1).natAbs (p1.2 - p0.2).natAbs n) =
      (List.range' n (k + 1)).map (linePixel p0 p1) := by
  induction k generalizing n fuel with
  | zero =>
    obtain ⟨fuel, rfl⟩ := Nat.exists_eq_succ_of_ne_zero (by omega : fuel ≠ 0)
    obtain rfl : n = lineLength p0 p1 := hn
    simp [Walk.pixels, lineWalk]
  | succ k ih =>
    obtain ⟨fuel, rfl⟩ := Nat.exists_eq_succ_of_ne_zero (by omega : fuel ≠ 0)
    have hlt : n < lineLength p0 p1 := by omega
    have goes_on : ¬((linePixel p0 p1 n).1 = (lineWalk p0 p1).x1 ∧ (linePixel p0 p1 n).2 = (lineWalk p0 p1).y1) :=
      fun h => linePixel_ne_last hlt (Prod.ext h.1 h.2)
    have rest := ih (n := n + 1) (fuel := fuel) (by omega) (by omega)
    rw [linePixel_succ hlt, axisError_succ (Nat.zero_lt_of_lt hlt)] at rest
    rw [List.range'_succ, List.map_cons, ← rest, Walk.pixels, if_neg goes_on]
    rfl

/-- A Bresenham line is the ideal line rounded to pixels (R345). -/
theorem linePixels_eq (p0 p1 : Pixel) :
    linePixels p0 p1 = (List.range (lineLength p0 p1 + 1)).map (linePixel p0 p1) := by
  have walk := pixels_lineWalk p0 p1 (Nat.zero_add _)
    (show lineLength p0 p1 < (p1.1 - p0.1).natAbs + (p1.2 - p0.2).natAbs + 1 by unfold lineLength; omega)
  rw [linePixel_zero, ← List.range_eq_range'] at walk
  rw [← walk]
  simp [linePixels, axisError, lineWalk, sub_eq_add_neg]

/-! ## Its distance from the ideal line -/

/-- A step of the walk moves by at most one pixel on each axis (R345). -/
theorem linePixel_succ_near {p0 p1 : Pixel} {n : Nat} (hn : n < lineLength p0 p1) :
    ((linePixel p0 p1 (n + 1)).1 - (linePixel p0 p1 n).1).natAbs ≤ 1 ∧
      ((linePixel p0 p1 (n + 1)).2 - (linePixel p0 p1 n).2).natAbs ≤ 1 := by
  rw [linePixel_succ hn]
  simp only [lineWalk]
  constructor <;> split_ifs <;> omega

/-- A direction of the walk does not change a distance. -/
theorem natAbs_direction (p : Prop) [Decidable p] : (if p then (1 : Int) else -1).natAbs = 1 := by split_ifs <;> rfl

/-- Every pixel of the walk is within half a pixel of the ideal line (R345). -/
theorem linePixel_near_ideal (p0 p1 : Pixel) (n : Nat) :
    2 * (((linePixel p0 p1 n).1 - p0.1) * (p1.2 - p0.2) - ((linePixel p0 p1 n).2 - p0.2) * (p1.1 - p0.1)).natAbs ≤
      lineLength p0 p1 := by
  have cross := axisSteps_cross_le (p1.1 - p0.1).natAbs (p1.2 - p0.2).natAbs n
  have turned : ((linePixel p0 p1 n).1 - p0.1) * (p1.2 - p0.2) - ((linePixel p0 p1 n).2 - p0.2) * (p1.1 - p0.1) =
      (lineWalk p0 p1).sx * (lineWalk p0 p1).sy *
        (axisSteps (lineLength p0 p1) (p1.1 - p0.1).natAbs n * ((p1.2 - p0.2).natAbs : Int) -
          axisSteps (lineLength p0 p1) (p1.2 - p0.2).natAbs n * ((p1.1 - p0.1).natAbs : Int)) := by
    simp only [linePixel]
    linear_combination
      (lineWalk p0 p1).sy * axisSteps (lineLength p0 p1) (p1.2 - p0.2).natAbs n * lineWalk_sx_mul p0 p1 -
        (lineWalk p0 p1).sx * axisSteps (lineLength p0 p1) (p1.1 - p0.1).natAbs n * lineWalk_sy_mul p0 p1
  rw [turned, Int.natAbs_mul, Int.natAbs_mul]
  simp only [lineWalk, natAbs_direction, one_mul]
  exact cross

/-- Settles O40: the line is the ideal line rounded, one pixel a step. -/
theorem lineFollowsIdealLine : Obligations.LineFollowsIdealLine := by
  intro p0 p1 ps m
  have line : ps = (List.range (m + 1)).map (linePixel p0 p1) := linePixels_eq p0 p1
  rw [line]
  refine ⟨by simp, by simp [List.head?_range], ?_, ?_, ?_⟩
  · rw [List.range_succ, List.map_append, List.map_singleton, List.getLast?_concat]
    exact congrArg some (linePixel_last p0 p1)
  · rw [List.isChain_map, List.isChain_range_succ]
    exact fun n hn => linePixel_succ_near hn
  · intro p hp
    obtain ⟨n, -, rfl⟩ := List.mem_map.1 hp
    exact linePixel_near_ideal p0 p1 n

/-! ## The fragments of points and lines -/

/-- A window pixel is 16 units wide (R330). -/
theorem floor_div_sixteen (u : Int) : 16 * (u / 16) ≤ u ∧ u < 16 * (u / 16) + 16 := by omega

/-- Settles O41: both primitives make flat fragments of the pixels in the scissor. -/
theorem pointAndLineFragments : Obligations.PointAndLineFragments := by
  intro e v0 v1
  refine ⟨fun h => if_pos h, fun h => if_neg (by simp [h]), ?_, ?_, floor_div_sixteen _, floor_div_sixteen _⟩
  · simp only [lineFrags, List.map_map]
    exact List.map_id _
  · intro fr hfr
    obtain ⟨p, -, rfl⟩ := List.mem_map.1 hfr
    exact ⟨rfl, rfl, rfl, rfl⟩

end Sys2Proof.Machine

/-! # Triangles and sprites

Both keep some pixels of a rectangle and make one fragment of each, so their places and order are those of the rectangle's
pixels (R335). -/

namespace Sys2Proof.Machine

/-! ## The fragments of a list of pixels -/

/-- Fragments made of the chosen pixels of a rectangle, each at its pixel, come by rows (R335). -/
theorem pairwise_map_filter_rectPixels {mk : Pixel → Frag} (hmk : ∀ p, ((mk p).x, (mk p).y) = p) (keep : Pixel → Bool)
    (x0 x1 y0 y1 : Int) :
    (((rectPixels x0 x1 y0 y1).filter keep).map mk).Pairwise (fun f g => f.y < g.y ∨ (f.y = g.y ∧ f.x < g.x)) := by
  have hx (p : Pixel) : (mk p).x = p.1 := congrArg Prod.fst (hmk p)
  have hy (p : Pixel) : (mk p).y = p.2 := congrArg Prod.snd (hmk p)
  rw [List.pairwise_map]
  simp only [hx, hy]
  exact (pairwise_rectPixels x0 x1 y0 y1).filter keep

/-- The places of fragments made of a list of pixels, each at its pixel, are those pixels. -/
theorem exists_frag_at_iff {mk : Pixel → Frag} (hmk : ∀ p, ((mk p).x, (mk p).y) = p) (ps : List Pixel) (x y : Int) :
    (∃ fr ∈ ps.map mk, fr.x = x ∧ fr.y = y) ↔ (x, y) ∈ ps := by
  simp only [List.mem_map, exists_exists_and_eq_and, ← Prod.mk.injEq]
  simp only [hmk, exists_eq_right]

/-! ## The coverage of a triangle -/

theorem triFrags_of_area_zero {e : Env} {v0 v1 v2 : Vertex} (h : (triSetup e.K v0 v1 v2).area = 0) :
    triFrags e v0 v1 v2 = [] := if_pos h

theorem triFrags_of_area {e : Env} {v0 v1 v2 : Vertex} (h : (triSetup e.K v0 v1 v2).area ≠ 0) :
    triFrags e v0 v1 v2 =
      ((triBox e.K (triSetup e.K v0 v1 v2).p0 (triSetup e.K v0 v1 v2).p1 (triSetup e.K v0 v1 v2).p2).filter
        (fun p => (triSetup e.K v0 v1 v2).covers p && inScissor e.K p)).map ((triSetup e.K v0 v1 v2).frag e.attr) :=
  if_neg h

/-- A covered pixel of the scissor is one of the pixels tried (R351). -/
theorem mem_triBox {K : Context} {t : Tri} (area : t.area = edge t.p0 t.p1 t.p2) (pos : 0 < t.area) {p : Pixel}
    (hc : t.covers p = true) (hs : inScissor K p = true) : p ∈ triBox K t.p0 t.p1 t.p2 := by
  obtain ⟨h0, h1, h2⟩ := (Tri.covers_iff t p).1 hc
  obtain ⟨⟨xlo, xhi⟩, ylo, yhi⟩ := edge_box (area ▸ pos) h0 h1 h2
  obtain ⟨⟨sxlo, sxhi⟩, sylo, syhi⟩ := inScissor_iff.1 hs
  exact mem_rectPixels.2 ⟨⟨max_le xlo sxlo, le_min xhi sxhi⟩, max_le ylo sylo, le_min yhi syhi⟩

/-- A triangle with an area has a fragment at each covered pixel of the scissor (R351, R352). -/
theorem triFrags_at_iff (e : Env) (v0 v1 v2 : Vertex) (x y : Int) :
    (∃ fr ∈ triFrags e v0 v1 v2, fr.x = x ∧ fr.y = y) ↔
      (triSetup e.K v0 v1 v2).area ≠ 0 ∧ (triSetup e.K v0 v1 v2).covers (x, y) = true ∧
        inScissor e.K (x, y) = true := by
  obtain ⟨nonneg, area, -⟩ := triSetup_area e.K v0 v1 v2
  by_cases h : (triSetup e.K v0 v1 v2).area = 0
  · simp [triFrags_of_area_zero h, h]
  · rw [triFrags_of_area h, exists_frag_at_iff (fun _ => rfl), List.mem_filter, Bool.and_eq_true]
    exact ⟨fun ⟨_, kept⟩ => ⟨h, kept⟩, fun ⟨_, hc, hs⟩ => ⟨mem_triBox area (by omega) hc hs, hc, hs⟩⟩

/-- Settles O42: of the bounding box, which leaves out no covered pixel, the fragments keep the covered ones. -/
theorem triangleCoverage : Obligations.TriangleCoverage := by
  intro e v0 v1 v2 p0 p1 p2 area side
  obtain ⟨-, -, areaZero⟩ := triSetup_area e.K v0 v1 v2
  constructor
  · intro x y
    rw [triFrags_at_iff, Ne, areaZero]
    refine and_congr_right fun h => ?_
    rw [triSetup_covers e.K v0 v1 v2 (x, y) h]
    exact and_comm
  · by_cases h : (triSetup e.K v0 v1 v2).area = 0
    · rw [triFrags_of_area_zero h]
      exact List.Pairwise.nil
    · rw [triFrags_of_area h]
      exact pairwise_map_filter_rectPixels (fun _ => rfl) _ _ _ _ _

/-! ## The attributes of a triangle -/

/-- A fragment of a triangle is made at a covered pixel, with an area that is not 0 (R352, R353). -/
theorem frag_of_mem_triFrags {e : Env} {v0 v1 v2 : Vertex} {fr : Frag} (h : fr ∈ triFrags e v0 v1 v2) :
    ∃ p, fr = (triSetup e.K v0 v1 v2).frag e.attr p ∧ 0 < (triSetup e.K v0 v1 v2).area ∧
      (triSetup e.K v0 v1 v2).covers p = true := by
  obtain ⟨nonneg, -, -⟩ := triSetup_area e.K v0 v1 v2
  by_cases area : (triSetup e.K v0 v1 v2).area = 0
  · rw [triFrags_of_area_zero area] at h
    cases h
  · rw [triFrags_of_area area] at h
    obtain ⟨p, hp, rfl⟩ := List.mem_map.1 h
    exact ⟨p, rfl, by omega, (Bool.and_eq_true_iff.1 (List.mem_filter.1 hp).2).1⟩

/-- The winding fix only reorders the vertices, so a bound of all three stays one (R350). -/
theorem forall_vertex_triSetup {K : Context} {v0 v1 v2 : Vertex} {P : Vertex → Prop} (h0 : P v0) (h1 : P v1)
    (h2 : P v2) :
    P (triSetup K v0 v1 v2).v0 ∧ P (triSetup K v0 v1 v2).v1 ∧ P (triSetup K v0 v1 v2).v2 := by
  rcases triSetup_cases K v0 v1 v2 with ⟨-, e⟩ | ⟨-, e⟩ <;> rw [e]
  · exact ⟨h0, h2, h1⟩
  · exact ⟨h0, h1, h2⟩

/-- An interpolated integer stays inside any bounds of the three vertices' values (R333, R353). -/
theorem triSetup_interp_bounds {K : Context} {v0 v1 v2 : Vertex} {p : Pixel}
    (pos : 0 < (triSetup K v0 v1 v2).area) (hc : (triSetup K v0 v1 v2).covers p = true) {a : Vertex → Int} {lo hi : Int}
    (h0 : lo ≤ a v0 ∧ a v0 ≤ hi) (h1 : lo ≤ a v1 ∧ a v1 ≤ hi) (h2 : lo ≤ a v2 ∧ a v2 ≤ hi) :
    lo ≤ (triSetup K v0 v1 v2).interp a p ∧ (triSetup K v0 v1 v2).interp a p ≤ hi := by
  obtain ⟨-, area, -⟩ := triSetup_area K v0 v1 v2
  obtain ⟨w0, w1, w2⟩ := (Tri.covers_iff _ p).1 hc
  obtain ⟨⟨l0, u0⟩, ⟨l1, u1⟩, l2, u2⟩ := forall_vertex_triSetup (K := K) (P := fun v => lo ≤ a v ∧ a v ≤ hi) h0 h1 h2
  exact bary_between pos ((edge_sum _ _ _ p).trans area.symm) w0 w1 w2 l0 l1 l2 u0 u1 u2

/-- An interpolated integer lies between the smallest and the largest value of the vertices (R333, R353). -/
theorem triSetup_interp_between {K : Context} {v0 v1 v2 : Vertex} {p : Pixel}
    (pos : 0 < (triSetup K v0 v1 v2).area) (hc : (triSetup K v0 v1 v2).covers p = true) (a : Vertex → Int) :
    min3 (a v0) (a v1) (a v2) ≤ (triSetup K v0 v1 v2).interp a p ∧
      (triSetup K v0 v1 v2).interp a p ≤ max3 (a v0) (a v1) (a v2) := by
  refine triSetup_interp_bounds pos hc ?_ ?_ ?_ <;> simp only [min3, max3] <;> omega

theorem triSetup_kick (K : Context) (v0 v1 v2 : Vertex) : (triSetup K v0 v1 v2).kick = v2 := by
  rcases triSetup_cases K v0 v1 v2 with ⟨-, e⟩ | ⟨-, e⟩ <;> rw [e]

/-- The depth of a triangle's fragment is interpolated from depths, so it is not negative (R353). -/
theorem triSetup_frag_z {K : Context} {v0 v1 v2 : Vertex} {p : Pixel} (a : Attr)
    (pos : 0 < (triSetup K v0 v1 v2).area) (hc : (triSetup K v0 v1 v2).covers p = true) :
    (((triSetup K v0 v1 v2).frag a p).z : Int) = (triSetup K v0 v1 v2).interp (fun v => v.z.toNat) p :=
  Int.toNat_of_nonneg (le_trans (by simp only [min3]; omega) (triSetup_interp_between pos hc (fun v => v.z.toNat)).1)

@[simp] theorem Tri.frag_f (t : Tri) (a : Attr) (p : Pixel) : (t.frag a p).f = t.interp (fun v => v.f.toNat) p := rfl

theorem Tri.frag_c_smooth (t : Tri) {a : Attr} (p : Pixel) (h : a.iip = true) :
    (t.frag a p).c = ⟨t.interp (fun v => v.r.toNat) p, t.interp (fun v => v.g.toNat) p,
      t.interp (fun v => v.b.toNat) p, t.interp (fun v => v.a.toNat) p⟩ := if_pos h

theorem Tri.frag_c_flat (t : Tri) {a : Attr} (p : Pixel) (h : a.iip = false) : (t.frag a p).c = t.kick.colour :=
  if_neg (by simp [h])

theorem Tri.frag_tc_uv (t : Tri) {a : Attr} (p : Pixel) (h : a.fst = true) :
    (t.frag a p).tc = .uv (t.interp (fun v => v.u.toNat) p) (t.interp (fun v => v.v.toNat) p) := if_pos h

theorem Tri.frag_tc_stq (t : Tri) {a : Attr} (p : Pixel) (h : a.fst = false) :
    (t.frag a p).tc = .stq (t.interpRat (fun v => f32Rat v.s) p) (t.interpRat (fun v => f32Rat v.t) p)
      (t.interpRat (fun v => f32Rat v.q) p) := if_neg (by simp [h])

/-- Settles O43: the values are those of the vertices in queue order, the bounds those of a weighted mean. -/
theorem triangleAttributes : Obligations.TriangleAttributes := by
  intro e v0 v1 v2 fr hfr
  obtain ⟨p, rfl, pos, hc⟩ := frag_of_mem_triFrags hfr
  intro p0 p1 p2 weight area w0 w1 w2 bary quotient between
  have floored (a : Vertex → Nat) : (triSetup e.K v0 v1 v2).interp (fun v => a v) p = bary a :=
    triSetup_interp e.K v0 v1 v2 (fun v => a v) p
  have exactly (a : Vertex → BitVec 32) :
      (triSetup e.K v0 v1 v2).interpRat (fun v => f32Rat (a v)) p = quotient a :=
    triSetup_interpRat e.K v0 v1 v2 (fun v => f32Rat (a v)) p
  have bounded (a : Vertex → Nat) : between (bary a) a := floored a ▸ triSetup_interp_between pos hc (fun v => a v)
  have z := (triSetup_frag_z e.attr pos hc).trans (floored fun v => v.z.toNat)
  have f := ((triSetup e.K v0 v1 v2).frag_f e.attr p).trans (floored fun v => v.f.toNat)
  have smooth (iip : e.attr.iip = true) := (triSetup e.K v0 v1 v2).frag_c_smooth p iip
  have uv (fst : e.attr.fst = true) := (triSetup e.K v0 v1 v2).frag_tc_uv p fst
  have stq (fst : e.attr.fst = false) := (triSetup e.K v0 v1 v2).frag_tc_stq p fst
  simp only [floored] at smooth uv
  rw [exactly (fun v => v.s), exactly (fun v => v.t), exactly (fun v => v.q)] at stq
  refine ⟨z, f, smooth, fun iip => ?_, uv, stq, ?_, ?_, fun iip => ?_, fun fst => ?_⟩
  · rw [Tri.frag_c_flat _ p iip, triSetup_kick]
  · rw [z]
    exact bounded (fun v => v.z.toNat)
  · rw [f]
    exact bounded (fun v => v.f.toNat)
  · rw [smooth iip]
    exact ⟨bounded (fun v => v.r.toNat), bounded (fun v => v.g.toNat), bounded (fun v => v.b.toNat),
      bounded (fun v => v.a.toNat)⟩
  · exact ⟨_, _, uv fst, bounded (fun v => v.u.toNat), bounded (fun v => v.v.toNat)⟩

/-! ## Sprites -/

theorem mem_spriteRect {pa pb p : Pixel} :
    p ∈ rectPixels (min pa.1 pb.1) (max pa.1 pb.1 - 1) (min pa.2 pb.2) (max pa.2 pb.2 - 1) ↔
      min pa.1 pb.1 ≤ p.1 ∧ p.1 < max pa.1 pb.1 ∧ min pa.2 pb.2 ≤ p.2 ∧ p.2 < max pa.2 pb.2 := by
  rw [mem_rectPixels]
  omega

/-- A fragment of a sprite is made at a pixel of its rectangle (R365, R366). -/
theorem frag_of_mem_spriteFrags {e : Env} {v0 v1 : Vertex} {fr : Frag} (h : fr ∈ spriteFrags e v0 v1) :
    ∃ p, fr = spriteFrag e.attr v0 v1 (win e.K v0) (win e.K v1) p ∧
      (min (win e.K v0).1 (win e.K v1).1 ≤ p.1 ∧ p.1 < max (win e.K v0).1 (win e.K v1).1) ∧
      min (win e.K v0).2 (win e.K v1).2 ≤ p.2 ∧ p.2 < max (win e.K v0).2 (win e.K v1).2 := by
  obtain ⟨p, hp, rfl⟩ := List.mem_map.1 h
  exact ⟨p, rfl, and_assoc.2 (mem_spriteRect.1 (List.mem_filter.1 hp).1)⟩

/-- A range from the smaller of two ends to before the larger is empty when they are equal (R365). -/
theorem sub_ne_zero_of_between {a b x : Int} (h : min a b ≤ x ∧ x < max a b) : b - a ≠ 0 := by omega

/-- Settles O44: its fragments are those of its rectangle, where no denominator is 0. -/
theorem spriteFragments : Obligations.SpriteFragments := by
  intro e v0 v1 pa pb
  refine ⟨fun x y => ?_, pairwise_map_filter_rectPixels (fun _ => rfl) _ _ _ _ _, fun fr hfr => ?_⟩
  · rw [spriteFrags, exists_frag_at_iff (fun _ => rfl), List.mem_filter, mem_spriteRect]
    exact and_comm
  · obtain ⟨p, rfl, hx, hy⟩ := frag_of_mem_spriteFrags hfr
    intro dx dy lerp along mean
    have dx_ne : dx ≠ 0 := sub_ne_zero_of_between hx
    have dy_ne : dy ≠ 0 := sub_ne_zero_of_between hy
    have floored (a b : Nat) (num : Int) {den : Int} (h : den ≠ 0) : lerpFloor a b num den = lerp a b num den :=
      lerpFloor_eq a b num den h
    have channel (a b : Nat) : spriteChannel a b pa pb p = mean a b :=
      floored a b _ (mul_ne_zero (mul_ne_zero two_ne_zero dx_ne) dy_ne)
    have constant {a b : BitVec 8} (h : a = b) : spriteChannel a.toNat b.toNat pa pb p = b.toNat :=
      h ▸ lerpFloor_self _ _ _
    refine ⟨dx_ne, dy_ne, rfl, rfl, ?_, fun fst => ?_, fun fst => ?_, constant, constant, constant⟩
    · rw [← channel, ← channel, ← channel]
      rfl
    · rw [← floored _ _ _ dx_ne, ← floored _ _ _ dy_ne]
      exact if_pos fst
    · exact if_neg (by simp [fst])

end Sys2Proof.Machine

/-! # Source colours

Every channel has 8 bits at a vertex and in a texel, and every operation on the way to the source colour keeps 8 bits
(R332, R416). -/

namespace Sys2Proof.Machine

/-- A colour whose four channels have 8 bits. -/
def Colour.Bytes (c : Colour) : Prop := Byte8 c.r ∧ Byte8 c.g ∧ Byte8 c.b ∧ Byte8 c.a

theorem byte8_toNat (v : BitVec 8) : Byte8 v.toNat := ⟨Int.natCast_nonneg _, by have := v.isLt; omega⟩

theorem byte8_zero : Byte8 0 := ⟨le_rfl, by decide⟩

theorem byte8_min_255 {v : Int} (h : 0 ≤ v) : Byte8 (min 255 v) := ⟨le_min (by decide) h, min_le_left _ _⟩

theorem byte8_ite {p : Prop} [Decidable p] {u v : Int} (hu : Byte8 u) (hv : Byte8 v) : Byte8 (if p then u else v) := by
  split_ifs
  · exact hu
  · exact hv

/-! ## Texels -/

/-- A channel of five bits, shifted left by three (R401). -/
theorem byte8_toNat_mul_eight (v : BitVec 5) : Byte8 ((v.toNat : Int) * 8) := by
  have := v.isLt
  exact ⟨by omega, by omega⟩

theorem byte8_texaTa0 (texa : Word) : Byte8 (texaTa0 texa) := byte8_toNat (texa.extractLsb 7 0)

theorem byte8_texaTa1 (texa : Word) : Byte8 (texaTa1 texa) := byte8_toNat (texa.extractLsb 39 32)

theorem byte8_texaAlpha24 (texa : Word) (raw : VWord) : Byte8 (texaAlpha24 texa raw) :=
  byte8_ite byte8_zero (byte8_texaTa0 texa)

theorem byte8_texaAlpha16 (texa : Word) (raw : VWord) : Byte8 (texaAlpha16 texa raw) :=
  byte8_ite (byte8_texaTa1 texa) (byte8_ite byte8_zero (byte8_texaTa0 texa))

theorem bytes_colour8 (raw : VWord) {a : Int} (h : Byte8 a) : (colour8 raw a).Bytes :=
  ⟨byte8_toNat (raw.extractLsb 7 0), byte8_toNat (raw.extractLsb 15 8), byte8_toNat (raw.extractLsb 23 16), h⟩

theorem bytes_colour5 (raw : VWord) {a : Int} (h : Byte8 a) : (colour5 raw a).Bytes :=
  ⟨byte8_toNat_mul_eight (raw.extractLsb 4 0), byte8_toNat_mul_eight (raw.extractLsb 9 5),
    byte8_toNat_mul_eight (raw.extractLsb 14 10), h⟩

/-- Whatever the raw bits, a decoded texel has 8 bits a channel (R401, R402). -/
theorem bytes_decodeTexel (texa : Word) (p : Psm) (raw : VWord) : (decodeTexel texa p raw).Bytes := by
  unfold decodeTexel
  split
  · exact bytes_colour8 raw (byte8_toNat (raw.extractLsb 31 24))
  · exact bytes_colour8 raw (byte8_texaAlpha24 texa raw)
  · exact bytes_colour5 raw (byte8_texaAlpha16 texa raw)

/-- A texel is decoded from VRAM, from the CLUT or from a free value (R400, R404, R575). -/
theorem bytes_texelAt (e : Env) (lm : LocalMem) (i j key : Nat) : (texelAt e lm i j key).Bytes := by
  unfold texelAt
  split
  · exact bytes_decodeTexel _ _ _
  · exact bytes_decodeTexel _ _ _

/-! ## Filters -/

/-- The bilinear filter stays inside any bounds of its four texels: the weights are not negative and add up to 256
(R398). -/
theorem bilinear_between {fu fv c00 c10 c01 c11 lo hi : Int} (fu0 : 0 ≤ fu) (fu16 : fu < 16) (fv0 : 0 ≤ fv)
    (fv16 : fv < 16) (h00 : lo ≤ c00 ∧ c00 ≤ hi) (h10 : lo ≤ c10 ∧ c10 ≤ hi) (h01 : lo ≤ c01 ∧ c01 ≤ hi)
    (h11 : lo ≤ c11 ∧ c11 ≤ hi) :
    lo ≤ bilinear fu fv c00 c10 c01 c11 ∧ bilinear fu fv c00 c10 c01 c11 ≤ hi := by
  have w00 : 0 ≤ (16 - fu) * (16 - fv) := mul_nonneg (by omega) (by omega)
  have w10 : 0 ≤ fu * (16 - fv) := mul_nonneg fu0 (by omega)
  have w01 : 0 ≤ (16 - fu) * fv := mul_nonneg (by omega) fv0
  have w11 : 0 ≤ fu * fv := mul_nonneg fu0 fv0
  constructor
  · refine (Int.le_ediv_iff_mul_le (by decide)).2 ?_
    linarith [mul_le_mul_of_nonneg_left h00.1 w00, mul_le_mul_of_nonneg_left h10.1 w10,
      mul_le_mul_of_nonneg_left h01.1 w01, mul_le_mul_of_nonneg_left h11.1 w11]
  · refine Int.le_of_lt_add_one ((Int.ediv_lt_iff_lt_mul (by decide)).2 ?_)
    linarith [mul_le_mul_of_nonneg_left h00.2 w00, mul_le_mul_of_nonneg_left h10.2 w10,
      mul_le_mul_of_nonneg_left h01.2 w01, mul_le_mul_of_nonneg_left h11.2 w11]

theorem bytes_sampleBilinear (e : Env) (lm : LocalMem) (U V : Int) : (sampleBilinear e lm U V).Bytes := by
  have filtered {c00 c10 c01 c11 : Int} (h00 : Byte8 c00) (h10 : Byte8 c10) (h01 : Byte8 c01) (h11 : Byte8 c11) :
      Byte8 (bilinear ((U - 8) % 16) ((V - 8) % 16) c00 c10 c01 c11) :=
    bilinear_between (by omega) (by omega) (by omega) (by omega) h00 h10 h01 h11
  obtain ⟨r00, g00, b00, a00⟩ := bytes_texelAt e lm (wrapU e.K ((U - 8) / 16)) (wrapV e.K ((V - 8) / 16)) 0
  obtain ⟨r10, g10, b10, a10⟩ := bytes_texelAt e lm (wrapU e.K ((U - 8) / 16 + 1)) (wrapV e.K ((V - 8) / 16)) 1
  obtain ⟨r01, g01, b01, a01⟩ := bytes_texelAt e lm (wrapU e.K ((U - 8) / 16)) (wrapV e.K ((V - 8) / 16 + 1)) 2
  obtain ⟨r11, g11, b11, a11⟩ := bytes_texelAt e lm (wrapU e.K ((U - 8) / 16 + 1)) (wrapV e.K ((V - 8) / 16 + 1)) 3
  exact ⟨filtered r00 r10 r01 r11, filtered g00 g10 g01 g11, filtered b00 b10 b01 b11, filtered a00 a10 a01 a11⟩

theorem bytes_sampleTex (e : Env) (lm : LocalMem) (tc : TexCoord) : (sampleTex e lm tc).Bytes := by
  unfold sampleTex
  split
  · exact bytes_sampleBilinear e lm _ _
  · exact bytes_texelAt e lm _ _ _

/-! ## Texture function and fog -/

theorem modulate_nonneg {t f : Int} (ht : Byte8 t) (hf : Byte8 f) : 0 ≤ modulate t f :=
  Int.ediv_nonneg (mul_nonneg ht.1 hf.1) (by decide)

theorem byte8_tfxChannel (tfx : Nat) {t f fa : Int} (ht : Byte8 t) (hf : Byte8 f) (ha : Byte8 fa) :
    Byte8 (tfxChannel tfx t f fa) := by
  unfold tfxChannel
  split
  · exact byte8_min_255 (modulate_nonneg ht hf)
  · exact ht
  · exact byte8_min_255 (add_nonneg (modulate_nonneg ht hf) ha.1)

theorem byte8_tfxAlpha (tfx : Nat) (tcc : Bool) {ta fa : Int} (ht : Byte8 ta) (hf : Byte8 fa) :
    Byte8 (tfxAlpha tfx tcc ta fa) := by
  unfold tfxAlpha
  refine byte8_ite ?_ hf
  split
  · exact byte8_min_255 (modulate_nonneg ht hf)
  · exact byte8_min_255 (add_nonneg ht.1 hf.1)
  · exact ht

theorem bytes_tfxColour (K : Context) {t f : Colour} (ht : t.Bytes) (hf : f.Bytes) : (tfxColour K t f).Bytes := by
  obtain ⟨tr, tg, tb, ta⟩ := ht
  obtain ⟨fr, fg, fb, fa⟩ := hf
  exact ⟨byte8_tfxChannel _ tr fr fa, byte8_tfxChannel _ tg fg fa, byte8_tfxChannel _ tb fb fa,
    byte8_tfxAlpha _ _ ta fa⟩

/-- Fog takes a mean of two channels over 256 with weights that add up to 255 (R415). -/
theorem byte8_fogChannel {f c fc : Int} (hf : Byte8 f) (hc : Byte8 c) (hfc : Byte8 fc) : Byte8 (fogChannel f c fc) := by
  obtain ⟨f0, f255⟩ := hf
  have rest : 0 ≤ 255 - f := by omega
  have low : 0 ≤ f * c + (255 - f) * fc := add_nonneg (mul_nonneg f0 hc.1) (mul_nonneg rest hfc.1)
  have high : f * c + (255 - f) * fc ≤ f * 255 + (255 - f) * 255 :=
    add_le_add (mul_le_mul_of_nonneg_left hc.2 f0) (mul_le_mul_of_nonneg_left hfc.2 rest)
  unfold fogChannel
  exact ⟨by omega, by omega⟩

theorem bytes_fogColour (fogcol : Word) {f : Int} {c : Colour} (hf : Byte8 f) (hc : c.Bytes) :
    (fogColour fogcol f c).Bytes := by
  obtain ⟨r, g, b, a⟩ := hc
  exact ⟨byte8_fogChannel hf r (byte8_toNat (fogcol.extractLsb 7 0)),
    byte8_fogChannel hf g (byte8_toNat (fogcol.extractLsb 15 8)),
    byte8_fogChannel hf b (byte8_toNat (fogcol.extractLsb 23 16)), a⟩

/-- A fragment's source colour has 8 bits a channel when its own colour and fog have (R380, R416). -/
theorem bytes_sourceColour (e : Env) (lm : LocalMem) {fr : Frag} (hc : fr.c.Bytes) (hf : Byte8 fr.f) :
    (sourceColour e lm fr).Bytes := by
  have textured : (if e.attr.tme then tfxColour e.K (sampleTex e lm fr.tc) fr.c else fr.c).Bytes := by
    split
    · exact bytes_tfxColour e.K (bytes_sampleTex e lm fr.tc) hc
    · exact hc
  unfold sourceColour
  dsimp only
  split
  · exact bytes_fogColour _ hf textured
  · exact textured

/-! ## The fragments of the primitives -/

theorem Vertex.bytes_colour (v : Vertex) : v.colour.Bytes :=
  ⟨byte8_toNat v.r, byte8_toNat v.g, byte8_toNat v.b, byte8_toNat v.a⟩

theorem bytes_pointFrags {e : Env} {v : Vertex} {fr : Frag} (h : fr ∈ pointFrags e v) : fr.c.Bytes ∧ Byte8 fr.f := by
  unfold pointFrags at h
  split at h
  · rw [List.mem_singleton.1 h]
    exact ⟨v.bytes_colour, byte8_toNat v.f⟩
  · cases h

theorem bytes_lineFrags {e : Env} {v0 v1 : Vertex} {fr : Frag} (h : fr ∈ lineFrags e v0 v1) :
    fr.c.Bytes ∧ Byte8 fr.f := by
  obtain ⟨p, -, rfl⟩ := List.mem_map.1 h
  exact ⟨v1.bytes_colour, byte8_toNat v1.f⟩

theorem bytes_triFrags {e : Env} {v0 v1 v2 : Vertex} {fr : Frag} (h : fr ∈ triFrags e v0 v1 v2) :
    fr.c.Bytes ∧ Byte8 fr.f := by
  obtain ⟨p, rfl, pos, hc⟩ := frag_of_mem_triFrags h
  have interpolated (a : Vertex → BitVec 8) : Byte8 ((triSetup e.K v0 v1 v2).interp (fun v => (a v).toNat) p) :=
    triSetup_interp_bounds pos hc (byte8_toNat (a v0)) (byte8_toNat (a v1)) (byte8_toNat (a v2))
  refine ⟨?_, interpolated Vertex.f⟩
  cases iip : e.attr.iip
  · rw [Tri.frag_c_flat _ p iip]
    exact Vertex.bytes_colour _
  · rw [Tri.frag_c_smooth _ p iip]
    exact ⟨interpolated Vertex.r, interpolated Vertex.g, interpolated Vertex.b, interpolated Vertex.a⟩

/-- A position from one end of a range to the other, scaled by the range: its sign does not matter any more. -/
theorem scaled_between {a b x : Int} (h : min a b ≤ x ∧ x < max a b) :
    0 ≤ (x - a) * (b - a) ∧ (x - a) * (b - a) ≤ (b - a) * (b - a) := by
  rcases le_total a b with hab | hab
  · exact ⟨mul_nonneg (by omega) (by omega), mul_le_mul_of_nonneg_right (by omega) (by omega)⟩
  · exact ⟨mul_nonneg_of_nonpos_of_nonpos (by omega) (by omega), mul_le_mul_of_nonpos_right (by omega) (by omega)⟩

/-- A floored linear interpolation at 0 ≤ num / den ≤ 1, whatever the signs, stays between its ends (R333). -/
theorem lerpFloor_between_of_scaled {a0 a1 num den lo hi : Int} (hd : den ≠ 0)
    (h : 0 ≤ num * den ∧ num * den ≤ den * den) (h0 : lo ≤ a0 ∧ a0 ≤ hi) (h1 : lo ≤ a1 ∧ a1 ≤ hi) :
    lo ≤ lerpFloor a0 a1 num den ∧ lerpFloor a0 a1 num den ≤ hi := by
  rcases hd.lt_or_gt with neg | pos
  · exact lerpFloor_between_neg neg (nonpos_of_mul_nonneg_left h.1 neg) ((mul_le_mul_right_of_neg neg).1 h.2)
      h0.1 h1.1 h0.2 h1.2
  · exact lerpFloor_between pos (nonneg_of_mul_nonneg_left h.1 pos) (le_of_mul_le_mul_right h.2 pos)
      h0.1 h1.1 h0.2 h1.2

/-- In the rectangle of a sprite the mean of the two normalized positions is between 0 and 1, so a channel stays inside
any bounds of the corners' values (R366). -/
theorem spriteChannel_between {c0 c1 : Nat} {pa pb p : Pixel} {lo hi : Int}
    (hx : min pa.1 pb.1 ≤ p.1 ∧ p.1 < max pa.1 pb.1) (hy : min pa.2 pb.2 ≤ p.2 ∧ p.2 < max pa.2 pb.2)
    (h0 : lo ≤ c0 ∧ (c0 : Int) ≤ hi) (h1 : lo ≤ c1 ∧ (c1 : Int) ≤ hi) :
    lo ≤ spriteChannel c0 c1 pa pb p ∧ spriteChannel c0 c1 pa pb p ≤ hi := by
  have dx := sub_ne_zero_of_between hx
  have dy := sub_ne_zero_of_between hy
  obtain ⟨x0, x1⟩ := scaled_between hx
  obtain ⟨y0, y1⟩ := scaled_between hy
  have sx := mul_self_nonneg (pb.1 - pa.1)
  have sy := mul_self_nonneg (pb.2 - pa.2)
  refine lerpFloor_between_of_scaled (mul_ne_zero (mul_ne_zero two_ne_zero dx) dy) ⟨?_, ?_⟩ h0 h1
  · linarith [mul_nonneg x0 sy, mul_nonneg y0 sx]
  · linarith [mul_le_mul_of_nonneg_right x1 sy, mul_le_mul_of_nonneg_right y1 sx]

theorem bytes_spriteFrags {e : Env} {v0 v1 : Vertex} {fr : Frag} (h : fr ∈ spriteFrags e v0 v1) :
    fr.c.Bytes ∧ Byte8 fr.f := by
  obtain ⟨p, rfl, hx, hy⟩ := frag_of_mem_spriteFrags h
  have channel (a b : BitVec 8) : Byte8 (spriteChannel a.toNat b.toNat (win e.K v0) (win e.K v1) p) :=
    spriteChannel_between hx hy (byte8_toNat a) (byte8_toNat b)
  exact ⟨⟨channel v0.r v1.r, channel v0.g v1.g, channel v0.b v1.b, byte8_toNat v1.a⟩, byte8_toNat v1.f⟩

/-- The colour and the fog of every fragment have 8 bits (R332). -/
theorem bytes_primFrags {e : Env} {t : PrimType} {slot : Vector Vertex 4} {fr : Frag} (h : fr ∈ primFrags e t slot) :
    fr.c.Bytes ∧ Byte8 fr.f := by
  cases t with
  | point => exact bytes_pointFrags h
  | line | lineStrip => exact bytes_lineFrags h
  | triangle | triStrip | triFan => exact bytes_triFrags h
  | sprite => exact bytes_spriteFrags h

/-- Settles O49: every fragment starts with 8 bits a channel, and texture and fog keep them. -/
theorem sourceColourHas8Bits : Obligations.SourceColourHas8Bits := by
  intro e lm t slot fr h
  obtain ⟨colour, fog⟩ := bytes_primFrags h
  exact bytes_sourceColour e lm colour fog

end Sys2Proof.Machine

/-! # Texture

The sampler and the texture function as the rules write them: floor shifts for the model's quotients by powers of two,
bits cut at a position and a length for its register fields (R380 to R415). -/

namespace Sys2Proof.Machine

/-! ## Wrap modes -/

theorem field_lt (v : Word) (hi lo : Nat) : field v hi lo < 2 ^ (hi - lo + 1) := (v.extractLsb hi lo).isLt

/-- The low ten bits of an integer are those of its two's complement (R16). -/
theorem testBit_emod_1024 (c : Int) (i : Nat) :
    (c % 1024).toNat.testBit i = (decide (i < 10) && (BitVec.ofInt 64 c).getLsbD i) := by
  have low : (c % 1024).toNat = (BitVec.ofInt 64 c).toNat % 2 ^ 10 := by
    rw [BitVec.toNat_ofInt]
    omega
  rw [low, Nat.testBit_mod_two_pow, BitVec.testBit_toNat]

/-- REPEAT gives the one column of the texture that is congruent to c. -/
theorem wrapTexel_repeat {size : Nat} (hs : 0 < size) (lo hi : Nat) (c : Int) :
    wrapTexel 0 size lo hi c < size ∧ (size : Int) ∣ (wrapTexel 0 size lo hi c : Int) - c := by
  have column : (wrapTexel 0 size lo hi c : Int) = c % size := Int.toNat_of_nonneg (Int.emod_nonneg c (by omega))
  have below : c % size < size := Int.emod_lt_of_pos c (by omega)
  exact ⟨by omega, column ▸ Int.dvd_emod_sub_self⟩

theorem wrapTexel_clamp {size : Nat} (hs : 0 < size) (lo hi : Nat) (c : Int) :
    (wrapTexel 1 size lo hi c : Int) = min (max c 0) (size - 1) :=
  Int.toNat_of_nonneg (le_min (le_max_right _ _) (by omega))

/-- When the bounds of a region cross, its maximum wins. -/
theorem wrapTexel_regionClamp (size lo hi : Nat) (c : Int) :
    (wrapTexel 2 size lo hi c : Int) = min (max c lo) hi :=
  Int.toNat_of_nonneg (le_min (le_max_of_le_right (Int.natCast_nonneg lo)) (Int.natCast_nonneg hi))

/-- A mask of ten bits meets none of the bits of c that the model drops. -/
theorem wrapTexel_regionRepeat (size : Nat) {lo : Nat} (hlo : lo < 2 ^ 10) (hi : Nat) (c : Int) (i : Nat) :
    (wrapTexel 3 size lo hi c).testBit i = (((BitVec.ofInt 64 c).getLsbD i && lo.testBit i) || hi.testBit i) := by
  change (((c % 1024).toNat &&& lo) ||| hi).testBit i = _
  rw [Nat.testBit_or, Nat.testBit_and, testBit_emod_1024]
  by_cases low : i < 10
  · simp [low]
  · have dropped : lo.testBit i = false :=
      Nat.testBit_lt_two_pow (hlo.trans_le (Nat.pow_le_pow_right two_pos (not_lt.1 low)))
    simp [dropped]

/-- The four modes of one axis of a texture of 2^n texels (R390). -/
theorem wrapTexel_modes (mode n : Nat) {lo : Nat} (hlo : lo < 2 ^ 10) (hi : Nat) (c : Int) :
    (mode = 0 → wrapTexel mode (2 ^ n) lo hi c < 2 ^ n ∧
      ((2 ^ n : Nat) : Int) ∣ (wrapTexel mode (2 ^ n) lo hi c : Int) - c) ∧
    (mode = 1 → (wrapTexel mode (2 ^ n) lo hi c : Int) = min (max c 0) ((2 ^ n : Nat) - 1)) ∧
    (mode = 2 → (wrapTexel mode (2 ^ n) lo hi c : Int) = min (max c lo) hi) ∧
    (mode = 3 → ∀ i, (wrapTexel mode (2 ^ n) lo hi c).testBit i =
      (((BitVec.ofInt 64 c).getLsbD i && lo.testBit i) || hi.testBit i)) := by
  have positive : 0 < 2 ^ n := Nat.two_pow_pos n
  refine ⟨?_, ?_, ?_, ?_⟩ <;> rintro rfl
  · exact wrapTexel_repeat positive lo hi c
  · exact wrapTexel_clamp positive lo hi c
  · exact wrapTexel_regionClamp _ lo hi c
  · exact wrapTexel_regionRepeat _ hlo hi c

/-- Settles O45: columns and rows are reduced by the same function, with masks of ten bits. -/
theorem wrapModes : Obligations.WrapModes := by
  intro K c
  obtain ⟨repeatU, clampU, regionClampU, regionRepeatU⟩ :=
    wrapTexel_modes K.wms K.tw (field_lt K.clamp 13 4) K.maxu c
  exact ⟨repeatU, clampU, regionClampU, regionRepeatU, wrapTexel_modes K.wmt K.th (field_lt K.clamp 33 24) K.maxv c⟩

/-! ## Filters -/

theorem bilinear_eq_shiftRight (fu fv c00 c10 c01 c11 : Int) :
    bilinear fu fv c00 c10 c01 c11 =
      ((16 - fu) * (16 - fv) * c00 + fu * (16 - fv) * c10 + (16 - fu) * fv * c01 + fu * fv * c11) >>> (8 : Nat) :=
  (Int.shiftRight_eq_div_pow _ 8).symm

/-- The whole part of a coordinate in sixteenths. -/
theorem div_sixteen_eq_shiftRight (u : Int) : u / 16 = u >>> (4 : Nat) := (Int.shiftRight_eq_div_pow u 4).symm

/-- At the centre of its first texel the filter gives that texel the whole weight (R398). -/
theorem bilinear_zero_zero (c00 c10 c01 c11 : Int) : bilinear 0 0 c00 c10 c01 c11 = c00 := by
  unfold bilinear
  omega

theorem sampleTex_of_nearest {e : Env} (h : e.K.mmag = false) (lm : LocalMem) (tc : TexCoord) :
    sampleTex e lm tc = sampleNearest e lm (texelCoord e lm.free tc).1 (texelCoord e lm.free tc).2 :=
  if_neg (by simp [h])

theorem sampleTex_of_bilinear {e : Env} (h : e.K.mmag = true) (lm : LocalMem) (tc : TexCoord) :
    sampleTex e lm tc = sampleBilinear e lm (texelCoord e lm.free tc).1 (texelCoord e lm.free tc).2 := if_pos h

/-! ## Coordinates -/

/-- The floor of a coordinate scaled to a texture of 2^n texels, in sixteenths (R382). -/
theorem floor_scaled_between (x : Rat) (n : Nat) :
    ((x * (2 ^ n * 16 : Nat)).floor : Rat) ≤ x * 2 ^ n * 16 ∧ x * 2 ^ n * 16 < (x * (2 ^ n * 16 : Nat)).floor + 1 := by
  have scaled : x * 2 ^ n * 16 = x * (2 ^ n * 16 : Nat) := by push_cast; ring
  rw [scaled]
  exact ⟨Rat.floor_le _, by exact_mod_cast Rat.lt_floor_add_one _⟩

theorem texelCoord_stq (e : Env) (n : Nat) (s t : Rat) {q : Rat} (hq : q ≠ 0) :
    texelCoord e n (.stq s t q) =
      ((s / q * (2 ^ e.K.tw * 16 : Nat)).floor, (t / q * (2 ^ e.K.th * 16 : Nat)).floor) := if_neg hq

theorem texelCoord_stq_zero (e : Env) (n : Nat) (s t : Rat) :
    texelCoord e n (.stq s t 0) = (Config.freeU n, Config.freeV n) := by
  rw [texelCoord, if_pos rfl]

/-! ## Texels and the CLUT -/

theorem Psm.indexed_iff (p : Psm) : p.indexed = true ↔ p ∈ [Psm.t8, .t4, .t8h, .t4hl, .t4hh] := by
  cases p <;> decide

/-- An 8-bit index with its bits 3 and 4 exchanged. -/
def exchangeBits34 (i : Nat) : Nat := (i &&& 0xE7) ||| ((i &&& 0x08) <<< 1) ||| ((i &&& 0x10) >>> 1)

theorem csm1Place_wide (i : Nat) : csm1Place true i = (exchangeBits34 i % 16, exchangeBits34 i / 16) := rfl

theorem csm1Place_narrow (i : Nat) : csm1Place false i = (i % 8, i / 8) := rfl

theorem exchangeBits34_lt (i : Nat) : exchangeBits34 i < 2 ^ 8 := by
  have kept : i &&& 0xE7 ≤ 0xE7 := Nat.and_le_right
  have up : i &&& 0x08 ≤ 0x08 := Nat.and_le_right
  have down : i &&& 0x10 ≤ 0x10 := Nat.and_le_right
  refine Nat.or_lt_two_pow (Nat.or_lt_two_pow (by omega) ?_) ?_
  · rw [Nat.shiftLeft_eq]
    omega
  · rw [Nat.shiftRight_eq_div_pow]
    omega

theorem testBit_exchangeBits34 {i : Nat} (hi : i < 2 ^ 8) (b : Nat) :
    (exchangeBits34 i).testBit b = i.testBit (if b = 3 then 4 else if b = 4 then 3 else b) := by
  by_cases hb : b < 8
  · have kept : (0xE7).testBit b = (decide (b ≠ 3) && decide (b ≠ 4)) := by interval_cases b <;> rfl
    have bit3 (n : Nat) : (0x08).testBit n = decide (3 = n) := @Nat.testBit_two_pow 3 n
    have bit4 (n : Nat) : (0x10).testBit n = decide (4 = n) := @Nat.testBit_two_pow 4 n
    simp only [exchangeBits34, Nat.testBit_or, Nat.testBit_and, Nat.testBit_shiftLeft, Nat.testBit_shiftRight, kept,
      bit3, bit4]
    interval_cases b <;> simp
  · have beyond {v : Nat} (hv : v < 2 ^ 8) : v.testBit b = false :=
      Nat.testBit_lt_two_pow (hv.trans_le (Nat.pow_le_pow_right two_pos (not_lt.1 hb)))
    rw [if_neg (by omega), if_neg (by omega), beyond (exchangeBits34_lt i), beyond hi]

theorem clutEntry_csm1_wide {e : Env} (h : e.K.csm = false) (wide : e.texFmt.bits = 8) (lm : LocalMem) (i key : Nat) :
    clutEntry e lm i key = decodeTexel (e.regs.read .texa) e.clutFmt
      (readTexRaw e lm e.clutFmt e.K.cbp 1 (exchangeBits34 i % 16) (exchangeBits34 i / 16) key) := by
  simp only [clutEntry, h, wide, Bool.false_eq_true, if_false, BEq.rfl, csm1Place_wide]

theorem clutEntry_csm1_narrow {e : Env} (h : e.K.csm = false) (narrow : e.texFmt.bits = 4) (lm : LocalMem)
    (i key : Nat) :
    clutEntry e lm i key = decodeTexel (e.regs.read .texa) e.clutFmt
      (readTexRaw e lm e.clutFmt e.K.cbp 1 (i % 8) (i / 8) key) := by
  have not_wide : (4 == 8) = false := rfl
  simp only [clutEntry, h, narrow, Bool.false_eq_true, if_false, not_wide, csm1Place_narrow]

theorem clutEntry_csm2 {e : Env} (h : e.K.csm = true) (lm : LocalMem) (i key : Nat) :
    clutEntry e lm i key = decodeTexel (e.regs.read .texa) e.clutFmt
      (readTexRaw e lm e.clutFmt e.K.cbp (texclutCbw (e.regs.read .texclut))
        (texclutCou (e.regs.read .texclut) * 16 + i) (texclutCov (e.regs.read .texclut)) key) := by
  simp only [clutEntry, h, if_true]

/-! ## Reads -/

theorem readTexRaw_of_clean {e : Env} {lm : LocalMem} {p : Psm} {bp bw x y : Nat}
    (h : p.wordAt bp bw x y ∉ lm.dirty) (key : Nat) :
    readTexRaw e lm p bp bw x y key = lm.vram.readRaw p bp bw x y := if_neg (by simp [h])

theorem readTexRaw_of_dirty {e : Env} {lm : LocalMem} {p : Psm} {bp bw x y : Nat} (he : e.cfg.strictTexflush = true)
    (h : p.wordAt bp bw x y ∈ lm.dirty) (key : Nat) :
    readTexRaw e lm p bp bw x y key = Config.freeTexel lm.free key &&& lowMask p.bits := if_pos (by simp [he, h])

/-- Settles O48: clause by clause, from the filter to the words it reads. -/
theorem bilinearBetweenTexels : Obligations.BilinearBetweenTexels := by
  refine ⟨?filter, ?sample, ?coord, ?texel, ?clut, ?read⟩
  case filter =>
    intro fu fv c00 c10 c01 c11 lo hi fu0 fu16 fv0 fv16 l00 h00 l10 h10 l01 h01 l11 h11
    obtain ⟨low, high⟩ := bilinear_between fu0 fu16 fv0 fv16 ⟨l00, h00⟩ ⟨l10, h10⟩ ⟨l01, h01⟩ ⟨l11, h11⟩
    exact ⟨low, high, bilinear_zero_zero .., bilinear_eq_shiftRight ..⟩
  case sample =>
    intro e lm tc
    simp only [← bilinear_eq_shiftRight, ← div_sixteen_eq_shiftRight]
    exact ⟨fun h => sampleTex_of_nearest h lm tc, fun h => sampleTex_of_bilinear h lm tc⟩
  case coord =>
    intro e n
    refine ⟨fun u v => rfl, fun s t q hq => ?_, fun s t => texelCoord_stq_zero e n s t⟩
    obtain ⟨lowU, highU⟩ := floor_scaled_between (s / q) e.K.tw
    obtain ⟨lowV, highV⟩ := floor_scaled_between (t / q) e.K.th
    exact ⟨_, _, texelCoord_stq e n s t hq, lowU, highU, lowV, highV⟩
  case texel =>
    intro e lm i j k
    simp only [← Psm.indexed_iff]
    exact ⟨fun h => if_neg h, fun h => if_pos h⟩
  case clut =>
    intro e lm i k
    refine ⟨fun h wide hi => ?_, fun h narrow _ => clutEntry_csm1_narrow h narrow lm i k,
      fun h => clutEntry_csm2 h lm i k⟩
    have row := exchangeBits34_lt i
    refine ⟨_, _, by omega, by omega, clutEntry_csm1_wide h wide lm i k, fun b => ?_⟩
    rw [Nat.div_add_mod, testBit_exchangeBits34 hi]
  case read =>
    intro e lm p bp bw x y k
    refine ⟨fun h => ?_, fun he h => readTexRaw_of_dirty he h k⟩
    obtain he | h := h
    · exact readTexRaw_eq_readRaw he lm p bp bw x y k
    · exact readTexRaw_of_clean h k

/-! ## Texel decode -/

/-- A run of bits is 0 as a number when it is 0 as bits. -/
theorem rawField_beq_zero (raw : VWord) (hi lo : Nat) :
    (rawField raw hi lo == 0) = decide (raw.extractLsb hi lo = 0) := by
  rw [Bool.eq_iff_iff, beq_iff_eq, decide_eq_true_iff, rawField, Int.natCast_eq_zero, BitVec.toNat_eq]
  rfl

theorem texaAlpha24_eq (texa : Word) (raw : VWord) :
    texaAlpha24 texa raw =
      if texa.getLsbD 15 = true ∧ raw.extractLsb' 0 24 = 0#24 then 0 else ((texa.extractLsb' 0 8).toNat : Int) := by
  unfold texaAlpha24
  simp only [rawField_beq_zero, Bool.and_eq_true, decide_eq_true_iff]
  rfl

theorem texaAlpha16_eq (texa : Word) (raw : VWord) :
    texaAlpha16 texa raw =
      if raw.getLsbD 15 then ((texa.extractLsb' 32 8).toNat : Int)
      else if texa.getLsbD 15 = true ∧ raw.extractLsb' 0 15 = 0#15 then 0
      else ((texa.extractLsb' 0 8).toNat : Int) := by
  unfold texaAlpha16
  simp only [rawField_beq_zero, Bool.and_eq_true, decide_eq_true_iff]
  rfl

/-- Settles O46: by the width of the format, and for 24 and 16 bits by the alpha that TEXA gives. -/
theorem texelDecode : Obligations.TexelDecode := by
  intro texa p raw
  refine ⟨fun h => ?_, fun h => ?_, fun h => ?_⟩
  · rcases h with rfl | rfl <;> rfl
  · rcases h with rfl | rfl <;> exact congrArg (colour8 raw) (texaAlpha24_eq texa raw)
  · rcases h with rfl | rfl | rfl | rfl <;> exact congrArg (colour5 raw) (texaAlpha16_eq texa raw)

/-! ## Texture function and fog -/

theorem modulate_eq_shiftRight (t f : Int) : modulate t f = (t * f) >>> (7 : Nat) :=
  (Int.shiftRight_eq_div_pow (t * f) 7).symm

theorem fogChannel_eq_shiftRight (f c fc : Int) : fogChannel f c fc = (f * c + (255 - f) * fc) >>> (8 : Nat) :=
  (Int.shiftRight_eq_div_pow _ 8).symm

/-- MODULATE, DECAL and the two highlight modes, whose colour is the same (R410). -/
theorem tfxChannel_eq (tfx : Nat) (t f fa : Int) :
    tfxChannel tfx t f fa =
      if tfx = 0 then min 255 ((t * f) >>> (7 : Nat))
      else if tfx = 1 then t
      else min 255 (((t * f) >>> (7 : Nat)) + fa) := by
  unfold tfxChannel
  rw [modulate_eq_shiftRight]
  split <;> simp_all

theorem tfxAlpha_eq (tfx : Nat) (tcc : Bool) (ta fa : Int) :
    tfxAlpha tfx tcc ta fa =
      if tcc = false then fa
      else if tfx = 0 then min 255 ((ta * fa) >>> (7 : Nat))
      else if tfx = 2 then min 255 (ta + fa)
      else ta := by
  unfold tfxAlpha
  rw [modulate_eq_shiftRight]
  cases tcc
  · rfl
  · simp only [if_true, Bool.true_eq_false, if_false]
    split <;> simp_all

/-- Settles O47: channel by channel. -/
theorem textureFunctionAndFog : Obligations.TextureFunctionAndFog := by
  constructor
  · intro K t f
    simp only [← tfxChannel_eq, ← tfxAlpha_eq]
    rfl
  · intro fogcol f c
    simp only [← fogChannel_eq_shiftRight]
    rfl

end Sys2Proof.Machine

/-! # The pixel pipeline

Tests, output colour and writes of one fragment as the rules write them (R430 to R471). -/

namespace Sys2Proof.Machine

/-! ## The depth write -/

/-- The low n bits of a word are its value modulo 2^n. -/
theorem toNat_and_lowMask (v : VWord) {n : Nat} (hn : n ≤ 32) : (v &&& lowMask n).toNat = v.toNat % 2 ^ n := by
  have mask : (2 ^ n - 1) % 2 ^ 32 = 2 ^ n - 1 :=
    Nat.mod_eq_of_lt (by have := Nat.pow_le_pow_right two_pos hn; omega)
  rw [lowMask, BitVec.toNat_and, BitVec.toNat_ofNat, mask, Nat.and_two_pow_sub_one_eq_mod]

theorem clampZ_lt (e : Env) (z : Nat) : clampZ e z < 2 ^ e.zFmt.bits :=
  lt_of_le_of_lt (min_le_right _ _) (Nat.sub_lt (Nat.two_pow_pos _) Nat.one_pos)

/-- A depth that fits the depth format reads back as written (R465). -/
theorem depthRaw_writeDepth (e : Env) (lm : LocalMem) (x y : Nat) {zf : Nat} (h : zf < 2 ^ e.zFmt.bits) :
    (depthRaw e (writeDepth e lm x y zf) x y).toNat = zf := by
  have bits := e.zFmt.bits_le
  have word : zf < 2 ^ 32 := h.trans_le (Nat.pow_le_pow_right two_pos bits)
  calc (depthRaw e (writeDepth e lm x y zf) x y).toNat
      = (BitVec.ofNat 32 zf &&& lowMask e.zFmt.bits).toNat :=
        congrArg BitVec.toNat (Memory.readRaw_writeRaw_same _ _ _ _ _ _ _)
    _ = zf % 2 ^ 32 % 2 ^ e.zFmt.bits := by rw [toNat_and_lowMask _ bits, BitVec.toNat_ofNat]
    _ = zf := by rw [Nat.mod_eq_of_lt word, Nat.mod_eq_of_lt h]

/-- A fragment that writes depth writes it last, to whatever its frame write has left (R471). -/
theorem writeFragment_of_depth (e : Env) (lm : LocalMem) (x y zf : Nat) (c : Colour) {o : WriteKind}
    (hm : e.K.zMsk = false) (ho : o = .full ∨ o = .zbOnly) :
    ∃ l, writeFragment e lm x y zf c o = writeDepth e l x y zf :=
  ⟨_, if_pos ⟨ho, hm⟩⟩

/-- Settles O54: the depth write comes last and the clamped depth fits its format. -/
theorem depthWrittenLast : Obligations.DepthWrittenLast := by
  intro e lm x y z c o
  refine ⟨fun hm ho => ?_, fun a ha => writeFragment_readByte e lm x y _ c o ha⟩
  obtain ⟨l, last⟩ := writeFragment_of_depth e lm x y (clampZ e z) c hm ho
  rw [last]
  exact depthRaw_writeDepth e l x y (clampZ_lt e z)

/-! ## The packed colour -/

/-- A channel without its low k bits, at bit s of a pixel (R459). -/
def channelBits (n : Int) (k s : Nat) : VWord := BitVec.ofInt 32 (n / 2 ^ k) <<< s

/-- Red, green and blue without their low k bits, one after the other from bit 0 (R459). -/
def rgbBits (c : Colour) (k : Nat) : VWord :=
  channelBits c.r k 0 ||| channelBits c.g k (8 - k) ||| channelBits c.b k (2 * (8 - k))

theorem packColour_of_bits_32 {p : Psm} (h : p.bits = 32) (c : Colour) :
    packColour p c = rgbBits c 0 ||| channelBits c.a 0 24 := by
  simp [packColour, h, rgbBits, channelBits]

theorem packColour_of_bits_24 {p : Psm} (h : p.bits = 24) (c : Colour) : packColour p c = rgbBits c 0 := by
  simp [packColour, h, rgbBits, channelBits]

theorem packColour_of_bits_16 {p : Psm} (h : p.bits = 16) (c : Colour) :
    packColour p c = rgbBits c 3 ||| channelBits c.a 7 15 := by
  simp [packColour, h, rgbBits, channelBits]

/-- A channel of 8 bits has no bit from bit 8 on. -/
theorem testBit_of_byte8 {n : Int} (h : Byte8 n) {i : Nat} (hi : 8 ≤ i) : n.toNat.testBit i = false := by
  obtain ⟨n0, n255⟩ := h
  have small : n.toNat < 2 ^ 8 := by omega
  exact Nat.testBit_lt_two_pow (small.trans_le (Nat.pow_le_pow_right two_pos hi))

/-- A packed channel is bits k to 7 of the channel, from bit s on. -/
theorem getLsbD_channelBits {n : Int} (h : Byte8 n) (k s : Nat) {i : Nat} (hi : i < 32) :
    (channelBits n k s).getLsbD i = if s ≤ i ∧ i + k < s + 8 then n.toNat.testBit (i - s + k) else false := by
  have quotient : n / 2 ^ k = ((n.toNat / 2 ^ k : Nat) : Int) := by
    rw [Int.natCast_ediv, Int.toNat_of_nonneg h.1, Nat.cast_pow, Nat.cast_ofNat]
  rw [channelBits, quotient, BitVec.ofInt_natCast, BitVec.getLsbD_shiftLeft, BitVec.getLsbD_ofNat,
    Nat.testBit_div_two_pow]
  by_cases low : i < s
  · simp [low, Nat.not_le.2 low]
  · by_cases high : i + k < s + 8
    · simp [hi, low, high, Nat.le_of_not_lt low, show i - s < 32 by omega]
    · rw [testBit_of_byte8 h (show 8 ≤ i - s + k by omega)]
      simp

/-- The three fields lie side by side, so each bit is of one channel. -/
theorem getLsbD_rgbBits {c : Colour} (hc : c.Bytes) {k : Nat} (hk : k ≤ 8) {i : Nat} (hi : i < 32) :
    (rgbBits c k).getLsbD i =
      if i < 8 - k then c.r.toNat.testBit (i + k)
      else if i < 2 * (8 - k) then c.g.toNat.testBit (i - (8 - k) + k)
      else if i < 3 * (8 - k) then c.b.toNat.testBit (i - 2 * (8 - k) + k) else false := by
  obtain ⟨hr, hg, hb, -⟩ := hc
  simp only [rgbBits, BitVec.getLsbD_or, getLsbD_channelBits hr _ _ hi, getLsbD_channelBits hg _ _ hi,
    getLsbD_channelBits hb _ _ hi]
  have place : i < 8 - k ∨ (8 - k ≤ i ∧ i < 2 * (8 - k)) ∨ (2 * (8 - k) ≤ i ∧ i < 3 * (8 - k)) ∨
      3 * (8 - k) ≤ i := by omega
  rcases place with red | green | blue | above <;>
    simp (disch := omega) only [if_pos, if_neg, Bool.or_false, Nat.sub_zero] <;> rfl

theorem getLsbD_packColour_of_bits_32 {p : Psm} (h : p.bits = 32) {c : Colour} (hc : c.Bytes) {i : Nat}
    (hi : i < 32) :
    (packColour p c).getLsbD i =
      if i < 8 then c.r.toNat.testBit i else if i < 16 then c.g.toNat.testBit (i - 8)
      else if i < 24 then c.b.toNat.testBit (i - 16) else c.a.toNat.testBit (i - 24) := by
  have ⟨_, _, _, ha⟩ := hc
  rw [packColour_of_bits_32 h, BitVec.getLsbD_or, getLsbD_rgbBits hc (by decide) hi, getLsbD_channelBits ha _ _ hi]
  by_cases alpha : 24 ≤ i
  · simp (disch := omega) only [if_pos, if_neg, Bool.false_or, Nat.add_zero]
  · simp (disch := omega) only [if_pos, if_neg, Bool.or_false]
    rfl

theorem getLsbD_packColour_of_bits_24 {p : Psm} (h : p.bits = 24) {c : Colour} (hc : c.Bytes) {i : Nat}
    (hi : i < 24) :
    (packColour p c).getLsbD i =
      if i < 8 then c.r.toNat.testBit i else if i < 16 then c.g.toNat.testBit (i - 8)
      else c.b.toNat.testBit (i - 16) := by
  rw [packColour_of_bits_24 h, getLsbD_rgbBits hc (by decide) (by omega)]
  simp only [if_pos hi]
  rfl

theorem getLsbD_packColour_of_bits_16 {p : Psm} (h : p.bits = 16) {c : Colour} (hc : c.Bytes) {i : Nat}
    (hi : i < 16) :
    (packColour p c).getLsbD i =
      if i < 5 then c.r.toNat.testBit (i + 3) else if i < 10 then c.g.toNat.testBit (i - 2)
      else if i < 15 then c.b.toNat.testBit (i - 7) else c.a.toNat.testBit 7 := by
  have ⟨_, _, _, ha⟩ := hc
  have hi' : i < 32 := by omega
  rw [packColour_of_bits_16 h, BitVec.getLsbD_or, getLsbD_rgbBits hc (by decide) hi', getLsbD_channelBits ha _ _ hi']
  have place : i < 5 ∨ (5 ≤ i ∧ i < 10) ∨ (10 ≤ i ∧ i < 15) ∨ i = 15 := by omega
  rcases place with red | green | blue | alpha <;>
    simp (disch := omega) only [if_pos, if_neg, Bool.or_false, Bool.false_or] <;> congr 1 <;> omega

/-! ## The bits a frame write keeps -/

theorem frameMask_of_bits_32 {p : Psm} (h : p.bits = 32) (m : VWord) : frameMask p m = m := by
  simp only [frameMask, h]

theorem getLsbD_frameMask_of_bits_24 {p : Psm} (h : p.bits = 24) (m : VWord) {i : Nat} (hi : i < 24) :
    (frameMask p m).getLsbD i = m.getLsbD i := by
  have low : 0x00FFFFFF#32 = lowMask 24 := rfl
  simp only [frameMask, h]
  rw [low, BitVec.getLsbD_and, getLsbD_lowMask]
  simp [hi, show i < 32 by omega]

/-- A field of FBMSK moved to bit s of a pixel. -/
theorem getLsbD_shiftLeft_extractLsb' (m : VWord) (a n s : Nat) {i : Nat} (hi : i < 32) :
    ((m.extractLsb' a n).setWidth 32 <<< s).getLsbD i =
      if s ≤ i ∧ i < s + n then m.getLsbD (a + (i - s)) else false := by
  rw [BitVec.getLsbD_shiftLeft, BitVec.getLsbD_setWidth, BitVec.getLsbD_extractLsb']
  by_cases low : i < s
  · simp [low, Nat.not_le.2 low]
  · by_cases high : i < s + n
    · simp [hi, low, high, Nat.le_of_not_lt low, show i - s < 32 by omega, show i - s < n by omega]
    · simp [high, show ¬ i - s < n by omega]

/-- FBMSK as a 16-bit pixel's bits: bits [7:3] of each channel's mask and bit 31 (R460). -/
theorem getLsbD_frameMask_of_bits_16 {p : Psm} (h : p.bits = 16) (m : VWord) {i : Nat} (hi : i < 16) :
    (frameMask p m).getLsbD i =
      if i < 5 then m.getLsbD (i + 3) else if i < 10 then m.getLsbD (i + 6) else if i < 15 then m.getLsbD (i + 9)
      else m.getLsbD 31 := by
  have hi' : i < 32 := by omega
  have unshifted : (m.extractLsb' 3 5).setWidth 32 = (m.extractLsb' 3 5).setWidth 32 <<< 0 :=
    (BitVec.shiftLeft_zero _).symm
  simp only [frameMask, h]
  rw [unshifted]
  simp only [BitVec.getLsbD_or, getLsbD_shiftLeft_extractLsb' m _ _ _ hi']
  have place : i < 5 ∨ (5 ≤ i ∧ i < 10) ∨ (10 ≤ i ∧ i < 15) ∨ i = 15 := by omega
  rcases place with red | green | blue | alpha <;>
    simp (disch := omega) only [if_pos, if_neg, Bool.or_false, Bool.false_or] <;> congr 1 <;> omega

/-- The alpha bits of each width (R460). -/
theorem getLsbD_alphaBits (p : Psm) {i : Nat} (hi : i < 32) :
    (p.bits = 32 → (alphaBits p).getLsbD i = decide (24 ≤ i)) ∧ (p.bits = 24 → (alphaBits p).getLsbD i = false) ∧
    (p.bits = 16 → (alphaBits p).getLsbD i = decide (i = 15)) := by
  have of32 : ∀ i : Fin 32, (0xFF000000#32).getLsbD i = decide (24 ≤ i.1) := by decide
  have of16 : ∀ i : Fin 32, (0x8000#32).getLsbD i = decide (i.1 = 15) := by decide
  refine ⟨fun h => ?_, fun h => ?_, fun h => ?_⟩ <;> simp only [alphaBits, h]
  · exact of32 ⟨i, hi⟩
  · exact BitVec.getLsbD_zero
  · exact of16 ⟨i, hi⟩

theorem getLsbD_keptBits (e : Env) (o : WriteKind) (i : Nat) :
    (keptBits e o).getLsbD i = true ↔
      (frameMask e.fbFmt e.K.fbMsk).getLsbD i = true ∨ (o = .rgbOnly ∧ (alphaBits e.fbFmt).getLsbD i = true) := by
  rw [keptBits, BitVec.getLsbD_or, Bool.or_eq_true]
  split_ifs with ho <;> simp [ho]

/-! ## The frame write -/

/-- A frame write keeps the bits R460 keeps and takes the others from the packed colour. -/
theorem getLsbD_frameRaw_writeFrame (e : Env) (lm : LocalMem) (x y : Nat) (c : Colour) (o : WriteKind) {i : Nat}
    (hi : i < e.fbFmt.bits) :
    (frameRaw e (writeFrame e lm x y c o) x y).getLsbD i =
      if (frameMask e.fbFmt e.K.fbMsk).getLsbD i = true ∨ (o = .rgbOnly ∧ (alphaBits e.fbFmt).getLsbD i = true)
      then (frameRaw e lm x y).getLsbD i else (packColour e.fbFmt c).getLsbD i := by
  have stored : frameRaw e (writeFrame e lm x y c o) x y =
      mergeBits (packColour e.fbFmt c) (frameRaw e lm x y) (keptBits e o) &&& lowMask e.fbFmt.bits := by
    rw [mergeBits, BitVec.or_comm]
    exact Memory.readRaw_writeRaw_same _ _ _ _ _ _ _
  rw [stored, BitVec.getLsbD_and, getLsbD_lowMask, getLsbD_mergeBits]
  simp only [getLsbD_keptBits, hi, hi.trans_le e.fbFmt.bits_le, decide_true, Bool.and_true]

/-- Settles O53: for each width, the bits of the mask and of the packed colour. -/
theorem frameWriteMerges : Obligations.FrameWriteMerges := by
  intro e lm x y c o hr hg hb ha old new chan
  have hc : c.Bytes := ⟨hr, hg, hb, ha⟩
  have written {i : Nat} (hi : i < e.fbFmt.bits) := getLsbD_frameRaw_writeFrame e lm x y c o hi
  refine ⟨fun h i hi => ?_, fun h i hi => ?_, fun h i hi => ?_⟩ <;> refine (written (h ▸ hi)).trans ?_
  · obtain ⟨alpha, -, -⟩ := getLsbD_alphaBits e.fbFmt hi
    rw [frameMask_of_bits_32 h, alpha h, getLsbD_packColour_of_bits_32 h hc hi]
    simp only [decide_eq_true_eq]
    rfl
  · obtain ⟨-, alpha, -⟩ := getLsbD_alphaBits e.fbFmt (show i < 32 by omega)
    rw [getLsbD_frameMask_of_bits_24 h _ hi, alpha h, getLsbD_packColour_of_bits_24 h hc hi]
    simp only [Bool.false_eq_true, and_false, or_false]
    rfl
  · obtain ⟨-, -, alpha⟩ := getLsbD_alphaBits e.fbFmt (show i < 32 by omega)
    rw [getLsbD_frameMask_of_bits_16 h _ hi, alpha h, getLsbD_packColour_of_bits_16 h hc hi]
    by_cases last : i = 15
    · subst last
      simp only [decide_true, and_true]
      rfl
    · have place : i < 5 ∨ (5 ≤ i ∧ i < 10) ∨ (10 ≤ i ∧ i < 15) := by omega
      rcases place with red | green | blue <;>
        simp (disch := omega) only [if_pos, if_neg, last, decide_false, Bool.false_eq_true, and_false, or_false] <;> rfl

/-! ## The output colour -/

theorem blendSel_eq (k : Nat) (cs cd : Int) : blendSel k cs cd = if k = 0 then cs else if k = 1 then cd else 0 := by
  unfold blendSel
  split <;> simp_all

theorem blendCoef_eq (k : Nat) (as ad fix : Int) :
    blendCoef k as ad fix = if k = 0 then as else if k = 1 then ad else fix := by
  unfold blendCoef
  split <;> simp_all

theorem blendChannel_eq (K : Context) (as ad cs cd : Int) :
    blendChannel K as ad cs cd =
      (((blendSel K.alphaA cs cd - blendSel K.alphaB cs cd) * blendCoef K.alphaC as ad K.alphaFix) >>> (7 : Nat)) +
        blendSel K.alphaD cs cd :=
  congrArg (· + _) (Int.shiftRight_eq_div_pow _ 7).symm

theorem blends_iff (e : Env) (as : Int) :
    blends e as = true ↔ e.attr.abe = true ∧ ¬ ((e.regs.read .pabe).getLsbD 0 = true ∧ as < 0x80) := by
  simp only [blends, bit, Bool.and_eq_true, Bool.not_eq_true', Bool.eq_false_iff, ne_eq, decide_eq_true_eq]

theorem ditherAt_eq (e : Env) (x y : Nat) :
    ditherAt e x y =
      if (e.regs.read .dthe).getLsbD 0 = true ∧ e.fbFmt.bits = 16 then dimxElem (e.regs.read .dimx) (y % 4) (x % 4)
      else 0 := by
  simp [ditherAt, bit]

theorem limitChannel_eq (e : Env) (v : Int) :
    limitChannel e v =
      if e.cfg.honourColclamp = true ∧ (e.regs.read .colclamp).getLsbD 0 = false then v % 256
      else min (max v 0) 255 := by
  simp [limitChannel, bit, clampInt]

/-- FBA sets bit 7, which adds 128 to an alpha that lacks it (R456). -/
theorem or_128_of_byte {n : Nat} (h : n < 256) : n ||| 128 = if n < 128 then n + 128 else n := by
  have sum : ∀ b < 128, 128 ||| b = 128 + b := fun b hb => (Nat.two_pow_add_eq_or_of_lt (i := 7) hb 1).symm
  rw [Nat.or_comm]
  split_ifs with low
  · rw [sum n low, Nat.add_comm]
  · have bitSet : n = 128 ||| (n - 128) := by
      rw [sum _ (by omega)]
      omega
    rw [bitSet, ← Nat.or_assoc, Nat.or_self]

theorem outAlpha_of_fba {e : Env} (h : e.K.fbaBit = true) {as : Int} (ha : Byte8 as) :
    outAlpha e as = if as < 128 then as + 128 else as := by
  obtain ⟨a0, a255⟩ := ha
  rw [outAlpha, if_pos h, or_128_of_byte (by omega)]
  split_ifs <;> omega

/-- Settles O52: channel by channel. -/
theorem outputColour : Obligations.OutputColour := by
  intro e x y s d sel coef blended v limit
  have channel (cs cd : Int) : outChannel e x y s.a d.a cs cd = limit (v cs cd) := by
    simp only [outChannel, limitChannel_eq, ditherAt_eq, blends_iff, blendChannel_eq, blendSel_eq, blendCoef_eq]
    rfl
  exact ⟨channel _ _, channel _ _, channel _ _, fun h => if_neg (by simp [h]), fun h ha => outAlpha_of_fba h ha⟩

/-! ## The tests -/

/-- Settles O50: code by code for the comparisons, format by format for the two that depend on the width. -/
theorem pixelTests : Obligations.PixelTests := by
  refine ⟨fun as ref => ?_, ⟨rfl, rfl, rfl, rfl⟩, fun e d => ?_, fun e z => ?_, fun zf zd => ?_⟩
  · exact ⟨rfl, rfl, decide_eq_true_iff, decide_eq_true_iff, beq_iff_eq, decide_eq_true_iff, decide_eq_true_iff,
      bne_iff_ne⟩
  · refine ⟨fun h => ?_, fun h => ?_, fun h => ?_⟩
    · rcases h with h | h <;> simp only [datePass, h, Psm.bits, beq_iff_eq]
    · rcases h with h | h | h | h <;> simp only [datePass, h, Psm.bits, beq_iff_eq]
    · rcases h with h | h <;> simp only [datePass, h, Psm.bits]
  · refine ⟨fun h => ?_, fun h => ?_, fun h => ?_⟩
    · simp only [clampZ, zMax, h, Psm.bits]
    · simp only [clampZ, zMax, h, Psm.bits]
    · rcases h with h | h <;> simp only [clampZ, zMax, h, Psm.bits]
  · exact ⟨rfl, rfl, decide_eq_true_iff, decide_eq_true_iff⟩

/-! ## The stages of a fragment -/

/-- MSK = 2 lets the odd rows through and MSK = 3 the even ones (R431). -/
theorem scanOk_iff (e : Env) (y : Nat) :
    scanOk e y = true ↔
      (field (e.regs.read .scanmsk) 1 0 = 2 → y % 2 = 1) ∧ (field (e.regs.read .scanmsk) 1 0 = 3 → y % 2 = 0) := by
  unfold scanOk scanmskMsk
  split <;> simp_all

theorem processFragment_of_scanOk {e : Env} {fr : Frag} (h : scanOk e fr.y.toNat = true) (lm : LocalMem) :
    processFragment e lm fr =
      testAndWrite e (if e.attr.tme then lm.useFree else lm) fr.x.toNat fr.y.toNat fr.z (sourceColour e lm fr) :=
  if_pos h

theorem processFragment_of_scanMasked {e : Env} {fr : Frag} (h : ¬ scanOk e fr.y.toNat = true) (lm : LocalMem) :
    processFragment e lm fr = lm :=
  if_neg h

theorem alphaOutcome_eq (K : Context) (as : Int) :
    alphaOutcome K as =
      if K.ate = true ∧ alphaPass K.atst as K.aref = false then afailOutcome K.afail else some .full := by
  simp [alphaOutcome]

/-- A failed destination-alpha or depth test ends a fragment whatever the alpha test said (R430). -/
theorem testedKind_eq (e : Env) (lm : LocalMem) (x y z : Nat) (as : Int) :
    testedKind e lm x y z as =
      if e.K.date = true ∧ datePass e (frameRaw e lm x y) = false then none
      else if e.K.zte = true ∧ depthPass e.K.ztst (clampZ e z) (depthRaw e lm x y) = false then none
      else alphaOutcome e.K as := by
  unfold testedKind
  cases alphaOutcome e.K as with
  | none => simp
  | some o => simp

/-- A fragment that its tests leave nothing to write changes nothing (R430). -/
theorem testAndWrite_of_none {e : Env} {lm : LocalMem} {x y z : Nat} {s : Colour}
    (h : testedKind e lm x y z s.a = none) : testAndWrite e lm x y z s = lm := by
  rw [testAndWrite, h]

theorem testAndWrite_of_some {e : Env} {lm : LocalMem} {x y z : Nat} {s : Colour} {o : WriteKind}
    (h : testedKind e lm x y z s.a = some o) :
    testAndWrite e lm x y z s =
      writeFragment e lm x y (clampZ e z) (outColour e x y s (destColour e (frameRaw e lm x y))) o := by
  rw [testAndWrite, h]

/-- The writes of each kind: the frame unless ZB_ONLY, then the depth for FULL and ZB_ONLY with ZMSK = 0 (R470). -/
theorem writeFragment_cases (e : Env) (lm : LocalMem) (x y zf : Nat) (c : Colour) :
    writeFragment e lm x y zf c .full =
      (if e.K.zMsk then writeFrame e lm x y c .full else writeDepth e (writeFrame e lm x y c .full) x y zf) ∧
    writeFragment e lm x y zf c .fbOnly = writeFrame e lm x y c .fbOnly ∧
    writeFragment e lm x y zf c .zbOnly = (if e.K.zMsk then lm else writeDepth e lm x y zf) ∧
    writeFragment e lm x y zf c .rgbOnly = writeFrame e lm x y c .rgbOnly := by
  cases h : e.K.zMsk <;> simp [writeFragment, h]

/-- Settles O51: by the scan mask, then by the outcome of the tests. -/
theorem fragmentStages : Obligations.FragmentStages := by
  constructor
  · intro e lm fr
    dsimp only
    refine ⟨fun h => processFragment_of_scanMasked ?_ lm, fun h => processFragment_of_scanOk ?_ lm⟩
    · rw [scanOk_iff]
      omega
    · rw [scanOk_iff]
      omega
  · intro e lm x y z s fails dateFails depthFails c frame depth
    have kind := testedKind_eq e lm x y z s.a
    rw [alphaOutcome_eq] at kind
    obtain ⟨full, fbOnly, zbOnly, rgbOnly⟩ := writeFragment_cases e lm x y (clampZ e z) c
    refine ⟨fun h => testAndWrite_of_none ?_, fun hd hz => ?_⟩
    · rcases h with hd | hz | ⟨hf, ha⟩
      · rw [kind, if_pos hd]
      · rw [kind, if_pos hz, ite_self]
      · rw [kind, if_pos hf, ha]
        simp [afailOutcome]
    · rw [if_neg hd, if_neg hz] at kind
      refine ⟨fun hf => ?_, fun hf ha => ?_, fun hf ha => ?_, fun hf ha => ?_⟩
      · rw [if_neg hf] at kind
        exact (testAndWrite_of_some kind).trans full
      · rw [if_pos hf, ha] at kind
        exact (testAndWrite_of_some kind).trans fbOnly
      · rw [if_pos hf, ha] at kind
        exact (testAndWrite_of_some kind).trans zbOnly
      · rw [if_pos hf, ha] at kind
        exact (testAndWrite_of_some kind).trans rgbOnly

end Sys2Proof.Machine

/-! # The local copy -/

namespace Sys2Proof.Machine

/-! ## The pixels copied -/

/-- A source pixel has the bits of its format only. -/
theorem Memory.readRaw_and_lowMask (m : Memory) (p : Psm) (bp bw x y : Nat) :
    m.readRaw p bp bw x y &&& lowMask p.bits = m.readRaw p bp bw x y := by
  refine BitVec.eq_of_toNat_eq ?_
  rw [toNat_and_lowMask _ p.bits_le, Nat.mod_eq_of_lt (m.readRaw_toNat_lt p bp bw x y)]

/-- A copy goes through one VRAM for each pixel of the region, row by row (R485). -/
theorem copyLocal_steps (sp dp : Psm) (b p g : Word) (lm : LocalMem) :
    ∃ m : Nat → Memory, m 0 = lm.vram ∧ (copyLocal sp dp b p g lm).vram = m (regRrw g * regRrh g) ∧
      ∀ i, i < regRrw g * regRrh g →
        m (i + 1) = (copyPixel sp dp b p ⟨m i, [], 0⟩ (i % regRrw g, i / regRrw g)).vram := by
  obtain ⟨m, first, last, next⟩ := foldl_steps (fun m xy => (copyPixel sp dp b p ⟨m, [], 0⟩ xy).vram) lm.vram
    (regionPixels (regRrw g) (regRrh g))
  rw [length_regionPixels] at last
  exact ⟨m, first, (copyPixels_vram sp dp b p _ lm).trans last, fun i hi => next i _ (getElem?_regionPixels _ _ i hi)⟩

theorem copyLocal_readByte {sp dp : Psm} {b p g : Word} (lm : LocalMem) {a : Nat}
    (h : ∀ x y, x < regRrw g → y < regRrh g → a / 4 ≠ copyWord dp b p (x, y)) :
    (copyLocal sp dp b p g lm).vram.readByte a = lm.vram.readByte a :=
  copyPixels_byte sp dp b p _ lm a fun _ hq => h _ _ (mem_regionPixels.1 hq).1 (mem_regionPixels.1 hq).2

theorem mem_dirty_copyLocal (sp dp : Psm) (b p g : Word) (lm : LocalMem) (a : Nat) :
    a ∈ (copyLocal sp dp b p g lm).dirty ↔
      a ∈ lm.dirty ∨ ∃ x y, x < regRrw g ∧ y < regRrh g ∧ a = copyWord dp b p (x, y) := by
  refine ((copyPixels_dirty sp dp b p _ lm).1 a).trans ?_
  simp only [Prod.exists, mem_regionPixels, and_assoc]

/-- A pixel whose place no other pixel takes, and whose source word no pixel writes, holds the source pixel's old bits
after the copy: the pixels before it keep its source, and those after it keep its place (R485). -/
theorem copyLocal_readRaw {sp dp : Psm} (hb : sp.bits = dp.bits) {b p g : Word} (lm : LocalMem) {q : Nat × Nat}
    (hq : q ∈ regionPixels (regRrw g) (regRrh g))
    (source : ∀ r ∈ regionPixels (regRrw g) (regRrh g),
      sp.wordAt (bltSbp b) (bltSbw b) (windowCoord (posSsax p) q.1) (windowCoord (posSsay p) q.2) ≠ copyWord dp b p r)
    (place : ∀ r ∈ regionPixels (regRrw g) (regRrh g), r ≠ q →
      dp.swz (bltDbp b) (bltDbw b) (windowCoord (posDsax p) q.1) (windowCoord (posDsay p) q.2) ≠
        dp.swz (bltDbp b) (bltDbw b) (windowCoord (posDsax p) r.1) (windowCoord (posDsay p) r.2)) :
    (copyLocal sp dp b p g lm).vram.readRaw dp (bltDbp b) (bltDbw b) (windowCoord (posDsax p) q.1)
        (windowCoord (posDsay p) q.2) =
      lm.vram.readRaw sp (bltSbp b) (bltSbw b) (windowCoord (posSsax p) q.1) (windowCoord (posSsay p) q.2) := by
  obtain ⟨before, after, parts⟩ := List.append_of_mem hq
  have once : q ∉ after := by
    have := nodup_regionPixels (regRrw g) (regRrh g)
    rw [parts] at this
    exact (List.nodup_cons.1 this.of_append_right).1
  rw [parts] at source place
  rw [copyLocal, parts, List.foldl_append, List.foldl_cons,
    copyPixels_place _ _ _ _ after _ fun r hr => place r (by simp [hr]) fun e => once (e ▸ hr)]
  refine (Memory.readRaw_writeRaw_same _ _ _ _ _ _ _).trans ?_
  rw [← hb, Memory.readRaw_and_lowMask, copyPixels_source _ _ _ _ before _ fun r hr => source r (by simp [hr])]

/-! ## The command -/

theorem State.startCopy_of_reserved (s : State) {b : Word} (p g : Word)
    (h : Psm.ofCode (bltSpsm b) = none ∨ Psm.ofCode (bltDpsm b) = none) :
    s.startCopy b p g = s.refuse .badTransferFormat := by
  unfold State.startCopy
  rcases h with h | h <;> rw [h]
  cases Psm.ofCode (bltSpsm b) <;> rfl

theorem State.startCopy_of_mismatch (s : State) {b : Word} (p g : Word) {sp dp : Psm}
    (hs : Psm.ofCode (bltSpsm b) = some sp) (hd : Psm.ofCode (bltDpsm b) = some dp) (h : sp.bits ≠ dp.bits) :
    s.startCopy b p g = s.refuse .transferWidthMismatch := by
  simp [State.startCopy, hs, hd, h]

theorem State.startCopy_of_formats (s : State) {b : Word} (p g : Word) {sp dp : Psm}
    (hs : Psm.ofCode (bltSpsm b) = some sp) (hd : Psm.ofCode (bltDpsm b) = some dp) (h : sp.bits = dp.bits) :
    s.startCopy b p g = { s with lm := copyLocal sp dp b p g s.lm } := by
  simp [State.startCopy, hs, hd, h]

theorem State.startCopy_frame (s : State) (b p g : Word) :
    s.startCopy b p g =
      { s with
        lm := (s.startCopy b p g).lm
        refused := (s.startCopy b p g).refused
        reasons := (s.startCopy b p g).reasons } := by
  unfold State.startCopy
  split
  · split <;> rfl
  · rfl

/-- A TRXDIR write with XDIR = 2 starts a copy from the registers as they were (R481). -/
theorem exec_wTrxdir_copy {d : Word} (s : State) (h : d.extractLsb' 0 2 = 2#2) :
    exec (.wTrxdir d) s = .next (((s.setReg .trxdir d).setXfer none).startCopy (s.reg .bitbltbuf) (s.reg .trxpos)
      (s.reg .trxreg)) := by
  rw [(Runs.trxdir d).exec_eq, dirXdir_of_bits h]
  exact congrArg Host.Outcome.next (s.startTransfer_copy d)

/-- Settles O56: by the two format codes; with two of one width, clause by clause from the pixels copied. -/
theorem localCopy : Obligations.LocalCopy := by
  intro d s hx b p g w h
  have frame := ((s.setReg .trxdir d).setXfer none).startCopy_frame b p g
  have regs : (((s.setReg .trxdir d).setXfer none).startCopy b p g).regs = s.regs.write .trxdir d := by
    rw [frame]
    rfl
  refine ⟨_, exec_wTrxdir_copy s hx, reg_stored regs, regs_kept regs, by rw [frame]; rfl,
    fun sp dp hs hd hb => ?_, fun hn => ?_, fun sp dp hs hd hb => ?_, by rw [regs]; exact frame⟩
  · rw [State.startCopy_of_formats _ _ _ hs hd hb]
    have rising := (copyPixels_dirty sp dp b p (regionPixels (regRrw g) (regRrh g)) s.lm).2
    refine ⟨rfl, rfl, copyLocal_steps sp dp b p g s.lm, fun a => copyLocal_readByte s.lm, fun x y hw hh apart => ?_,
      mem_dirty_copyLocal sp dp b p g s.lm, rising.1, rising.2⟩
    have apart (r : Nat × Nat) (hr : r ∈ regionPixels w h) :=
      apart r.1 r.2 (mem_regionPixels.1 hr).1 (mem_regionPixels.1 hr).2
    exact copyLocal_readRaw hb s.lm (q := (x, y)) (mem_regionPixels.2 ⟨hw, hh⟩)
      (fun r hr e => (apart r hr).1 e.symm) fun r hr ne e => ne (Prod.ext_iff.2 ((apart r hr).2 e.symm))
  · exact State.startCopy_of_reserved _ p g hn ▸ ⟨rfl, rfl, rfl⟩
  · exact State.startCopy_of_mismatch _ p g hs hd hb ▸ ⟨rfl, rfl, rfl⟩

end Sys2Proof.Machine

/-! # The pixels of a data word -/

namespace Sys2Proof.Machine

/-! ## Formats that divide a data word -/

/-- A pixel cut from a data word has the word's bits at its place (R490). -/
theorem getLsbD_dataPixel {w : Nat} (hw : w ≤ 32) (d : Word) (s j : Nat) :
    ((d >>> s).setWidth 32 &&& lowMask w).getLsbD j = (decide (j < w) && d.getLsbD (s + j)) := by
  rw [BitVec.getLsbD_and, BitVec.getLsbD_setWidth, BitVec.getLsbD_ushiftRight, getLsbD_lowMask]
  by_cases hj : j < w
  · simp [hj, show j < 32 by omega]
  · simp [hj]

theorem unpackData_of_ne_24 {p : Psm} (h : p.bits ≠ 24) (carry : List Byte) (d : Word) :
    unpackData p carry d = (dataPixels p.bits d, carry) := if_neg h

/-! ## The 24-bit stream -/

theorem unpackData_of_24 {p : Psm} (h : p.bits = 24) (carry : List Byte) (d : Word) :
    unpackData p carry d = cut24 (carry ++ dataBytes d) := if_pos h

/-- The bytes of a pixel put together from three are the three. -/
theorem pixelBytes_append (b0 b1 b2 : Byte) : pixelBytes (0#8 ++ b2 ++ b1 ++ b0) = [b0, b1, b2] := by
  simp (disch := omega) only [pixelBytes, BitVec.extractLsb'_append_eq_of_le, BitVec.extractLsb'_append_eq_of_add_le,
    Nat.reduceSub, Nat.sub_self, BitVec.extractLsb'_eq_self]

/-- A pixel put together from three bytes has 24 bits. -/
theorem toNat_append_bytes_lt (b0 b1 b2 : Byte) : (0#8 ++ b2 ++ b1 ++ b0).toNat < 2 ^ 24 := by
  refine Nat.lt_pow_two_of_testBit _ fun i hi => ?_
  rw [BitVec.testBit_toNat, BitVec.getLsbD_append, BitVec.getLsbD_append, BitVec.getLsbD_append, if_neg (by omega),
    if_neg (by omega), if_neg (by omega), BitVec.getLsbD_zero]

/-- Cutting a stream loses no byte (R491). -/
theorem cut24_bytes (l : List Byte) : (cut24 l).1.flatMap pixelBytes ++ (cut24 l).2 = l := by
  induction l using cut24.induct with
  | case1 b0 b1 b2 rest ih => simp [cut24, pixelBytes_append, ih]
  | case2 rest short => simp [cut24.eq_2 rest short]

/-- A pixel cut from a stream has 24 bits (R491). -/
theorem toNat_lt_of_mem_cut24 {l : List Byte} {v : VWord} (h : v ∈ (cut24 l).1) : v.toNat < 2 ^ 24 := by
  induction l using cut24.induct with
  | case1 b0 b1 b2 rest ih =>
    rw [cut24.eq_1, List.mem_cons] at h
    rcases h with rfl | h
    · exact toNat_append_bytes_lt b0 b1 b2
    · exact ih h
  | case2 rest short => simp [cut24.eq_2 rest short] at h

/-- Settles O58: the word cut at the width of the format, or the stream cut into groups of three bytes. -/
theorem dataWordPixels : Obligations.DataWordPixels := by
  refine fun p carry d => ⟨fun h => ?_, fun h => ?_⟩
  · rw [unpackData_of_ne_24 h]
    refine ⟨rfl, by simp [dataPixels], fun i hi => ⟨(d >>> (i * p.bits)).setWidth 32 &&& lowMask p.bits, ?_, ?_⟩⟩
    · simp [dataPixels, hi]
    · exact getLsbD_dataPixel p.bits_le d _
  · rw [unpackData_of_24 h]
    refine ⟨cut24_bytes (carry ++ dataBytes d), fun _ => toNat_lt_of_mem_cut24, ?_⟩
    rw [cut24_left_length, List.length_append, dataBytes_length]

end Sys2Proof.Machine

/-! # The byte stream of a 24-bit download -/

namespace Sys2Proof.Machine

/-! ## The carry of a cursor -/

/-- A cursor with another carry. -/
def TransferCursor.withCarry (x : TransferCursor) (c : List Byte) : TransferCursor := { x with carry := c }

@[simp] theorem TransferCursor.full_withCarry (x : TransferCursor) (c : List Byte) :
    (x.withCarry c).full = x.full := rfl

@[simp] theorem TransferCursor.passed_withCarry (x : TransferCursor) (c : List Byte) :
    (x.withCarry c).passed = x.passed := rfl

@[simp] theorem TransferCursor.rrw_withCarry (x : TransferCursor) (c : List Byte) : (x.withCarry c).rrw = x.rrw := rfl

@[simp] theorem TransferCursor.rrh_withCarry (x : TransferCursor) (c : List Byte) : (x.withCarry c).rrh = x.rrh := rfl

@[simp] theorem TransferCursor.carry_withCarry (x : TransferCursor) (c : List Byte) : (x.withCarry c).carry = c := rfl

@[simp] theorem TransferCursor.withCarry_withCarry (x : TransferCursor) (c c' : List Byte) :
    (x.withCarry c).withCarry c' = x.withCarry c' := rfl

@[simp] theorem TransferCursor.moved_withCarry (x : TransferCursor) (c : List Byte) (n : Nat) :
    (x.withCarry c).moved n = (x.moved n).withCarry c := x.moved_carry c n

theorem TransferCursor.inRegion_withCarry {x : TransferCursor} {c : List Byte} :
    (x.withCarry c).InRegion ↔ x.InRegion :=
  ⟨fun h => ⟨h.width, h.height, h.inside⟩, fun h => ⟨h.width, h.height, h.inside⟩⟩

/-- A cursor moved on has passed its region when the pixels moved past are all that were left. -/
theorem TransferCursor.full_moved_iff {x : TransferCursor} {n : Nat} (h : (x.moved n).InRegion) :
    (x.moved n).full = true ↔ x.passed + n = x.rrh * x.rrw := by
  rw [h.full_iff, x.passed_moved, (x.moved_same n).1]

/-! ## The bytes of the pixels ahead -/

/-- The bytes of the next `n` pixels of a 24-bit download, in order (R500). -/
def TransferCursor.sourceBytes (p : Psm) (m : Memory) (x : TransferCursor) (n : Nat) : List Byte :=
  (List.range n).flatMap fun i =>
    pixelBytes (m.readRaw p x.sbp x.sbw (windowCoord x.ssax (x.moved i).cx) (windowCoord x.ssay (x.moved i).cy))

@[simp] theorem TransferCursor.sourceBytes_zero (p : Psm) (m : Memory) (x : TransferCursor) :
    x.sourceBytes p m 0 = [] := rfl

/-- The bytes of `n + 1` pixels are those of the next one and of the `n` after it. -/
theorem TransferCursor.sourceBytes_succ (p : Psm) (m : Memory) (x : TransferCursor) (n : Nat) :
    x.sourceBytes p m (n + 1) =
      pixelBytes (m.readRaw p x.sbp x.sbw (windowCoord x.ssax x.cx) (windowCoord x.ssay x.cy)) ++
        x.advance.sourceBytes p m n := by
  simp only [TransferCursor.sourceBytes, TransferCursor.moved_advance, List.range_succ_eq_map, List.flatMap_cons,
    List.flatMap_map]
  rw [x.advance_same.1]
  rfl

@[simp] theorem TransferCursor.sourceBytes_withCarry (p : Psm) (m : Memory) (x : TransferCursor) (c : List Byte)
    (n : Nat) : (x.withCarry c).sourceBytes p m n = x.sourceBytes p m n := by
  unfold TransferCursor.sourceBytes
  simp only [TransferCursor.moved_withCarry]
  rfl

theorem TransferCursor.length_sourceBytes (p : Psm) (m : Memory) (x : TransferCursor) (n : Nat) :
    (x.sourceBytes p m n).length = 3 * n := by
  simp [TransferCursor.sourceBytes, List.length_flatMap, Nat.mul_comm]

/-! ## Filling the carry -/

/-- One round of filling takes the bytes of the next pixel (R500). -/
theorem fillCarry_succ_of_take (p : Psm) (m : Memory) (rounds : Nat) {x : TransferCursor} (short : x.carry.length < 8)
    (hf : x.full = false) :
    fillCarry p m (rounds + 1) x = fillCarry p m rounds (x.advance.withCarry (x.carry ++
      pixelBytes (m.readRaw p x.sbp x.sbw (windowCoord x.ssax x.cx) (windowCoord x.ssay x.cy)))) := by
  simp only [fillCarry, takePixel, short, hf, and_self, if_true, Bool.false_eq_true, if_false]
  rfl

theorem fillCarry_succ_of_done (p : Psm) (m : Memory) (rounds : Nat) {x : TransferCursor}
    (h : ¬ (x.carry.length < 8 ∧ x.full = false)) : fillCarry p m (rounds + 1) x = x := if_neg h

/-- The carry is filled with the bytes of the pixels that the cursor passes, all of its region (R500). -/
theorem fillCarry_eq (p : Psm) (m : Memory) (rounds : Nat) {x : TransferCursor} (h : x.InRegion) :
    ∃ n, x.passed + n ≤ x.rrh * x.rrw ∧
      fillCarry p m rounds x = (x.moved n).withCarry (x.carry ++ x.sourceBytes p m n) := by
  have nothing (x : TransferCursor) : x = (x.moved 0).withCarry (x.carry ++ x.sourceBytes p m 0) := by
    rw [TransferCursor.sourceBytes_zero, List.append_nil]
    rfl
  induction rounds generalizing x with
  | zero => exact ⟨0, h.passed_le, nothing x⟩
  | succ rounds ih =>
    by_cases hc : x.carry.length < 8 ∧ x.full = false
    · rw [fillCarry_succ_of_take p m rounds hc.1 hc.2]
      obtain ⟨n, hn, e⟩ := ih (TransferCursor.inRegion_withCarry.2 (h.advance hc.2))
      refine ⟨n + 1, ?_, e.trans ?_⟩
      · simp only [TransferCursor.passed_withCarry, TransferCursor.rrh_withCarry, TransferCursor.rrw_withCarry,
          TransferCursor.passed_advance, TransferCursor.advance_rrh, TransferCursor.advance_rrw] at hn
        omega
      · simp [TransferCursor.sourceBytes_succ, TransferCursor.moved_advance]
    · rw [fillCarry_succ_of_done p m rounds hc]
      exact ⟨0, h.passed_le, nothing x⟩

/-! ## The value and the command -/

/-- Byte `i` of a value packed from a list (R500). -/
theorem extractLsb'_packBytes (l : List Byte) {i : Nat} (hi : i < 8) :
    (packBytes l).extractLsb' (8 * i) 8 = l.getD i 0#8 := by
  unfold packBytes
  interval_cases i <;>
    simp (disch := omega) only [BitVec.extractLsb'_append_eq_of_le, BitVec.extractLsb'_append_eq_of_add_le,
      Nat.reduceMul, Nat.reduceSub, BitVec.extractLsb'_eq_self]

theorem takeData_of_24 {p : Psm} (hb : p.bits = 24) (m : Memory) (x : TransferCursor) :
    takeData p m x =
      (packBytes (fillCarry p m 3 x).carry, (fillCarry p m 3 x).withCarry ((fillCarry p m 3 x).carry.drop 8)) :=
  if_pos hb

/-- Settles O60: the bytes are those of the filled carry; the value takes the first eight and the cursor the rest. -/
theorem transferRead24Stream : Obligations.TransferRead24Stream := by
  intro s x p hx hok hd hp hb
  have inRegion := hok.inRegion'
  obtain ⟨n, hn, filled⟩ := fillCarry_eq p s.lm.vram 3 inRegion
  have enough := fillCarry_done p s.lm.vram 3 (x := x) (by omega)
  have inside := fillCarry_inRegion p s.lm.vram 3 inRegion
  rw [filled] at enough inside
  have full_iff := TransferCursor.full_moved_iff (TransferCursor.inRegion_withCarry.1 inside)
  have e := State.transferRead_of_download hx hd hp
  rw [takeData_of_24 hb, filled] at e
  refine ⟨s.transferRead, _, n, x.carry ++ x.sourceBytes p s.lm.vram n, rfl, by rw [e]; rfl, hn, ?_, rfl,
    fun i hi => extractLsb'_packBytes _ hi, ?_, fun x' hx' => ?_⟩
  · rw [← full_iff, ← x.length_sourceBytes p s.lm.vram, ← List.length_append]
    exact enough
  · rw [e, ← full_iff]
    simp
  · rw [e] at hx'
    dsimp only at hx'
    split at hx'
    · cases hx'
    · exact (Option.some.inj hx').symm

end Sys2Proof.Machine

/-! # The events a command sends, and totality -/

namespace Sys2Proof.Machine

/-! ## The events a command sends -/

/-- An occurrence of an interrupt source sends its event, or is masked and sends none (R530). -/
theorem State.raise_out_cases (s : State) (src : IrqSource) :
    (s.raise src).out = s.out ∨ (s.raise src).out = s.out ++ [.gsIrq src] := by
  rw [State.raise_eq]
  exact ite_eq_or_eq _ _ _

/-- Settles O24: only the four commands that raise an interrupt source can change `out`. -/
theorem oneEventPerCommand : Obligations.OneEventPerCommand := by
  intro i s t h
  cases Runs.of_exec h with
  | kick => exact .inl (State.kick_out _ _ _)
  | trxdir => exact .inl (State.startTransfer_out _ _)
  | hwreg => exact .inl (State.transferWrite_out _ _)
  | tr => exact .inl (State.transferRead_out _)
  | csr => exact .inl (by split <;> rfl)
  | signal d => exact (State.raise_out_cases _ _).imp_right fun e => .inl ⟨⟨d, rfl⟩, e⟩
  | finish d => exact (State.raise_out_cases _ _).imp_right fun e => .inr (.inl ⟨⟨d, rfl⟩, e⟩)
  | vblankIn => exact (State.raise_out_cases _ _).imp_right fun e => .inr (.inr (.inl ⟨rfl, e⟩))
  | hblank => exact (State.raise_out_cases _ _).imp_right fun e => .inr (.inr (.inr ⟨rfl, e⟩))
  | _ => exact .inl rfl

/-! ## The timing events -/

/-- The decoder reads ADDR and DATA for the kinds 0 to 3 only (R181, R184, R185; log entry 19). -/
theorem decode_cmdWord_of_four_le {k : BitVec 4} (h : 4 ≤ k.toNat) (addr : BitVec 32) (d : Word) :
    decode (cmdWord k addr d) = decode (cmdWord k 0#32 0#64) := by
  have ne {j : BitVec 4} (hj : j.toNat < 4) : k ≠ j := by rintro rfl; omega
  simp [decode, Laws.DecodeEncode.fields, ne]

theorem exec_evVblankIn (s : State) :
    exec .evVblankIn s = .next
      { s with
        csr := { s.csr with vsint := true, field := !s.csr.field }
        out := if bit (s.reg .imr) 11 then s.out else s.out ++ [.gsIrq .vsint] } :=
  Runs.vblankIn.exec_eq.trans (congrArg _ (State.raise_eq _ _))

theorem exec_evHblank (s : State) :
    exec .evHblank s = .next
      { s with
        csr := { s.csr with hsint := true }
        out := if bit (s.reg .imr) 10 then s.out else s.out ++ [.gsIrq .hsint] } :=
  Runs.hblank.exec_eq.trans (congrArg _ (State.raise_eq _ _))

/-- Settles O22: the word of a timing event may have any ADDR and DATA; each event but VBLANK_OUT is one occurrence of
its source. -/
theorem timingEvents : Obligations.TimingEvents := by
  refine ⟨fun addr d => ⟨?_, ?_, ?_⟩, fun s =>
    ⟨⟨_, exec_evVblankIn s, rfl, rfl, rfl⟩, ⟨_, exec_evHblank s, rfl, rfl, rfl⟩, Runs.vblankOut.exec_eq⟩⟩
  · exact (decode_cmdWord_of_four_le (by decide) addr d).trans (decode_encode .evVblankIn)
  · exact (decode_cmdWord_of_four_le (by decide) addr d).trans (decode_encode .evVblankOut)
  · exact (decode_cmdWord_of_four_le (by decide) addr d).trans (decode_encode .evHblank)

/-! ## Nothing stops the block -/

/-- Every command has a next state: each way of acting that `Runs` lists ends in one (R520, R521). -/
theorem exec_next (i : Instr) (s : State) : ∃ t, exec i s = .next t :=
  (exec_runs i s).imp fun _ h => h.1

/-- A step runs a command, rejects a word or finds no command issued, and ends in a next state each time. -/
theorem step_next (s : State) : ∃ t, step s = .next t := by
  cases hc : s.cmds with
  | nil => exact ⟨s, step_of_noCmd hc⟩
  | cons w rest =>
    cases hd : decode w with
    | ok i =>
      rw [step_of_decode hc hd]
      exact exec_next i _
    | error r => exact ⟨_, step_of_reject hc hd⟩

/-- Settles O23: by the command, and by what a step finds in the queue of commands. -/
theorem nothingStops : Obligations.NothingStops := ⟨exec_next, step_next⟩

end Sys2Proof.Machine

/-! # The power-on state -/

namespace Sys2Proof.Machine

/-- A drawing context whose registers are all 0. -/
def Context.zero : Context := ⟨0, 0, 0, 0, 0, 0, 0, 0, 0, 0, 0, 0⟩

/-- A reset clears the registers of both contexts (R560). -/
theorem Regs.ctx_reset (n : CtxId) : Regs.reset.ctx n = Context.zero := by
  cases n <;> simp [Regs.ctx, Regs.read_reset, Context.zero]

/-- The scissor of a cleared context holds one pixel: its bounds are 0 and inclusive (R331). -/
theorem inScissor_zero_iff (x y : Int) : inScissor Context.zero (x, y) = true ↔ x = 0 ∧ y = 0 := by
  have hx0 : Context.zero.scax0 = 0 := by decide
  have hx1 : Context.zero.scax1 = 0 := by decide
  have hy0 : Context.zero.scay0 = 0 := by decide
  have hy1 : Context.zero.scay1 = 0 := by decide
  rw [inScissor_iff, hx0, hx1, hy0, hy1]
  omega

/-- PRMODECONT.AC = 1 after a reset, so the attributes in force are those of a PRIM of 0 (R35, R560). -/
theorem Regs.attr_reset : Regs.reset.attr = attrOf 0#64 := by
  simp [Regs.attr, Regs.read_reset, bit]

/-- Settles O21: the bank is the one of a reset, so both contexts are cleared, and the depth format code is the 0x30 that
a ZBUF.PSM of 0 stands for. -/
theorem powerOnState : Obligations.PowerOnState := by
  intro cfg vramInit s
  refine ⟨Regs.read_reset, rfl, rfl, rfl, rfl, rfl, rfl, rfl, rfl, fun n => ?_⟩
  have hctx : s.regs.ctx n = Context.zero := Regs.ctx_reset n
  have hattr : s.regs.attr = attrOf 0#64 := Regs.attr_reset
  rw [hctx, hattr]
  refine ⟨?_, ?_, ?_, ?_, ?_, inScissor_zero_iff, ?_, ?_, ?_, ?_⟩ <;> decide

end Sys2Proof.Machine
